-- ==== Sys2Proof/Word.lean ====
section
/-! DEFINITION. The scalar types of the bridge core: bytes, times and transport handles
(spec/10_state.md R34, R38; spec/00_scope.md R10). -/

namespace Sys2Proof

/-- One byte of a byte buffer; bit 0 is the least significant bit (R10, R60). -/
abbrev Byte := BitVec 8

/-- `Time`: 32 bits, unsigned, milliseconds, wrapping modulo 2^32 (R34, D11). -/
abbrev Time := BitVec 32

/-- `Handle`: an opaque type with decidable equality; the block stores handles, compares them and passes them back
in commands (R38). DESIGN CHOICE: a handle wraps a number, so that there are infinitely many (log 12). -/
structure Handle where
  id : Nat
deriving DecidableEq, Repr, Inhabited

/-- A network address as the transport takes it; the spec gives it no form (R8: "address not given"). DESIGN CHOICE:
an opaque number that the block only passes on (log 18). -/
structure NetAddr where
  id : Nat
deriving DecidableEq, Repr, Inhabited

end Sys2Proof
end

