-- ==== Sys2Proof/Config.lean ====
section
/-! DEFINITION. The implementation parameters of spec/00_scope.md R8 and the free values (opaque constants without a
body) that stand for what the spec leaves OPEN. The configuration is held in the state as plain data and no step
changes it (R243 item 1, log 3). -/

namespace Sys2Proof

/-! The parameters to which R8 gives one value. A configuration holds each of them as a field, and `Config.legal` asks
for these values (log 13). -/

/-- `HEADER_LEN`: bytes of a wire frame before the payload (R8). -/
def headerLen : Nat := 6

/-- `MAX_DLC`: the largest data-length-code (R8). -/
def maxDlc : Nat := 8

/-- `MAX_FRAME_LEN`: the longest wire frame (R8). -/
def maxFrameLen : Nat := headerLen + maxDlc

/-- `TIME_BITS`: the width of a time value (R8, D11). -/
def timeBits : Nat := 32

/-- `SL_MAX_CONN`: server connection records alive at once (R8, D19). `SL.rec` holds at most this many. -/
def slMaxConn : Nat := 1

/-- `BUF_MAX`: the longest byte buffer an operation accepts; "unbounded in the model" (R8, D34), hence no bound. -/
def bufMax : Option Nat := none

/-- `INDEX_BITS(q) = ceil(log2 N(q))`, the width of `head` and `tail` (R8, D5), for the legal `N ≥ 2`. -/
def indexBits (n : Nat) : Nat := Nat.log2 (n - 1) + 1

/-- `CL_CLEANUP`: the client's teardown path (R8, R164, D16). -/
inductive Cleanup
  | close
  | abort
deriving DecidableEq, Repr, Inhabited

/-- The configuration of one bridge core (R8); a field of the state that no step writes. -/
structure Config where
  /-- `N(rx)`, the number of slots of FQ(rx); any integer ≥ 2 is legal. -/
  nRx : Nat
  /-- `N(tx)`, the number of slots of FQ(tx); any integer ≥ 2 is legal. -/
  nTx : Nat
  /-- `DEST_ADDR`, the client's destination address. -/
  destAddr : NetAddr
  /-- `DEST_PORT`, the client's destination port. -/
  destPort : Nat
  /-- `BIND_ADDR`, the server's local address. -/
  bindAddr : NetAddr
  /-- `BIND_PORT`, the server's local port. -/
  bindPort : Nat
  /-- `SYN_TIMEOUT`, the client's connect-handshake timeout (OPEN, D12). -/
  synTimeout : Time
  /-- `RECONNECT_BACKOFF`, the client's reconnect backoff (OPEN, D12). -/
  reconnectBackoff : Time
  /-- `CL_CLEANUP` (OPEN, D16). -/
  clCleanup : Cleanup
  /-- `CL_RETAIN_TAIL`: does the client keep undecoded trailing bytes (OPEN, default true, D17)? -/
  clRetainTail : Bool
  /-- `SL_CLOSE_ON_SENT`: does the send-acknowledgement finalise a close (OPEN, default false, D23)? -/
  slCloseOnSent : Bool
  /-- `INDEX_BITS(rx)`, the width of `head` and `tail` of FQ(rx) (D5). -/
  indexBitsRx : Nat := indexBits nRx
  /-- `INDEX_BITS(tx)`, the width of `head` and `tail` of FQ(tx) (D5). -/
  indexBitsTx : Nat := indexBits nTx
  /-- `HEADER_LEN` -/
  headerLen : Nat := Sys2Proof.headerLen
  /-- `MAX_DLC` -/
  maxDlc : Nat := Sys2Proof.maxDlc
  /-- `MAX_FRAME_LEN` -/
  maxFrameLen : Nat := Sys2Proof.maxFrameLen
  /-- `TIME_BITS` (D11) -/
  timeBits : Nat := Sys2Proof.timeBits
  /-- `SL_MAX_CONN` (D19) -/
  slMaxConn : Nat := Sys2Proof.slMaxConn
  /-- `BUF_MAX`; `none` is "unbounded" (D34) -/
  bufMax : Option Nat := Sys2Proof.bufMax
deriving DecidableEq, Repr

/-- The parameters to which R8 gives one value have it (log 13). -/
abbrev Config.fixed (c : Config) : Prop :=
  c.indexBitsRx = indexBits c.nRx ∧ c.indexBitsTx = indexBits c.nTx ∧ c.headerLen = Sys2Proof.headerLen ∧
  c.maxDlc = Sys2Proof.maxDlc ∧ c.maxFrameLen = Sys2Proof.maxFrameLen ∧ c.timeBits = Sys2Proof.timeBits ∧
  c.slMaxConn = Sys2Proof.slMaxConn ∧ c.bufMax = Sys2Proof.bufMax

/-- The configurations the spec admits: each capacity an integer ≥ 2 (R8, D5), the fixed parameters at their values. -/
abbrev Config.legal (c : Config) : Prop := 2 ≤ c.nRx ∧ 2 ≤ c.nTx ∧ c.fixed

/-! The parameters to which the spec gives no value and no default: nothing in Lean can evaluate them (log 3). -/

/-- `DEST_ADDR` of the machine after reset: the spec gives none (R8). -/
opaque Config.openDestAddr : NetAddr
/-- `BIND_ADDR` of the machine after reset: the spec gives none (R8). -/
opaque Config.openBindAddr : NetAddr
/-- `SYN_TIMEOUT` of the machine after reset: OPEN (R8, D12). -/
opaque Config.openSynTimeout : Time
/-- `RECONNECT_BACKOFF` of the machine after reset: OPEN, the two reference variants disagree (R172, D12). -/
opaque Config.openReconnectBackoff : Time
/-- `CL_CLEANUP` of the machine after reset: OPEN, no default (R8, D16). -/
opaque Config.openClCleanup : Cleanup

/-- The configuration of the machine after reset: the reference values and the defaults of R8, and the opaque
constants above where R8 says OPEN without a default or "not given" (log 3). -/
def Config.reference : Config where
  nRx := 32
  nTx := 32
  destAddr := Config.openDestAddr
  destPort := 29200
  bindAddr := Config.openBindAddr
  bindPort := 29200
  synTimeout := Config.openSynTimeout
  reconnectBackoff := Config.openReconnectBackoff
  clCleanup := Config.openClCleanup
  clRetainTail := true
  slCloseOnSent := false

/-! The environment's answers (R48) when its script in the state is used up: free values, one for each use, applied
to the counter `env.count` (log 4). -/

/-- A free answer of `env.alloc()`; the premise ALLOC_OK (R38) holds of it: it is a handle. -/
opaque Config.freeAlloc : Nat → Handle
/-- A free answer of `env.tx_slot_free()`. -/
opaque Config.freeTxSlot : Nat → Bool
/-- A free answer of `env.snd_cap(h)`. -/
opaque Config.freeSndCap : Nat → Handle → Nat
/-- A free answer of `env.write_ok(h, chunk)`. -/
opaque Config.freeWriteOk : Nat → Handle → List Byte → Bool

end Sys2Proof
end

