-- ==== Sys2Proof/Syntax.lean ====
section
/-! DEFINITION. The operands and the operations: bus frames, peripheral frames, and one constructor of `Instr` for
each row of spec/opcode_table.json (spec/30_encoding.md R90, R91; spec/10_state.md R20, R47). -/

namespace Sys2Proof

/-- The queue selector `q` (R91): `rx` is bus to network, `tx` is network to bus (R3, R13). -/
inductive QSel
  | rx
  | tx
deriving DecidableEq, Repr, Inhabited

/-- A **BusFrame** (R20). An omitted field of a frame literal is `false`, `0` or `[]` (R12). -/
structure BusFrame where
  /-- extended-flag -/
  ext : Bool := false
  /-- remote-flag -/
  rtr : Bool := false
  /-- identifier, held at the 32 bits of the wire field, never masked (D6) -/
  id : BitVec 32 := 0
  /-- data-length-code, 0 to 8 in a frame that keeps the invariant (R21) -/
  dlc : BitVec 4 := 0
  /-- payload, `data[0]` first on the wire -/
  data : List Byte := []
deriving DecidableEq, Repr, Inhabited

/-- The eight data bytes of a peripheral frame (R47). -/
structure Octets where
  b0 : Byte := 0
  b1 : Byte := 0
  b2 : Byte := 0
  b3 : Byte := 0
  b4 : Byte := 0
  b5 : Byte := 0
  b6 : Byte := 0
  b7 : Byte := 0
deriving DecidableEq, Repr, Inhabited

/-- The eight bytes in order, index 0 first. -/
def Octets.toList (o : Octets) : List Byte := [o.b0, o.b1, o.b2, o.b3, o.b4, o.b5, o.b6, o.b7]

/-- A peripheral frame record `PFrame` (R47, D26). -/
structure PFrame where
  ide : Bool := false
  rtr : Bool := false
  stdId : BitVec 11 := 0
  extId : BitVec 29 := 0
  dlc : BitVec 4 := 0
  data : Octets := {}
deriving DecidableEq, Repr, Inhabited

/-- The two formats of spec/opcode_table.json: the operation selector (R89) and the wire frame (R80). They are told
apart by the interface, not by bits (the wire frame's mask is 0). -/
inductive Format
  | op8
  | wire
deriving DecidableEq, Repr, Inhabited

/-- Why bytes are no operation. -/
inductive DecodeError
  /-- the selector byte names no operation (R90: "a model refuses it") -/
  | unassignedSelector (sel : Byte)
  /-- the bytes end inside an operand (the model's own operand form, log 2) -/
  | operandTruncated
  /-- an operand byte has a value its field does not admit (the model's own operand form, log 2) -/
  | operandReserved (b : Byte)
deriving DecidableEq, Repr

/-- The operations, one constructor for each row of spec/opcode_table.json, in the table's order (R90). -/
inductive Instr
  /-- `FQ.PUSH q, frame` (R100) -/
  | fqPush (q : QSel) (frame : BusFrame)
  /-- `FQ.POP q` (R101) -/
  | fqPop (q : QSel)
  /-- `FC.ENCODE frame` (R120) -/
  | fcEncode (frame : BusFrame)
  /-- `FC.DECODE buffer` (R124) -/
  | fcDecode (buffer : List Byte)
  /-- `BI.INGRESS pframe` (R140) -/
  | biIngress (pframe : PFrame)
  /-- `BE.EGRESS` (R141) -/
  | beEgress
  /-- `NE.EGRESS` (R150) -/
  | neEgress
  /-- `CL.INITIATE now` (R160) -/
  | clInitiate (now : Time)
  /-- `CL.TICK now` (R161) -/
  | clTick (now : Time)
  /-- `CL.CONNECTED` (R162) -/
  | clConnected
  /-- `CL.CONNFAIL` (R163) -/
  | clConnfail
  /-- `CL.RECV bytes` (R165) -/
  | clRecv (bytes : List Byte)
  /-- `CL.EOS` (R166) -/
  | clEos
  /-- `CL.ERROR` (R167) -/
  | clError
  /-- `CL.POLL h` (R168) -/
  | clPoll (h : Handle)
  /-- `SL.SETUP` (R180) -/
  | slSetup
  /-- `SL.ACCEPT h` (R181) -/
  | slAccept (h : Handle)
  /-- `SL.RECV bytes` (R183) -/
  | slRecv (bytes : List Byte)
  /-- `SL.EOS` (R184) -/
  | slEos
  /-- `SL.ERROR` (R185) -/
  | slError
  /-- `SL.ENQUEUE bytes` (R186) -/
  | slEnqueue (bytes : List Byte)
  /-- `SL.SEND` (R187) -/
  | slSend
  /-- `SL.SENT` (R188) -/
  | slSent
  /-- `SL.POLL h` (R189) -/
  | slPoll (h : Handle)
  /-- `AL.SET h` (R200) -/
  | alSet (h : Handle)
  /-- `AL.CLEARIF h` (R201) -/
  | alClearif (h : Handle)
  /-- `AL.GET` (R202) -/
  | alGet
  /-- `WIRE.FRAME`: the bytes of one candidate frame of the byte stream, read by `decode_one` (R122, log 15) -/
  | wireFrame (buf : List Byte)
deriving DecidableEq, Repr

end Sys2Proof
end

