-- ==== Sys2Proof/Machine/State.lean ====
section
/-! DEFINITION. The state of the bridge core as plain data: every piece of spec/10_state.md R39 and the hidden state
of R41; beside it the model's own fields for what R40 calls parameters, inputs and outputs (configuration, lined-up
invocations, the environment's answers, the output of the last operation). -/

namespace Sys2Proof.Machine

/-- A FrameQueue instance (R23): `N` slots of one BusFrame each and the two indices, each in `0 .. N−1`. -/
structure FrameQueue where
  /-- `Q.slot[0 .. N−1]`, the slot space SLOT(q) (R60) -/
  slot : List BusFrame
  /-- `Q.head`, written by the producer only (R25) -/
  head : Nat
  /-- `Q.tail`, written by the consumer only (R25) -/
  tail : Nat
deriving DecidableEq, Repr

/-- The client's states; `Idle` is the absence of the record (R30, C1). -/
inductive ClientState
  | connecting
  | connected
  | closing
deriving DecidableEq, Repr, Inhabited

/-- The client record (R30). -/
structure ClientRec where
  state : ClientState
  handle : Handle
  attemptStart : Time
  /-- undecoded trailing bytes of the receive stream -/
  rxTail : List Byte
deriving DecidableEq, Repr

/-- The server's states; `None` is the absence of the record (R31, C1). -/
inductive ServerState
  | accepted
  | received
  | closing
deriving DecidableEq, Repr, Inhabited

/-- The server record (R31). -/
structure ServerRec where
  state : ServerState
  handle : Handle
  /-- received bytes not yet decoded -/
  rxPending : List Byte
  /-- queued output bytes not yet written; unbounded (R186, U5) -/
  txPending : List Byte
  /-- the retry counter, an unsigned integer of unstated width (R31, R192) -/
  retries : Nat
deriving DecidableEq, Repr

/-- The private values of an in-flight `FQ.PUSH` (R41 item 1, R104). -/
structure PushRegs where
  busy : Bool := false
  h : Nat := 0
  t : Nat := 0
deriving DecidableEq, Repr

/-- The private values of an in-flight `FQ.POP` (R41 item 1, R105). -/
structure PopRegs where
  busy : Bool := false
  t : Nat := 0
  h : Nat := 0
  f : BusFrame := {}
deriving DecidableEq, Repr

/-- The position of an in-flight `NE.EGRESS`: the micro-step of R152 that it runs next (R41 item 2, R219). N1 is the
start of the operation and never stands here. -/
inductive EgressPos
  /-- pop the next frame -/
  | n2
  /-- send the frame `f` that N2 popped -/
  | n3 (f : BusFrame)
  /-- clear PEND -/
  | n4
deriving DecidableEq, Repr

/-- The private values of an in-flight `NE.EGRESS` (R41 item 2, R152): the handle read in N1 and the position. -/
structure EgressRegs where
  h : Handle
  pos : EgressPos
deriving DecidableEq, Repr

/-- The hidden state of the operations under way (R41 items 1 and 2); the default value is "none in flight". -/
structure InFlight where
  push : PushRegs := {}
  pop : PopRegs := {}
  /-- an in-flight `NE.EGRESS` (R152) -/
  egress : Option EgressRegs := none
deriving DecidableEq, Repr

/-- The agents that invoke operations, as far as the discipline of R25, R108 and R217 tells them apart. -/
inductive Agent
  /-- BusIngress, in interrupt context: the one producer of FQ(rx) -/
  | busIngress
  /-- NetworkEgress, in background context: the one consumer of FQ(rx) -/
  | networkEgress
  /-- BusEgress, in background context: the one consumer of FQ(tx) -/
  | busEgress
  /-- the receive path of ClientLink and ServerLink, in background context: the one producer of FQ(tx) -/
  | linkReceive
  /-- any other invoker in background context: boot code, background loop, transport callback (R45, R216) -/
  | background
deriving DecidableEq, Repr, Inhabited

/-- The two execution contexts (R216). -/
inductive Context
  | interrupt
  | background
deriving DecidableEq, Repr, Inhabited

/-- One invocation at an interface of the block (R9, R42 to R45): who invokes, and the operation in bytes. -/
structure Invocation where
  agent : Agent
  format : Format
  bytes : List Byte
deriving DecidableEq, Repr

/-- What the environment answers (R48): the answers to come, oldest first. When a list is used up, the answers are
the free values of Config, applied to `count` (log 4). `irq` lists what the interrupt does at the micro-step
boundaries to come: at each boundary one entry is taken and one `BI.INGRESS` runs for each frame of it (R214, R218,
log 8). -/
structure Env where
  /-- answers of `env.alloc()`; `none` is a failed allocation (U10) -/
  alloc : List (Option Handle) := []
  /-- answers of `env.tx_slot_free()` -/
  txSlot : List Bool := []
  /-- answers of `env.snd_cap(h)` -/
  sndCap : List Nat := []
  /-- answers of `env.write_ok(h, chunk)` -/
  writeOk : List Bool := []
  /-- the interrupts at the micro-step boundaries to come -/
  irq : List (List PFrame) := []
  /-- how many free answers have been used -/
  count : Nat := 0
deriving DecidableEq, Repr

/-- The commands the block gives to the transport and to the bus peripheral (R46, R47). -/
inductive Command
  | connect (h : Handle) (addr : NetAddr) (port : Nat)
  | listen (addr : NetAddr) (port : Nat)
  | write (h : Handle) (bytes : List Byte)
  | flush (h : Handle)
  | recved (h : Handle) (n : Nat)
  | close (h : Handle)
  | abort (h : Handle)
  | submit (f : BusFrame)
deriving DecidableEq, Repr

/-- The error taxonomy (R210). `incompleteFrame` is in the taxonomy and is "not an error" (R123): it is shown by
`Output.incomplete` and never stands in `Output.errors`. -/
inductive ErrorNote
  /-- E1 -/
  | queueFull (q : QSel)
  /-- E2 -/
  | incompleteFrame
  /-- E3 -/
  | connectFailed
  /-- E4 -/
  | handshakeTimeout
  /-- E5 -/
  | peerClosed
  /-- E6 -/
  | transportError
  /-- E7 -/
  | transmitSlotUnavailable (f : BusFrame)
deriving DecidableEq, Repr

/-- The value an operation returns to its invoker (R90). -/
inductive Result
  /-- no result -/
  | unit
  /-- `FQ.PUSH` -/
  | bool (b : Bool)
  /-- `FQ.POP`: none or some frame -/
  | frame (f : Option BusFrame)
  /-- `FC.ENCODE` -/
  | bytes (bs : List Byte)
  /-- `FC.DECODE`: (frames, consumed) -/
  | decoded (frames : List BusFrame) (consumed : Nat)
  /-- `AL.GET`: none or some handle -/
  | handle (h : Option Handle)
  /-- `WIRE.FRAME`: `Incomplete` or `Frame(f, n)` (R122) -/
  | candidate (c : Option (BusFrame × Nat))
deriving DecidableEq, Repr

/-- The output of the last operation (R40: an output, not retained): its result, the commands it emitted in order, and
the ghost record of the errors it raised, which no rule reads (R211, log 6). -/
structure Output where
  result : Result := .unit
  cmds : List Command := []
  errors : List ErrorNote := []
  /-- a candidate read by this operation was `Incomplete`: E2 of R210, no error (R123). An empty rest counts, by R122 and
  the cause in R210; DEDUCED against R213's "may end on" (log 28). -/
  incomplete : Bool := false
deriving DecidableEq, Repr

/-- Why the machine stops with a fault. The block itself never faults (R221). -/
inductive Fault
  /-- Raised by the drains of `BE.EGRESS` and `NE.EGRESS` when they have popped more frames than the queue can hold,
  which needs a queue index outside `0 .. N−1`; R23 excludes such a state. Safe (log 14). -/
  | drainUnbounded
deriving DecidableEq, Repr

/-- Why an operation is refused: the spec gives it no meaning there (R221). Every refusal is safe: a claim says
nothing of a refused run. -/
inductive Refusal
  /-- Raised by `exec` for an instruction that has no meaning yet. Safe. -/
  | notModelled (mnemonic : String)
  /-- Raised by `step`: the bytes name no operation (R90, U18) or are no operand form (log 2). Safe. -/
  | undecodable (e : DecodeError)
  /-- Raised by `FC.ENCODE` on a frame that breaks the invariant (R120, D8), by `FQ.PUSH` on such a frame (R100, R21,
  log 19), and by `NE.EGRESS` if it pops one, which R21 excludes. Safe. -/
  | frameInvariant
  /-- Raised by `BI.INGRESS` with `pframe.dlc > 8` (R140, D26). Safe. -/
  | pframeDlc
  /-- Raised by `SL.ACCEPT` while no listener exists (R181, U11). Safe. -/
  | acceptWithoutListener
  /-- Raised by `SL.ACCEPT` while a server record exists (R181, U2). Safe. -/
  | acceptWithRecord
  /-- Raised by a second `SL.SETUP` (R180, U11). Safe. -/
  | secondSetup
  /-- Raised by `CL.INITIATE` and `CL.TICK` when the environment fails to allocate a handle (U10). Safe. -/
  | allocFailed
  /-- Raised by `FQ.PUSH` when the invoker is not the queue's producer (R108, U1). Safe. -/
  | notProducer
  /-- Raised by `FQ.POP` when the invoker is not the queue's consumer (R108, U1). Safe. -/
  | notConsumer
  /-- Raised by an operation that is invoked in the other execution context than its own (R216, R217, U1). Safe. -/
  | contextBreach
  /-- Raised by an operation invoked while an operation it may not overlap is in flight (R108, R218 items 3, 4). Safe. -/
  | overlap
deriving DecidableEq, Repr

/-- The state of the bridge core. -/
structure State where
  /-- FQ(rx), bus to network -/
  rx : FrameQueue
  /-- FQ(tx), network to bus -/
  tx : FrameQueue
  /-- PEND (R27) -/
  pend : Bool
  /-- AL.slot (R28) -/
  alSlot : Option Handle
  /-- CL.rec; `none` is `Idle` (R30) -/
  clRec : Option ClientRec
  /-- CL.retry_ref (R30) -/
  clRetryRef : Option Time
  /-- SL.listening (R31) -/
  slListening : Bool
  /-- SL.rec; `none` is the state `None` (R31) -/
  slRec : Option ServerRec
  /-- the hidden state of operations under way (R41) -/
  inflight : InFlight
  /-- the agent, hence the context, of the operation under way (R216) -/
  agent : Agent
  /-- the configuration (R8); no step writes it -/
  cfg : Config
  /-- MODEL: the invocations to come, oldest first (log 1) -/
  inbox : List Invocation
  /-- MODEL: the environment's answers to come (R48, log 4, log 8) -/
  env : Env
  /-- MODEL: the output of the last operation (R40, log 6) -/
  out : Output
deriving DecidableEq, Repr

/-- An empty queue of `n` slots: both indices 0 (R49). The slots' contents are unspecified there; the model names the
zero frame (DESIGN CHOICE, log 10). -/
def FrameQueue.empty (n : Nat) : FrameQueue := { slot := List.replicate n {}, head := 0, tail := 0 }

/-- The machine right after reset (R49, R240, R241). -/
def State.reset : State where
  rx := FrameQueue.empty Config.reference.nRx
  tx := FrameQueue.empty Config.reference.nTx
  pend := false
  alSlot := none
  clRec := none
  clRetryRef := none
  slListening := false
  slRec := none
  inflight := {}
  agent := .background
  cfg := Config.reference
  inbox := []
  env := {}
  out := {}

end Sys2Proof.Machine
end

