-- ==== Sys2Proof/Machine/Flags.lean ====
section
/-! DEFINITION. The block's flags and comparisons: the queue predicates (functions of the indices, not stored, R24,
R27), the contexts (R216), the elapsed time (R170), and the numeric codes of states and errors (R32, R210). The one
stored flag is PEND; `State.setPend` writes it. -/

namespace Sys2Proof.Machine

/-- The successor of an index: `(i + 1) mod N` (R68). -/
def nextIndex (n i : Nat) : Nat := (i + 1) % n

/-- `empty(Q) := Q.head = Q.tail` (R24). -/
def FrameQueue.isEmpty (Q : FrameQueue) : Bool := Q.head == Q.tail

/-- `full(Q) := (Q.head + 1) mod N = Q.tail` (R24). -/
def FrameQueue.isFull (n : Nat) (Q : FrameQueue) : Bool := nextIndex n Q.head == Q.tail

/-- `count(Q) := (Q.head − Q.tail) mod N` (R24). -/
def FrameQueue.count (n : Nat) (Q : FrameQueue) : Nat := (Q.head + n - Q.tail) % n

/-- The context an agent runs in (R216): only BusIngress runs in interrupt context. -/
def Agent.context : Agent → Context
  | .busIngress => .interrupt
  | .networkEgress => .background
  | .busEgress => .background
  | .linkReceive => .background
  | .background => .background

/-- The one producer of a queue (R25). -/
def producerOf : QSel → Agent
  | .rx => .busIngress
  | .tx => .linkReceive

/-- The one consumer of a queue (R25). -/
def consumerOf : QSel → Agent
  | .rx => .networkEgress
  | .tx => .busEgress

/-- `elapsed(now, t) := (now − t) mod 2^TIME_BITS` (R170, R34). -/
def elapsed (now t : Time) : Time := now - t

/-- "exceeds": strict (R170, D13). -/
def exceeds (d limit : Time) : Bool := limit.toNat < d.toNat

/-- "has elapsed": `≥` (R170, D13). -/
def hasElapsed (d limit : Time) : Bool := limit.toNat ≤ d.toNat

/-- The numeric code of the client's state (R32). -/
def clientStateCode : Option ClientRec → Nat
  | none => 0
  | some r =>
    match r.state with
    | .connecting => 1
    | .connected => 2
    | .closing => 3

/-- The numeric code of the server's state (R32). -/
def serverStateCode : Option ServerRec → Nat
  | none => 0
  | some r =>
    match r.state with
    | .accepted => 1
    | .received => 2
    | .closing => 3

/-- The code `E<n>` of an error (R210). -/
def ErrorNote.code : ErrorNote → Nat
  | .queueFull _ => 1
  | .incompleteFrame => 2
  | .connectFailed => 3
  | .handshakeTimeout => 4
  | .peerClosed => 5
  | .transportError => 6
  | .transmitSlotUnavailable _ => 7

/-- Is an operation in flight (R41)? -/
def InFlight.busy (x : InFlight) : Bool := x.push.busy || x.pop.busy || x.egress.isSome

end Sys2Proof.Machine
end

