-- ==== Sys2Proof/Machine/Codec.lean ====
section
/-! DEFINITION. The wire frame: the encoder and the decoder as functions on bytes, without any state
(spec/30_encoding.md R80 to R88, spec/41_frame_codec.md R120 to R130). -/

namespace Sys2Proof.Machine

/-- `MemRead(BUF(b), i, 1)` (R11, R63). The callers check the length first, so the default is never read (R64). -/
def bufByte (buf : List Byte) (i : Nat) : Byte := buf.getD i 0

/-- The flags byte on encode: bit 0 = ext, bit 1 = rtr, bits 7:2 = 0 (R82, R87, D7). -/
def flagsByte (ext rtr : Bool) : Byte := (if ext then 1 else 0) ||| (if rtr then 2 else 0)

/-- `id[hi:hi-7]`, one byte of the identifier; `k` is the bit number of its least significant bit (R83). -/
def idByte (id : BitVec 32) (k : Nat) : Byte := id.extractLsb' k 8

/-- The identifier assembled from four bytes, most significant first, unmasked (R62, R83). -/
def assembleId (b1 b2 b3 b4 : Byte) : BitVec 32 := b1 ++ b2 ++ b3 ++ b4

/-- The bytes of `FC.ENCODE frame` (R120). -/
def encodeFrame (f : BusFrame) : List Byte :=
  [flagsByte f.ext f.rtr, idByte f.id 24, idByte f.id 16, idByte f.id 8, idByte f.id 0, f.dlc.setWidth 8]
    ++ f.data.take f.dlc.toNat

/-- The data-length the decoder uses for a declared dlc byte: `min(d, 8)` (R84, R126). -/
def clampDlc (b : Byte) : Nat := min b.toNat maxDlc

/-- `decode_one(buf, off)` (R122): `none` is `Incomplete`, `some (f, n)` is `Frame(f, n)`. -/
def decodeOne (buf : List Byte) (off : Nat) : Option (BusFrame × Nat) :=
  if buf.length - off < headerLen then none
  else if buf.length - off - headerLen < clampDlc (bufByte buf (off + 5)) then none
  else
    some ({ ext := (bufByte buf off).getLsbD 0
            rtr := (bufByte buf off).getLsbD 1
            id := assembleId (bufByte buf (off + 1)) (bufByte buf (off + 2)) (bufByte buf (off + 3))
              (bufByte buf (off + 4))
            dlc := BitVec.ofNat 4 (clampDlc (bufByte buf (off + 5)))
            data := (buf.drop (off + headerLen)).take (clampDlc (bufByte buf (off + 5))) },
          headerLen + clampDlc (bufByte buf (off + 5)))

/-- The scan of `FC.DECODE` from offset `off` on (R124). The first argument bounds the passes; `decodeBuffer` gives it
the number of passes that R124 proves sufficient. -/
def decodeFrom (buf : List Byte) : Nat → Nat → List BusFrame × Nat
  | 0, off => ([], off)
  | k + 1, off =>
    match decodeOne buf off with
    | none => ([], off)
    | some (f, n) => (f :: (decodeFrom buf k (off + n)).1, (decodeFrom buf k (off + n)).2)

/-- `FC.DECODE buffer -> (frames, consumed)`; the loop runs at most `len(buffer)/6 + 1` times (R124). -/
def decodeBuffer (buf : List Byte) : List BusFrame × Nat := decodeFrom buf (buf.length / headerLen + 1) 0

/-- Is the candidate that ends the scan `Incomplete` (R122, R124)? Only `Incomplete` leaves the loop, so it always is, an
empty rest included: "fewer than 6 bytes remain" (R210). -/
def scanIncomplete (buf : List Byte) : Bool := (decodeOne buf (decodeBuffer buf).2).isNone

/-- The bytes that a scan leaves to its caller: `buffer[consumed .. len(buffer))` (R124, R129). -/
def undecodedTail (buf : List Byte) : List Byte := buf.drop (decodeBuffer buf).2

end Sys2Proof.Machine
end

