-- ==== Sys2Proof/WellFormed.lean ====
section
/-! DEFINITION. The BusFrame invariant, the predicate `WF` and the operand conditions of the operations
(spec/10_state.md R21; the Operands lines of R100, R120, R140, R165, R183). -/

namespace Sys2Proof

/-- The BusFrame invariant of the DOC: "`0 ≤ dlc ≤ 8`, `len(payload) == dlc`" (R21). -/
def BusFrame.inv (f : BusFrame) : Bool := f.dlc.toNat ≤ maxDlc && f.data.length == f.dlc.toNat

/-- The identifier range: 29 bits if extended, else 11 bits (R21). -/
def BusFrame.idInRange (f : BusFrame) : Bool := if f.ext then f.id.toNat < 2 ^ 29 else f.id.toNat < 2 ^ 11

/-- `WF(f)` (R21). -/
def BusFrame.wf (f : BusFrame) : Bool := f.inv && f.idInRange

/-- A peripheral frame that BusIngress gives a meaning to: dlc 0 to 8 (R140, D26). -/
def PFrame.legal (p : PFrame) : Bool := p.dlc.toNat ≤ maxDlc

/-- The operand's byte form exists: a receive event delivers at least one byte (R165, R183), and a `WIRE.FRAME`
operand is one candidate, whole or incomplete (R122). -/
def Instr.encodable : Instr → Bool
  | .clRecv bytes => bytes != []
  | .slRecv bytes => bytes != []
  | .wireFrame buf =>
    match Machine.decodeOne buf 0 with
    | none => true
    | some (_, n) => n == buf.length
  | _ => true

/-- The operand conditions under which the rules give the operation a meaning (R100, R120, R140). -/
def Instr.operandsLegal : Instr → Bool
  | .fqPush _ f => f.inv
  | .fcEncode f => f.inv
  | .biIngress p => p.legal
  | _ => true

/-- A well-formed operation. -/
def Instr.wf (i : Instr) : Bool := i.encodable && i.operandsLegal

end Sys2Proof
end

