-- ==== Sys2Proof/Machine/Operands.lean ====
section
/-! DEFINITION. The operand forms (R91): the queue selector, the frame built from a peripheral frame (R140), and the
agent that an operation belongs to (R25, R45, R216). -/

namespace Sys2Proof.Machine

/-- The queue a selector names. -/
def State.queue (s : State) : QSel → FrameQueue
  | .rx => s.rx
  | .tx => s.tx

/-- `N(q)` (R8). -/
def State.cap (s : State) : QSel → Nat
  | .rx => s.cfg.nRx
  | .tx => s.cfg.nTx

/-- The frame BusIngress builds from a peripheral frame: the identifier is the one `ide` selects, the payload the first
`dlc` data bytes, remote frames included (R140, U9). -/
def frameOfPFrame (p : PFrame) : BusFrame where
  ext := p.ide
  rtr := p.rtr
  id := if p.ide then p.extId.setWidth 32 else p.stdId.setWidth 32
  dlc := p.dlc
  data := p.data.toList.take p.dlc.toNat

/-- The agent on whose behalf an operation is invoked when the discipline of R25, R108 and R217 is kept. -/
def agentOf : Instr → Agent
  | .fqPush q _ => producerOf q
  | .fqPop q => consumerOf q
  | .biIngress _ => .busIngress
  | .beEgress => .busEgress
  | .neEgress => .networkEgress
  | .clRecv _ => .linkReceive
  | .slRecv _ => .linkReceive
  | .alGet => .networkEgress
  | .fcEncode _ => .background
  | .fcDecode _ => .background
  | .clInitiate _ => .background
  | .clTick _ => .background
  | .clConnected => .background
  | .clConnfail => .background
  | .clEos => .background
  | .clError => .background
  | .clPoll _ => .background
  | .slSetup => .background
  | .slAccept _ => .background
  | .slEos => .background
  | .slError => .background
  | .slEnqueue _ => .background
  | .slSend => .background
  | .slSent => .background
  | .slPoll _ => .background
  | .alSet _ => .background
  | .alClearif _ => .background
  | .wireFrame _ => .background

end Sys2Proof.Machine
end

