-- ==== Sys2Proof/Machine/Ops.lean ====
section
/-! DEFINITION. The named operations every meaning is built from: field updates, the slot space, push and pop as atomic
transitions, outputs, the environment's draws, and taking the interrupt and returning from it. -/

namespace Sys2Proof.Machine

/-! ## Outcomes -/

/-- What an operation answers. -/
abbrev Answer := Host.Outcome State Fault Refusal

/-- One part of an operation, then the rest on what it leaves; a stop of the first part stops the operation. -/
def andThen {α β : Type} (o : Host.Outcome α Fault Refusal) (f : α → Host.Outcome β Fault Refusal) :
    Host.Outcome β Fault Refusal :=
  match o with
  | .next a => f a
  | .fault r => .fault r
  | .refused r => .refused r

/-! ## Field updates -/

def State.setQueue (s : State) : QSel → FrameQueue → State
  | .rx, Q => { s with rx := Q }
  | .tx, Q => { s with tx := Q }
def State.setPend (s : State) (b : Bool) : State := { s with pend := b }
def State.setAlSlot (s : State) (a : Option Handle) : State := { s with alSlot := a }
def State.setClRec (s : State) (r : Option ClientRec) : State := { s with clRec := r }
def State.setClRetryRef (s : State) (t : Option Time) : State := { s with clRetryRef := t }
def State.setSlListening (s : State) (b : Bool) : State := { s with slListening := b }
def State.setSlRec (s : State) (r : Option ServerRec) : State := { s with slRec := r }
def State.setPush (s : State) (p : PushRegs) : State := { s with inflight := { s.inflight with push := p } }
def State.setPop (s : State) (p : PopRegs) : State := { s with inflight := { s.inflight with pop := p } }
def State.setEgress (s : State) (e : Option EgressRegs) : State := { s with inflight := { s.inflight with egress := e } }
def State.setAgent (s : State) (a : Agent) : State := { s with agent := a }
def State.setInbox (s : State) (l : List Invocation) : State := { s with inbox := l }
def State.setEnv (s : State) (e : Env) : State := { s with env := e }
def State.setOut (s : State) (o : Output) : State := { s with out := o }

/-! ## Outputs -/

/-- The operation starts with nothing put out (R40: outputs are not retained). -/
def State.fresh (s : State) : State := s.setOut {}

/-- `emit <cmd>`: append one command to the operation's output command list (R11). -/
def State.emit (s : State) (c : Command) : State := s.setOut { s.out with cmds := s.out.cmds ++ [c] }

/-- `raise <Error>`: note the error; nothing else happens (R11, R210). -/
def State.raise (s : State) (e : ErrorNote) : State := s.setOut { s.out with errors := s.out.errors ++ [e] }

/-- The value the operation returns. -/
def State.answer (s : State) (r : Result) : State := s.setOut { s.out with result := r }

/-- Note whether the candidate read was `Incomplete` (E2 of R210, R123). -/
def State.noteIncomplete (s : State) (b : Bool) : State := s.setOut { s.out with incomplete := b }

/-! ## The slot space -/

/-- `MemRead(SLOT(q), i, 1)` (R11, R61). A slot beyond the array does not exist (R64: such an address cannot be
formed); the default stands there in states that R23 excludes. -/
def Memory.read (m : List BusFrame) (i : Nat) : BusFrame := m.getD i {}

/-- `MemWrite(SLOT(q), i, 1, f)` (R11, R61). -/
def Memory.write (m : List BusFrame) (i : Nat) (f : BusFrame) : List BusFrame := m.set i f

/-- The canonical form of a slot space of `n` slots: exactly `n` frames, each keeping the invariant (R21, R23). -/
def Memory.wf (n : Nat) (m : List BusFrame) : Bool := m.length == n && m.all BusFrame.inv

/-- The queue's own invariant: `N` slots and both indices in `0 .. N−1` (R23). -/
def FrameQueue.wf (n : Nat) (Q : FrameQueue) : Bool :=
  Memory.wf n Q.slot && decide (Q.head < n) && decide (Q.tail < n)

/-- `contents(Q)`: the held frames, oldest first (R24). -/
def FrameQueue.contents (n : Nat) (Q : FrameQueue) : List BusFrame :=
  (List.range (Q.count n)).map fun i => Memory.read Q.slot ((Q.tail + i) % n)

/-! ## Push and pop as atomic transitions -/

/-- `FQ.PUSH q, frame` as one transition (R100): `false` and nothing written when the queue is full. -/
def pushFrame (q : QSel) (f : BusFrame) (s : State) : Bool × State :=
  if (s.queue q).isFull (s.cap q) then (false, s.raise (.queueFull q))
  else
    (true, s.setQueue q
      { s.queue q with
        slot := Memory.write (s.queue q).slot (s.queue q).head f
        head := nextIndex (s.cap q) (s.queue q).head })

/-- `FQ.POP q` as one transition (R101). -/
def popFrame (q : QSel) (s : State) : Option BusFrame × State :=
  if (s.queue q).isEmpty then (none, s)
  else
    (some (Memory.read (s.queue q).slot (s.queue q).tail),
      s.setQueue q { s.queue q with tail := nextIndex (s.cap q) (s.queue q).tail })

/-- Frames offered to a queue one after another, as a receive path does: a push that fails drops its frame and the
loop goes on (R129). -/
def pushAll (q : QSel) : List BusFrame → State → State
  | [], s => s
  | f :: fs, s => pushAll q fs (pushFrame q f s).2

/-- `ingest(buf)` (R129): decode, then push every frame to FQ(tx). The count of consumed bytes is that of the decoder,
dropped frames included. The scan's end is noted as E2 (R213, log 28). -/
def ingest (buf : List Byte) (s : State) : State :=
  pushAll .tx (decodeBuffer buf).1 (s.noteIncomplete (scanIncomplete buf))

/-! ## Draws -/

/-- `env.alloc()` (R48): `none` is a failed allocation (U10). -/
def drawAlloc (s : State) : Option Handle × State :=
  match s.env.alloc with
  | a :: rest => (a, s.setEnv { s.env with alloc := rest })
  | [] => (some (Config.freeAlloc s.env.count), s.setEnv { s.env with count := s.env.count + 1 })

/-- `env.tx_slot_free()` (R48). -/
def drawTxSlot (s : State) : Bool × State :=
  match s.env.txSlot with
  | a :: rest => (a, s.setEnv { s.env with txSlot := rest })
  | [] => (Config.freeTxSlot s.env.count, s.setEnv { s.env with count := s.env.count + 1 })

/-- `env.snd_cap(h)` (R48). -/
def drawSndCap (h : Handle) (s : State) : Nat × State :=
  match s.env.sndCap with
  | a :: rest => (a, s.setEnv { s.env with sndCap := rest })
  | [] => (Config.freeSndCap s.env.count h, s.setEnv { s.env with count := s.env.count + 1 })

/-- `env.write_ok(h, chunk)` (R48). -/
def drawWriteOk (h : Handle) (chunk : List Byte) (s : State) : Bool × State :=
  match s.env.writeOk with
  | a :: rest => (a, s.setEnv { s.env with writeOk := rest })
  | [] => (Config.freeWriteOk s.env.count h chunk, s.setEnv { s.env with count := s.env.count + 1 })

/-! ## The active link slot -/

/-- What `AL.SET h` does to the slot: the old content is not looked at (R200). -/
def State.setLink (s : State) (h : Handle) : State := s.setAlSlot (some h)

/-- What `AL.CLEARIF h` does to the slot: it is cleared only if it holds `h` (R201). -/
def State.clearLinkIf (s : State) (h : Handle) : State := if s.alSlot = some h then s.setAlSlot none else s

/-! ## The interrupt -/

/-- The body of `BI.INGRESS` (R140): translate, push to FQ(rx), set PEND whether or not the push succeeded. -/
def ingress (p : PFrame) (s : State) : Answer :=
  if p.legal then .next ((pushFrame .rx (frameOfPFrame p) s).2.setPend true) else .refused .pframeDlc

/-- Interrupt entry: it saves nothing and changes nothing in the block's state, only the context is now that of
BusIngress (R219). -/
def interruptEntry (s : State) : State := s.setAgent .busIngress

/-- Interrupt return: the pre-empted agent goes on where it was, nothing is restored (R220). -/
def interruptReturn (a : Agent) (s : State) : State := s.setAgent a

/-- Taking the bus receive interrupt: entry, one whole `BI.INGRESS`, return (R214, R218 to R220). -/
def takeInterrupt (p : PFrame) (s : State) : Answer :=
  andThen (ingress p (interruptEntry s)) fun s' => .next (interruptReturn s.agent s')

/-- One interrupt for each frame, in order (R143). -/
def takeInterrupts : List PFrame → State → Answer
  | [], s => .next s
  | p :: ps, s => andThen (takeInterrupt p s) (takeInterrupts ps)

/-- A micro-step boundary of a background operation: the interrupts the environment has placed there run (R218 item 1,
log 8). -/
def preempt (s : State) : Answer :=
  match s.env.irq with
  | [] => .next s
  | ps :: rest => takeInterrupts ps (s.setEnv { s.env with irq := rest })

/-! ## Who may run what -/

/-- An operation of background context (R216): refused in interrupt context (R217) and while another background
operation is in flight (R218 item 4). -/
def inBackground (s : State) (body : State → Answer) : Answer :=
  if s.agent.context = .interrupt then .refused .contextBreach
  else if s.inflight.busy then .refused .overlap
  else body s.fresh

/-- `BI.INGRESS` runs in interrupt context only (R140, R217), and not while a push is in flight, its own included
(R218 item 3). It may run while a pop or an `NE.EGRESS` is in flight. -/
def inInterrupt (s : State) (body : State → Answer) : Answer :=
  if s.agent.context = .interrupt then
    if s.inflight.push.busy then .refused .overlap else body s.fresh
  else .refused .contextBreach

/-- The producer port of a queue (R42, R108): only the producer; not while another push is in flight, and, for a
producer in background context, not while any operation is. -/
def atProducerPort (q : QSel) (s : State) (body : State → Answer) : Answer :=
  if s.agent = producerOf q then
    if q = .rx then inInterrupt s body else inBackground s body
  else .refused .notProducer

/-- The consumer port of a queue (R42, R108): only the consumer, which runs in background context. -/
def atConsumerPort (q : QSel) (s : State) (body : State → Answer) : Answer :=
  if s.agent = consumerOf q then inBackground s body else .refused .notConsumer

end Sys2Proof.Machine
end

