-- ==== Sys2Proof/Machine/ActiveLink.lean ====
section
/-! DEFINITION. The active link slot (spec/46_active_link.md). -/

namespace Sys2Proof.Machine

/-- `AL.SET h` (R200): last writer wins, nothing is closed. -/
def execAlSet (h : Handle) (s : State) : Answer := inBackground s fun s => .next (s.setLink h)

/-- `AL.CLEARIF h` (R201). -/
def execAlClearif (h : Handle) (s : State) : Answer := inBackground s fun s => .next (s.clearLinkIf h)

/-- `AL.GET -> none or some h` (R202). -/
def execAlGet (s : State) : Answer := inBackground s fun s => .next (s.answer (.handle s.alSlot))

end Sys2Proof.Machine
end

