-- ==== Sys2Proof/Machine/BusSide.lean ====
section
/-! DEFINITION. The bus side agents BI.INGRESS and BE.EGRESS (spec/42_bus_ingress_egress.md). -/

namespace Sys2Proof.Machine

/-- `BI.INGRESS pframe` (R140): interrupt context only; the body is the one of Ops.lean that an interrupt inside another
operation runs too. -/
def execBiIngress (pframe : PFrame) (s : State) : Answer := inInterrupt s (ingress pframe)

/-- What BusEgress does with one popped frame: submit it, or, with no free transmit slot, drop it without retry
(R141, R144). -/
def submitOrDrop (f : BusFrame) (s : State) : State :=
  if (drawTxSlot s).1 then (drawTxSlot s).2.emit (.submit f) else (drawTxSlot s).2.raise (.transmitSlotUnavailable f)

/-- The loop of `BE.EGRESS`: pop until the queue is empty (R141). The first argument bounds the pops; `count + 1` are
enough for every queue whose indices are in range. -/
def drainTx : Nat → State → Answer
  | 0, _ => .fault .drainUnbounded
  | k + 1, s =>
    match popFrame .tx s with
    | (none, s') => .next s'
    | (some f, s') => drainTx k (submitOrDrop f s')

/-- `BE.EGRESS` (R141). -/
def execBeEgress (s : State) : Answer := inBackground s fun s => drainTx (s.tx.count s.cfg.nTx + 1) s

end Sys2Proof.Machine
end

