-- ==== Sys2Proof/Machine/ClientLink.lean ====
section
/-! DEFINITION. The client's connection state machine (spec/44_client_link.md). An event in a state for which no rule
gives a behaviour changes nothing (R169, D18). -/

namespace Sys2Proof.Machine

/-- The body of `CL.INITIATE now` (R160): nothing while a record exists; else allocate, connect, record the start. -/
def initiate (now : Time) (s : State) : Answer :=
  match s.clRec with
  | some _ => .next s
  | none =>
    match drawAlloc s with
    | (none, _) => .refused .allocFailed
    | (some h, s') =>
      .next (((s'.emit (.connect h s.cfg.destAddr s.cfg.destPort)).setClRec
        (some { state := .connecting, handle := h, attemptStart := now, rxTail := [] })).setClRetryRef (some now))

/-- `CL.INITIATE now` (R160). -/
def execClInitiate (now : Time) (s : State) : Answer := inBackground s (initiate now)

/-- Has the connect handshake timed out (R161 part 1)? -/
def handshakeTimedOut (now : Time) (s : State) : Option ClientRec :=
  match s.clRec with
  | none => none
  | some r =>
    if r.state = .connecting ∧ exceeds (elapsed now r.attemptStart) s.cfg.synTimeout = true then some r else none

/-- Part 1 of `CL.TICK`: the timeout aborts the attempt, and the backoff runs from the abort time (R161, D14). -/
def tickTimeout (now : Time) (s : State) : State :=
  match handshakeTimedOut now s with
  | none => s
  | some r => (((s.raise .handshakeTimeout).emit (.abort r.handle)).setClRec none).setClRetryRef (some now)

/-- Is a new attempt due: no attempt yet since reset, or the backoff has elapsed (R161 part 2)? -/
def backoffOver (now : Time) (s : State) : Bool :=
  match s.clRetryRef with
  | none => true
  | some t => hasElapsed (elapsed now t) s.cfg.reconnectBackoff

/-- Part 2 of `CL.TICK`: without a record and with the backoff over, initiate (R161). -/
def tickReconnect (now : Time) (s : State) : Answer :=
  if s.clRec.isNone && backoffOver now s then initiate now s else .next s

/-- `CL.TICK now` (R161): the two parts in this order in one invocation (D15). -/
def execClTick (now : Time) (s : State) : Answer := inBackground s fun s => tickReconnect now (tickTimeout now s)

/-- `CL.CONNECTED` (R162). -/
def execClConnected (s : State) : Answer :=
  inBackground s fun s =>
    match s.clRec with
    | none => .next s
    | some r =>
      if r.state = .connecting then .next ((s.setClRec (some { r with state := .connected })).setLink r.handle)
      else .next s

/-- `CL.CONNFAIL` (R163): the handle is dropped, no command is emitted. -/
def execClConnfail (s : State) : Answer :=
  inBackground s fun s =>
    match s.clRec with
    | none => .next s
    | some r => if r.state = .connecting then .next ((s.raise .connectFailed).setClRec none) else .next s

/-- What the client keeps of a buffer after the scan (R165, D17). -/
def retainedTail (s : State) (buf : List Byte) : List Byte := if s.cfg.clRetainTail then undecodedTail buf else []

/-- `CL.RECV bytes` (R165): in `Connected` only, else the bytes are discarded. -/
def execClRecv (bytes : List Byte) (s : State) : Answer :=
  inBackground s fun s =>
    match s.clRec with
    | none => .next s
    | some r =>
      if r.state = .connected then
        .next (((ingest (r.rxTail ++ bytes) s).setClRec
          (some { r with rxTail := retainedTail s (r.rxTail ++ bytes) })).emit
            (.recved r.handle (decodeBuffer (r.rxTail ++ bytes)).2))
      else .next s

/-- `cl_finalize` (R164) on the record `r`: clear the slot if it holds the handle, close or abort, drop the record. -/
def clFinalize (r : ClientRec) (s : State) : State :=
  ((s.clearLinkIf r.handle).emit
    (match s.cfg.clCleanup with
      | .close => .close r.handle
      | .abort => .abort r.handle)).setClRec none

/-- `CL.EOS` (R166): `Closing`, then at once `cl_finalize`. -/
def execClEos (s : State) : Answer :=
  inBackground s fun s =>
    match s.clRec with
    | none => .next s
    | some r =>
      .next (clFinalize { r with state := .closing }
        ((s.raise .peerClosed).setClRec (some { r with state := .closing })))

/-- `CL.ERROR` (R167): release the record in every state; clear the slot if it holds the handle. -/
def execClError (s : State) : Answer :=
  inBackground s fun s =>
    match s.clRec with
    | none => .next s
    | some r => .next (((s.raise .transportError).setClRec none).clearLinkIf r.handle)

/-- `CL.POLL h` (R168): abort a transport for which no record exists. -/
def execClPoll (h : Handle) (s : State) : Answer :=
  inBackground s fun s =>
    match s.clRec with
    | none => .next (s.emit (.abort h))
    | some r => if r.handle = h then .next s else .next (s.emit (.abort h))

end Sys2Proof.Machine
end

