-- ==== Sys2Proof/Machine/FrameCodec.lean ====
section
/-! DEFINITION. FC.ENCODE, FC.DECODE and the wire-frame row (spec/41_frame_codec.md). They read and write no state of
R39; their answer stands in the output. The functions on bytes are in Codec.lean. -/

namespace Sys2Proof.Machine

/-- `FC.ENCODE frame -> bytes` (R120): refused on a frame that breaks the invariant (D8); the identifier range is not
checked. -/
def execFcEncode (frame : BusFrame) (s : State) : Answer :=
  inBackground s fun s =>
    if frame.inv then .next (s.answer (.bytes (encodeFrame frame))) else .refused .frameInvariant

/-- `FC.DECODE buffer -> (frames, consumed)` (R124). The candidate that ends the scan is noted as E2, an empty rest
included (R122, R210; log 28). -/
def execFcDecode (buffer : List Byte) (s : State) : Answer :=
  inBackground s fun s =>
    .next ((s.noteIncomplete (scanIncomplete buffer)).answer
      (.decoded (decodeBuffer buffer).1 (decodeBuffer buffer).2))

/-- `WIRE.FRAME`: `decode_one` at the start of the bytes (R122): one BusFrame and its length, or `Incomplete`,
which is noted as E2 also where there is no byte at all (log 28). -/
def execWireFrame (buf : List Byte) (s : State) : Answer :=
  inBackground s fun s =>
    .next ((s.noteIncomplete (decodeOne buf 0).isNone).answer (.candidate (decodeOne buf 0)))

end Sys2Proof.Machine
end

