-- ==== Sys2Proof/Machine/FrameQueue.lean ====
section
/-! DEFINITION. FQ.PUSH and FQ.POP (spec/40_frame_queue.md): the two operations run their micro-steps P1 to P4 (R104)
and C1 to C4 (R105), whose private values stand in `inflight`; at each boundary of a pop from FQ(rx) the interrupt may
run (R107). The atomic transitions R100 and R101 are `pushFrame` and `popFrame` of Ops.lean. -/

namespace Sys2Proof.Machine

/-! ## Micro-steps of FQ.PUSH (R104) -/

/-- P1: read the own index and, once, the consumer's index. -/
def pushP1 (q : QSel) (s : State) : State :=
  s.setPush { busy := true, h := (s.queue q).head, t := (s.queue q).tail }

/-- The test of P2: the queue is full as far as the producer's copy of `tail` says. -/
def pushSeesFull (q : QSel) (s : State) : Bool := nextIndex (s.cap q) s.inflight.push.h == s.inflight.push.t

/-- P3: write the frame to slot `h`. -/
def pushP3 (q : QSel) (f : BusFrame) (s : State) : State :=
  s.setQueue q { s.queue q with slot := Memory.write (s.queue q).slot s.inflight.push.h f }

/-- P4: publish the new `head`. -/
def pushP4 (q : QSel) (s : State) : State :=
  s.setQueue q { s.queue q with head := nextIndex (s.cap q) s.inflight.push.h }

/-- The push is over: its private values are gone. -/
def pushEnd (s : State) : State := s.setPush {}

/-- P1 to P4 in order. Nothing runs between them (R107): a push on FQ(rx) runs in interrupt context to completion, a
push on FQ(tx) in the one background context. -/
def pushMicro (q : QSel) (f : BusFrame) (s : State) : Bool × State :=
  if pushSeesFull q (pushP1 q s) then (false, pushEnd ((pushP1 q s).raise (.queueFull q)))
  else (true, pushEnd (pushP4 q (pushP3 q f (pushP1 q s))))

/-! ## Micro-steps of FQ.POP (R105) -/

/-- C1: read the own index and, once, the producer's index. -/
def popC1 (q : QSel) (s : State) : State :=
  s.setPop { busy := true, t := (s.queue q).tail, h := (s.queue q).head, f := {} }

/-- The test of C2: the queue is empty as far as the consumer's copy of `head` says. -/
def popSeesEmpty (s : State) : Bool := s.inflight.pop.h == s.inflight.pop.t

/-- C3: read the frame of slot `t`. -/
def popC3 (q : QSel) (s : State) : State :=
  s.setPop { s.inflight.pop with f := Memory.read (s.queue q).slot s.inflight.pop.t }

/-- C4: publish the new `tail`. -/
def popC4 (q : QSel) (s : State) : State :=
  s.setQueue q { s.queue q with tail := nextIndex (s.cap q) s.inflight.pop.t }

/-- The pop is over: its private values are gone. -/
def popEnd (s : State) : State := s.setPop {}

/-- A boundary between two micro-steps of a pop: the interrupt can fall there for FQ(rx), whose producer runs in
interrupt context; on FQ(tx) nothing interleaves (R107, C3 of 90_conflicts.md). -/
def popBoundary : QSel → State → Answer
  | .rx, s => preempt s
  | .tx, s => .next s

/-- C1 to C4 in order, with the boundaries between them. -/
def popMicro (q : QSel) (s : State) : Host.Outcome (Option BusFrame × State) Fault Refusal :=
  andThen (popBoundary q (popC1 q s)) fun s1 =>
    if popSeesEmpty s1 then .next (none, popEnd s1)
    else
      andThen (popBoundary q s1) fun s2 =>
        andThen (popBoundary q (popC3 q s2)) fun s3 =>
          .next (some s3.inflight.pop.f, popEnd (popC4 q s3))

/-! ## The operations -/

/-- `FQ.PUSH q, frame -> bool` (R100, R104). -/
def execFqPush (q : QSel) (frame : BusFrame) (s : State) : Answer :=
  atProducerPort q s fun s =>
    if frame.inv then .next ((pushMicro q frame s).2.answer (.bool (pushMicro q frame s).1))
    else .refused .frameInvariant

/-- `FQ.POP q -> none or some frame` (R101, R105). -/
def execFqPop (q : QSel) (s : State) : Answer :=
  atConsumerPort q s fun s => andThen (popMicro q s) fun r => .next (r.2.answer (.frame r.1))

end Sys2Proof.Machine
end

