-- ==== Sys2Proof/Machine/NetworkEgress.lean ====
section
/-! DEFINITION. NE.EGRESS (spec/43_network_egress.md): the micro-steps N1 to N4 (R152) around the micro-steps of
`FQ.POP rx`, with the interrupt admitted at every boundary between them. -/

namespace Sys2Proof.Machine

/-- N3: encode one frame, hand it to the transport and flush; no result of the write is consumed (R150, R153). A queue
never holds a frame the encoder refuses (R150 corner case 5). -/
def sendFrame (h : Handle) (f : BusFrame) (s : State) : Answer :=
  if f.inv then .next ((s.emit (.write h (encodeFrame f))).emit (.flush h)) else .refused .frameInvariant

/-! ## The micro-steps (R152). The position of the operation under way stands in `inflight.egress`. -/

/-- N1: `a` is the slot's handle; the operation is under way and N2 is next. -/
def egressN1 (h : Handle) (s : State) : State := s.setEgress (some { h := h, pos := .n2 })

/-- The step that follows N2: N3 with the popped frame, or N4 when the queue was found empty. -/
def afterPop : Option BusFrame → EgressPos
  | none => .n4
  | some f => .n3 f

/-- N2: pop, with its own micro-steps C1 to C4. -/
def egressN2 (h : Handle) (s : State) : Answer :=
  andThen (popMicro .rx s) fun r => .next (r.2.setEgress (some { h := h, pos := afterPop r.1 }))

/-- N3: encode, write and flush the popped frame; N2 is next. -/
def egressN3 (h : Handle) (f : BusFrame) (s : State) : Answer :=
  andThen (sendFrame h f s) fun t => .next (t.setEgress (some { h := h, pos := .n2 }))

/-- N4: clear PEND. The operation is over, its private values are gone. -/
def egressN4 (s : State) : State := (s.setPend false).setEgress none

/-- The rest of an `NE.EGRESS` under way: at each boundary the interrupt may run, then the micro-step at the position
runs. The first argument bounds the micro-steps, see `egressBound`. -/
def egressRun : Nat → State → Answer
  | 0, _ => .fault .drainUnbounded
  | k + 1, s =>
    andThen (preempt s) fun s1 =>
      match s1.inflight.egress with
      | none => .next s1
      | some e =>
        match e.pos with
        | .n2 => andThen (egressN2 e.h s1) (egressRun k)
        | .n3 f => andThen (egressN3 e.h f s1) (egressRun k)
        | .n4 => .next (egressN4 s1)

/-- The micro-steps an `NE.EGRESS` can take after N1: two for each frame held and for each that interrupts will offer, the
last N2, and N4 (R257 item 1). -/
def egressBound (s : State) : Nat := 2 * (s.rx.count s.cfg.nRx + (s.env.irq.map List.length).sum) + 2

/-- `NE.EGRESS` (R150, R152): no-op without a link or with PEND clear; else N1, then N2 and N3 to exhaustion, then N4. -/
def execNeEgress (s : State) : Answer :=
  inBackground s fun s =>
    match s.alSlot with
    | none => .next s
    | some h => if s.pend then egressRun (egressBound s) (egressN1 h s) else .next s

end Sys2Proof.Machine
end

