-- ==== Sys2Proof/Machine/ServerLink.lean ====
section
/-! DEFINITION. The server's connection state machine (spec/45_server_link.md). An event in a state for which no rule
gives a behaviour changes nothing (R190, D18). -/

namespace Sys2Proof.Machine

/-- `SL.SETUP` (R180): bind and listen; a second setup is refused (U11). -/
def execSlSetup (s : State) : Answer :=
  inBackground s fun s =>
    if s.slListening then .refused .secondSetup
    else .next ((s.emit (.listen s.cfg.bindAddr s.cfg.bindPort)).setSlListening true)

/-- `SL.ACCEPT h` (R181): refused without a listener and with a record present (D19). -/
def execSlAccept (h : Handle) (s : State) : Answer :=
  inBackground s fun s =>
    if s.slListening = false then .refused .acceptWithoutListener
    else if s.slRec.isSome then .refused .acceptWithRecord
    else
      .next ((s.setSlRec (some { state := .accepted, handle := h, rxPending := [], txPending := [], retries := 0 })).setLink h)

/-- `sl_finalize` (R182) on the record `r`: clear the slot if it holds the handle, close, drop the record. -/
def slFinalize (r : ServerRec) (s : State) : State :=
  ((s.clearLinkIf r.handle).emit (.close r.handle)).setSlRec none

/-- `SL.RECV bytes` (R183): old bytes first, decode, push, hold the undecoded tail; discarded in `Closing`. -/
def execSlRecv (bytes : List Byte) (s : State) : Answer :=
  inBackground s fun s =>
    match s.slRec with
    | none => .next s
    | some r =>
      if r.state = .closing then .next s
      else
        .next (((ingest (r.rxPending ++ bytes) s).setSlRec
          (some { r with state := .received, rxPending := undecodedTail (r.rxPending ++ bytes) })).emit
            (.recved r.handle (decodeBuffer (r.rxPending ++ bytes)).2))

/-- The state after one successful chunk of `n` bytes: written, removed from the front, the retry counter reset
(R187, R192). -/
def writeChunk (r : ServerRec) (n : Nat) (s : State) : State :=
  (s.emit (.write r.handle (r.txPending.take n))).setSlRec
    (some { r with txPending := r.txPending.drop n, retries := 0 })

/-- The loop of `SL.SEND` (R187). Every pass leaves the loop or removes a byte, so the number of pending bytes bounds
the passes. -/
def sendLoop : Nat → State → State
  | 0, s => s
  | k + 1, s =>
    match s.slRec with
    | none => s
    | some r =>
      if r.txPending = [] then s
      else
        match drawSndCap r.handle s with
        | (c, s1) =>
          if c = 0 then s1
          else
            match drawWriteOk r.handle (r.txPending.take (min c r.txPending.length)) s1 with
            | (ok, s2) => if ok then sendLoop k (writeChunk r (min c r.txPending.length) s2) else s2

/-- The body of `SL.SEND` (R187). -/
def sendPending (s : State) : State :=
  match s.slRec with
  | none => s
  | some r => sendLoop r.txPending.length s

/-- `SL.EOS` (R184): with output pending enter `Closing` and flush, else close at once. -/
def execSlEos (s : State) : Answer :=
  inBackground s fun s =>
    match s.slRec with
    | none => .next s
    | some r =>
      if r.txPending = [] then .next (slFinalize r (s.raise .peerClosed))
      else .next (sendPending ((s.raise .peerClosed).setSlRec (some { r with state := .closing })))

/-- `SL.ERROR` (R185): release the record; clear the slot if it holds the handle. -/
def execSlError (s : State) : Answer :=
  inBackground s fun s =>
    match s.slRec with
    | none => .next s
    | some r => .next (((s.raise .transportError).setSlRec none).clearLinkIf r.handle)

/-- `SL.ENQUEUE bytes` (R186): append, nothing is sent; no bound (U5). -/
def execSlEnqueue (bytes : List Byte) (s : State) : Answer :=
  inBackground s fun s =>
    match s.slRec with
    | none => .next s
    | some r => .next (s.setSlRec (some { r with txPending := r.txPending ++ bytes }))

/-- `SL.SEND` (R187). -/
def execSlSend (s : State) : Answer := inBackground s fun s => .next (sendPending s)

/-- `SL.SENT` (R188): retry what is pending; finalise a close only by the parameter (D23). -/
def execSlSent (s : State) : Answer :=
  inBackground s fun s =>
    match s.slRec with
    | none => .next s
    | some r =>
      if r.txPending ≠ [] then .next (sendPending s)
      else if s.cfg.slCloseOnSent = true ∧ r.state = .closing then .next (slFinalize r s)
      else .next s

/-- `SL.POLL h` (R189): abort without a record of that transport; else send what is pending; else finalise a close. -/
def execSlPoll (h : Handle) (s : State) : Answer :=
  inBackground s fun s =>
    match s.slRec with
    | none => .next (s.emit (.abort h))
    | some r =>
      if r.handle ≠ h then .next (s.emit (.abort h))
      else if r.txPending ≠ [] then .next (sendPending s)
      else if r.state = .closing then .next (slFinalize r s)
      else .next s

end Sys2Proof.Machine
end

