-- ==== Sys2Proof/Machine/Dispatch.lean ====
section
/-! DEFINITION. The dispatch: one arm for each operation of the table (spec/30_encoding.md R90). -/

namespace Sys2Proof.Machine

def exec (i : Instr) (s : State) : Host.Outcome State Fault Refusal :=
  match i with
  | .fqPush q frame => Sys2Proof.Machine.execFqPush q frame s
  | .fqPop q => Sys2Proof.Machine.execFqPop q s
  | .fcEncode frame => Sys2Proof.Machine.execFcEncode frame s
  | .fcDecode buffer => Sys2Proof.Machine.execFcDecode buffer s
  | .biIngress pframe => Sys2Proof.Machine.execBiIngress pframe s
  | .beEgress => Sys2Proof.Machine.execBeEgress s
  | .neEgress => Sys2Proof.Machine.execNeEgress s
  | .clInitiate now => Sys2Proof.Machine.execClInitiate now s
  | .clTick now => Sys2Proof.Machine.execClTick now s
  | .clConnected => Sys2Proof.Machine.execClConnected s
  | .clConnfail => Sys2Proof.Machine.execClConnfail s
  | .clRecv bytes => Sys2Proof.Machine.execClRecv bytes s
  | .clEos => Sys2Proof.Machine.execClEos s
  | .clError => Sys2Proof.Machine.execClError s
  | .clPoll h => Sys2Proof.Machine.execClPoll h s
  | .slSetup => Sys2Proof.Machine.execSlSetup s
  | .slAccept h => Sys2Proof.Machine.execSlAccept h s
  | .slRecv bytes => Sys2Proof.Machine.execSlRecv bytes s
  | .slEos => Sys2Proof.Machine.execSlEos s
  | .slError => Sys2Proof.Machine.execSlError s
  | .slEnqueue bytes => Sys2Proof.Machine.execSlEnqueue bytes s
  | .slSend => Sys2Proof.Machine.execSlSend s
  | .slSent => Sys2Proof.Machine.execSlSent s
  | .slPoll h => Sys2Proof.Machine.execSlPoll h s
  | .alSet h => Sys2Proof.Machine.execAlSet h s
  | .alClearif h => Sys2Proof.Machine.execAlClearif h s
  | .alGet => Sys2Proof.Machine.execAlGet s
  | .wireFrame buf => Sys2Proof.Machine.execWireFrame buf s

end Sys2Proof.Machine
end

