-- ==== Sys2Proof/Decode.lean ====
section
/-! DEFINITION. From bytes to an operation and back. The selector byte is the spec's (spec/30_encoding.md R89, R90),
the wire frame is the spec's (R80 to R87); the byte form of the operands after a selector is the model's own
(R89: "The operands are not packed into bits"; log 2). -/

namespace Sys2Proof

/-- A parser of one operand: it answers the operand and the bytes after it, or says by name what is wrong. -/
abbrev Parse (α : Type) := List Byte → Except DecodeError (α × List Byte)

/-- One parser, then another on the bytes the first left. -/
def parseThen {α β : Type} (p : Parse α) (f : α → Parse β) : Parse β := fun bs =>
  match p bs with
  | .error e => .error e
  | .ok (a, rest) => f a rest

/-- The parser that reads nothing. -/
def parseDone {α : Type} (a : α) : Parse α := fun bs => .ok (a, bs)

/-- One byte. -/
def parseByte : Parse Byte
  | [] => .error .operandTruncated
  | b :: rest => .ok (b, rest)

/-- A value of `w` bits in one byte; a set bit above them is reserved. -/
def parseSmall (w : Nat) : Parse (BitVec w) :=
  parseThen parseByte fun b bs => if b.toNat < 2 ^ w then .ok (BitVec.ofNat w b.toNat, bs) else .error (.operandReserved b)

/-- The queue selector: 0 = `rx`, 1 = `tx` (R91), in one byte. -/
def parseQueue : Parse QSel :=
  parseThen parseByte fun b bs =>
    if b = 0 then .ok (.rx, bs) else if b = 1 then .ok (.tx, bs) else .error (.operandReserved b)

/-- Two one-bit fields in one byte: bit 0 and bit 1; the other bits are reserved. -/
def parseBits2 : Parse (Bool × Bool) :=
  parseThen parseByte fun b bs =>
    if b.toNat < 4 then .ok ((b.getLsbD 0, b.getLsbD 1), bs) else .error (.operandReserved b)

/-- Four bytes, most significant first. -/
def parseWord32 : Parse (BitVec 32) :=
  parseThen parseByte fun b1 => parseThen parseByte fun b2 => parseThen parseByte fun b3 => parseThen parseByte fun b4 =>
    parseDone (Machine.assembleId b1 b2 b3 b4)

/-- A value of `w` bits in four bytes, most significant first; a value that does not fit is reserved. -/
def parseNarrow (w : Nat) : Parse (BitVec w) :=
  parseThen parseWord32 fun v bs =>
    if v.toNat < 2 ^ w then .ok (BitVec.ofNat w v.toNat, bs) else .error (.operandReserved (Machine.idByte v 24))

/-- A byte list of any length: each byte after a marker 1, the end a marker 0. -/
def parseBytes : Parse (List Byte)
  | [] => .error .operandTruncated
  | [m] => if m = 0 then .ok ([], []) else if m = 1 then .error .operandTruncated else .error (.operandReserved m)
  | m :: b :: rest =>
    if m = 0 then .ok ([], b :: rest)
    else if m = 1 then
      match parseBytes rest with
      | .error e => .error e
      | .ok (bs, rest') => .ok (b :: bs, rest')
    else .error (.operandReserved m)

/-- A byte list of at least one byte: the first byte, then the others as a byte list (R165, R183). -/
def parseBytes1 : Parse (List Byte) :=
  parseThen parseByte fun b => parseThen parseBytes fun bs => parseDone (b :: bs)

/-- The number whose base-256 digits, least significant first, are these bytes. -/
def natOfBytes : List Byte → Nat
  | [] => 0
  | b :: bs => b.toNat + 256 * natOfBytes bs

/-- A handle: the base-256 digits of its number, least significant first, as a byte list (log 12). -/
def parseHandle : Parse Handle := parseThen parseBytes fun bs => parseDone ⟨natOfBytes bs⟩

/-- A BusFrame: flags (bit 0 ext, bit 1 rtr), identifier, dlc, data as a byte list. Frames that break the invariant
have a byte form too, so that R120's refusal can be reached. -/
def parseFrame : Parse BusFrame :=
  parseThen parseBits2 fun fl => parseThen parseWord32 fun id => parseThen (parseSmall 4) fun dlc =>
    parseThen parseBytes fun data => parseDone { ext := fl.1, rtr := fl.2, id := id, dlc := dlc, data := data }

/-- The eight data bytes of a peripheral frame. -/
def parseOctets : Parse Octets :=
  parseThen parseByte fun b0 => parseThen parseByte fun b1 => parseThen parseByte fun b2 => parseThen parseByte fun b3 =>
  parseThen parseByte fun b4 => parseThen parseByte fun b5 => parseThen parseByte fun b6 => parseThen parseByte fun b7 =>
    parseDone ⟨b0, b1, b2, b3, b4, b5, b6, b7⟩

/-- A PFrame: flags (bit 0 ide, bit 1 rtr), std_id, ext_id, dlc, eight data bytes (R47). -/
def parsePFrame : Parse PFrame :=
  parseThen parseBits2 fun fl => parseThen (parseNarrow 11) fun sid => parseThen (parseNarrow 29) fun eid =>
    parseThen (parseSmall 4) fun dlc => parseThen parseOctets fun data =>
      parseDone { ide := fl.1, rtr := fl.2, stdId := sid, extId := eid, dlc := dlc, data := data }

/-- The operation a selector names, with its operands (R90); every selector not in the table is refused by name. -/
def parseOperation (sel : Byte) : Parse Instr :=
  match sel.toNat with
  | 0x10 => parseThen parseQueue fun q => parseThen parseFrame fun f => parseDone (.fqPush q f)
  | 0x11 => parseThen parseQueue fun q => parseDone (.fqPop q)
  | 0x20 => parseThen parseFrame fun f => parseDone (.fcEncode f)
  | 0x21 => parseThen parseBytes fun bs => parseDone (.fcDecode bs)
  | 0x30 => parseThen parsePFrame fun p => parseDone (.biIngress p)
  | 0x31 => parseDone .beEgress
  | 0x40 => parseDone .neEgress
  | 0x50 => parseThen parseWord32 fun t => parseDone (.clInitiate t)
  | 0x51 => parseThen parseWord32 fun t => parseDone (.clTick t)
  | 0x52 => parseDone .clConnected
  | 0x53 => parseDone .clConnfail
  | 0x54 => parseThen parseBytes1 fun bs => parseDone (.clRecv bs)
  | 0x55 => parseDone .clEos
  | 0x56 => parseDone .clError
  | 0x57 => parseThen parseHandle fun h => parseDone (.clPoll h)
  | 0x60 => parseDone .slSetup
  | 0x61 => parseThen parseHandle fun h => parseDone (.slAccept h)
  | 0x62 => parseThen parseBytes1 fun bs => parseDone (.slRecv bs)
  | 0x63 => parseDone .slEos
  | 0x64 => parseDone .slError
  | 0x65 => parseThen parseBytes fun bs => parseDone (.slEnqueue bs)
  | 0x66 => parseDone .slSend
  | 0x67 => parseDone .slSent
  | 0x68 => parseThen parseHandle fun h => parseDone (.slPoll h)
  | 0x70 => parseThen parseHandle fun h => parseDone (.alSet h)
  | 0x71 => parseThen parseHandle fun h => parseDone (.alClearif h)
  | 0x72 => parseDone .alGet
  | _ => fun _ => .error (.unassignedSelector sel)

/-- Format OP8: one selector byte `unit[3:0] op[3:0]`, then the operands (R89). -/
def decodeOp8 : Parse Instr
  | [] => .error .operandTruncated
  | sel :: rest => parseOperation sel rest

/-- The wire format: one candidate frame, `6 + min(byte5, 8)` bytes when it is whole (R86), else all the bytes there
are: every byte sequence is legal (R87). -/
def decodeWire : Parse Instr := fun bs =>
  match Machine.decodeOne bs 0 with
  | none => .ok (.wireFrame bs, [])
  | some (_, n) => .ok (.wireFrame (bs.take n), bs.drop n)

/-- The decoder: total on any bytes. -/
def decode : Format → Parse Instr
  | .op8 => decodeOp8
  | .wire => decodeWire

/-! ## The encoder -/

/-- The byte of a queue selector (R91). -/
def encodeQueue : QSel → List Byte
  | .rx => [0]
  | .tx => [1]

/-- A 32-bit value, most significant byte first. -/
def encodeWord32 (v : BitVec 32) : List Byte :=
  [Machine.idByte v 24, Machine.idByte v 16, Machine.idByte v 8, Machine.idByte v 0]

/-- A byte list with its markers. -/
def encodeBytes : List Byte → List Byte
  | [] => [0]
  | b :: bs => 1 :: b :: encodeBytes bs

/-- A byte list of at least one byte. The empty list has no form; it is given the form of `[0]`, see
`Instr.encodable`. -/
def encodeBytes1 : List Byte → List Byte
  | [] => 0 :: encodeBytes []
  | b :: bs => b :: encodeBytes bs

/-- The base-256 digits of `n`, least significant first; the first argument bounds their number. -/
def bytesOfNat : Nat → Nat → List Byte
  | 0, _ => []
  | k + 1, n => if n = 0 then [] else BitVec.ofNat 8 n :: bytesOfNat k (n / 256)

/-- A handle. -/
def encodeHandle (h : Handle) : List Byte := encodeBytes (bytesOfNat h.id h.id)

/-- A BusFrame operand. -/
def encodeFrameOperand (f : BusFrame) : List Byte :=
  [Machine.flagsByte f.ext f.rtr] ++ encodeWord32 f.id ++ [f.dlc.setWidth 8] ++ encodeBytes f.data

/-- A PFrame operand. -/
def encodePFrame (p : PFrame) : List Byte :=
  [Machine.flagsByte p.ide p.rtr] ++ encodeWord32 (p.stdId.setWidth 32) ++ encodeWord32 (p.extId.setWidth 32)
    ++ [p.dlc.setWidth 8] ++ p.data.toList

/-- The format an operation is written in. -/
def Instr.format : Instr → Format
  | .wireFrame _ => .wire
  | _ => .op8

/-- The encoder: the bytes of an operation, from the same table (R90). -/
def encode : Instr → List Byte
  | .fqPush q f => 0x10 :: (encodeQueue q ++ encodeFrameOperand f)
  | .fqPop q => 0x11 :: encodeQueue q
  | .fcEncode f => 0x20 :: encodeFrameOperand f
  | .fcDecode bs => 0x21 :: encodeBytes bs
  | .biIngress p => 0x30 :: encodePFrame p
  | .beEgress => [0x31]
  | .neEgress => [0x40]
  | .clInitiate t => 0x50 :: encodeWord32 t
  | .clTick t => 0x51 :: encodeWord32 t
  | .clConnected => [0x52]
  | .clConnfail => [0x53]
  | .clRecv bs => 0x54 :: encodeBytes1 bs
  | .clEos => [0x55]
  | .clError => [0x56]
  | .clPoll h => 0x57 :: encodeHandle h
  | .slSetup => [0x60]
  | .slAccept h => 0x61 :: encodeHandle h
  | .slRecv bs => 0x62 :: encodeBytes1 bs
  | .slEos => [0x63]
  | .slError => [0x64]
  | .slEnqueue bs => 0x65 :: encodeBytes bs
  | .slSend => [0x66]
  | .slSent => [0x67]
  | .slPoll h => 0x68 :: encodeHandle h
  | .alSet h => 0x70 :: encodeHandle h
  | .alClearif h => 0x71 :: encodeHandle h
  | .alGet => [0x72]
  | .wireFrame buf => buf

/-! ## Table words -/

/-- How many zero bytes stand above a table word: more than the longest operand form with zero operands takes. -/
def tablePadding : Nat := 32

/-- The `n` lowest bytes of `w`, lowest first. -/
def bytesOfWord : Nat → Nat → List Byte
  | 0, _ => []
  | n + 1, w => BitVec.ofNat 8 w :: bytesOfWord n (w / 256)

/-- The bytes of an instruction whose bits are `w`: the bytes the table gives it, the first lowest, then zeros. -/
def tableBytes (nbits w : Nat) : List Byte :=
  bytesOfWord (nbits / 8) w ++ List.replicate tablePadding 0

/-- The format of a table row by its width: the OP8 selector has 8 bits, the wire frame's header 48. -/
def tableFormat (nbits : Nat) : Format := if nbits = 48 then .wire else .op8

/-- The operation the decoder reads from an instruction whose bits are `w`. -/
def decodeTableWord (nbits w : Nat) : Option Instr :=
  match decode (tableFormat nbits) (tableBytes nbits w) with
  | .ok (i, _) => some i
  | .error _ => none

end Sys2Proof
end

