-- ==== Sys2Proof/Machine/Port.lean ====
section
/-! DEFINITION. The invocation port: how an operation that an outside agent has lined up is fetched, and how a context
is entered and left (spec/00_scope.md R9; spec/10_state.md R42 to R45; spec/60_exceptions.md R216, R219, R220; log 1). -/

namespace Sys2Proof.Machine

/-- The next invocation and the state without it. -/
def fetchInvocation (s : State) : Option (Invocation × State) :=
  match s.inbox with
  | [] => none
  | inv :: rest => some (inv, s.setInbox rest)

/-- The operation an invocation names. Bytes after the operation's own are ignored (log 24). -/
def decodeInvocation (inv : Invocation) : Except DecodeError Instr :=
  match decode inv.format inv.bytes with
  | .error e => .error e
  | .ok (i, _) => .ok i

/-- The context of the invoker is entered; nothing is saved or changed (R216, R219). -/
def enterContext (a : Agent) (s : State) : State := s.setAgent a

/-- The context is left when the operation ends: background context again (R216, R241). -/
def leaveContext (s : State) : State := s.setAgent .background

/-- The agent a table word's operation is invoked by, when the discipline is kept (R25, R45). -/
def agentOfTableWord (nbits w : Nat) : Agent :=
  match decodeTableWord nbits w with
  | some i => agentOf i
  | none => .background

/-- The invocation that asks for the operation whose bits are `w`. -/
def tableInvocation (nbits w : Nat) : Invocation where
  agent := agentOfTableWord nbits w
  format := tableFormat nbits
  bytes := tableBytes nbits w

end Sys2Proof.Machine
end

