-- ==== Sys2Proof/Machine/Step.lean ====
section
/-! DEFINITION. One step of the machine: the next lined-up invocation runs as one operation (spec/00_scope.md R9). With
nothing lined up the block waits (log 22). -/

namespace Sys2Proof.Machine

/-- One step: `next`, `fault` or `refused`. -/
def step (s : State) : Host.Outcome State Fault Refusal :=
  match fetchInvocation s with
  | none => .next s
  | some (inv, s') =>
    match decodeInvocation inv with
    | .error e => .refused (.undecodable e)
    | .ok i => andThen (exec i (enterContext inv.agent s')) fun t => .next (leaveContext t)

/-- `s` with the operation whose bits are `w` as its next invocation, by the agent it belongs to. -/
def State.withFetchWord (s : State) (nbits w : Nat) : State :=
  s.setInbox (tableInvocation nbits w :: s.inbox.drop 1)

end Sys2Proof.Machine
end

