-- ==== Sys2Proof/Safety.lean ====
section
/-! DEFINITION. What claims are stated in: the invariants of the state, the premises the spec names (HANDLE_FRESH,
ALLOC_OK, a legal interrupt script), what a run shows on the outside, and runs of several operations. -/

namespace Sys2Proof.Machine

/-! ## Conditions on the state -/

/-- An operation of background context may start: the invoker runs in background context and nothing is in flight
(R216, R218 item 4). -/
def State.ready (s : State) : Bool := decide (s.agent.context = .background) && decide (s.inflight = {})

/-- What every operation keeps of the client's record: the retained tail is an incomplete candidate (R165 corner case
4), it is empty while connecting and when `CL_RETAIN_TAIL` is false (R30). -/
def clientOk (c : Config) : Option ClientRec → Bool
  | none => true
  | some r =>
    (decodeOne r.rxTail 0).isNone && (r.rxTail == [] || (c.clRetainTail && decide (r.state ≠ .connecting)))

/-- What every operation keeps of the server's record: the pending input is an incomplete candidate (R183 corner case
1), empty in `Accepted`; the retry counter is 0 (R192); a record exists only with a listener (R181). -/
def serverOk (listening : Bool) : Option ServerRec → Bool
  | none => true
  | some r =>
    listening && (decodeOne r.rxPending 0).isNone && (r.rxPending == [] || decide (r.state ≠ .accepted)) && r.retries == 0

/-- The invariant of the machine between operations: a legal configuration (R8), both queues with `N` slots of frames
that keep the frame invariant and indices in range (R21, R23), nothing in flight (R218), and the two records. -/
def State.inv (s : State) : Bool :=
  decide s.cfg.legal && s.rx.wf s.cfg.nRx && s.tx.wf s.cfg.nTx && decide (s.inflight = {}) && clientOk s.cfg s.clRec
    && serverOk s.slListening s.slRec

/-- Is `h` the handle of the client's record, and that record `Connected`? -/
def State.clientHolds (s : State) (h : Handle) : Bool :=
  match s.clRec with
  | none => false
  | some r => decide (r.handle = h) && decide (r.state = .connected)

/-- Is `h` the handle of the server's record? -/
def State.serverHolds (s : State) (h : Handle) : Bool :=
  match s.slRec with
  | none => false
  | some r => decide (r.handle = h)

/-- The slot invariant (R33). -/
def State.slotInv (s : State) : Bool :=
  match s.alSlot with
  | none => true
  | some h => s.clientHolds h || s.serverHolds h

/-- The handles of the existing records, and the slot's: what a handle that enters the block must differ from (R38). -/
def State.liveHandles (s : State) : List Handle :=
  (s.clRec.map ClientRec.handle).toList ++ (s.slRec.map ServerRec.handle).toList ++ s.alSlot.toList

/-- Premise `HANDLE_FRESH` for one handle (R38). -/
def State.freshHandle (s : State) (h : Handle) : Bool := decide (h ∉ s.liveHandles)

/-- The two records never own one transport; with HANDLE_FRESH every operation keeps it (R38). -/
def State.handlesDistinct (s : State) : Bool :=
  match s.clRec, s.slRec with
  | some c, some v => decide (c.handle ≠ v.handle)
  | _, _ => true

/-- No record that is still connecting has its handle in the slot (R33's justification, R161 corner note). -/
def State.connectingNotLinked (s : State) : Bool :=
  match s.clRec with
  | none => true
  | some r => decide (r.state ≠ .connecting) || decide (s.alSlot ≠ some r.handle)

/-- Premise `HANDLE_FRESH` where an attempt may start: only without a record is a handle drawn (R160). -/
def State.freshForInitiate (s : State) : Bool := s.clRec.isSome || (drawAlloc s).1.all s.freshHandle

/-- Premise `HANDLE_FRESH` where a tick may start an attempt: the moment is the one after the tick's time-out, and only
with the backoff over is a handle drawn (R161). -/
def State.freshForReconnect (now : Time) (s : State) : Bool := !backoffOver now s || s.freshForInitiate

/-- Premise `HANDLE_FRESH` for an operation: the handle that enters the block, if one enters, differs at that moment from
the handle of every record and from the slot's (R38). -/
def State.freshFor (s : State) : Instr → Bool
  | .clInitiate _ => s.freshForInitiate
  | .clTick now => (tickTimeout now s).freshForReconnect now
  | .slAccept h => s.freshHandle h
  | _ => true

/-- Premise `ALLOC_OK`: the next answer of `env.alloc()` is a handle (R38). -/
def State.allocOk (s : State) : Bool := (drawAlloc s).1.isSome

/-- Every interrupt the environment has placed brings a frame BusIngress has a meaning for (R140). -/
def State.irqLegal (s : State) : Bool := s.env.irq.all fun ps => ps.all PFrame.legal

/-! ## What the outside sees -/

/-- The bytes written to transport `h`, in order, by a command list (R154, R191). -/
def writtenTo (h : Handle) : List Command → List Byte
  | [] => []
  | .write g bs :: cs => (if g = h then bs else []) ++ writtenTo h cs
  | .connect _ _ _ :: cs => writtenTo h cs
  | .listen _ _ :: cs => writtenTo h cs
  | .flush _ :: cs => writtenTo h cs
  | .recved _ _ :: cs => writtenTo h cs
  | .close _ :: cs => writtenTo h cs
  | .abort _ :: cs => writtenTo h cs
  | .submit _ :: cs => writtenTo h cs

/-- Did the last operation start a connection (R171 item 2)? -/
def State.connects (s : State) : Bool :=
  s.out.cmds.any fun c =>
    match c with
    | .connect _ _ _ => true
    | _ => false

/-! ## Runs of several operations -/

/-- One operation by the agent it belongs to. -/
def execAs (i : Instr) (s : State) : Answer := exec i (s.setAgent (agentOf i))

/-- A sequence of operations, each by its own agent, one after another (R218 item 4). -/
def runOps : List Instr → State → Answer
  | [], s => .next s
  | i :: is, s => andThen (execAs i s) (runOps is)

/-- A use of one queue instance. -/
inductive QueueOp
  | push (f : BusFrame)
  | pop
deriving DecidableEq, Repr

/-- The operation a use of queue `q` stands for. -/
def QueueOp.instr (q : QSel) : QueueOp → Instr
  | .push f => .fqPush q f
  | .pop => .fqPop q

/-- The frame a use has put into the queue, read off its result. -/
def acceptedBy : QueueOp → Result → List BusFrame
  | .push f, .bool true => [f]
  | _, _ => []

/-- The frame a use has taken out of the queue, read off its result. -/
def poppedBy : QueueOp → Result → List BusFrame
  | .pop, .frame (some f) => [f]
  | _, _ => []

/-- A run of uses of queue `q`: the frames accepted, the frames popped, the last state (R109). -/
def queueRun (q : QSel) : List QueueOp → State → Option (List BusFrame × List BusFrame × State)
  | [], s => some ([], [], s)
  | o :: os, s =>
    match execAs (o.instr q) s with
    | .next t =>
      match queueRun q os t with
      | some (acc, pop, u) => some (acceptedBy o t.out.result ++ acc, poppedBy o t.out.result ++ pop, u)
      | none => none
    | .fault _ => none
    | .refused _ => none

/-- A stretch of operations in which nobody invokes `CL.INITIATE` directly and no connection is started (R171 item 2). -/
inductive QuietRun : State → State → Prop
  | done (s : State) : QuietRun s s
  | op (s t u : State) (i : Instr) : (∀ now, i ≠ .clInitiate now) → execAs i s = .next t → t.connects = false →
      QuietRun t u → QuietRun s u

/-! ## The loops of the rules as relations, without any bound on the passes -/

/-- The loop of `FC.DECODE` from offset `off`: the frames in stream order and the offset at which it ends (R124). -/
inductive Scan (buf : List Byte) : Nat → List BusFrame → Nat → Prop
  | stop (off : Nat) : decodeOne buf off = none → Scan buf off [] off
  | more (off n c : Nat) (f : BusFrame) (fs : List BusFrame) : decodeOne buf off = some (f, n) →
      Scan buf (off + n) fs c → Scan buf off (f :: fs) c

/-- The loop of `SL.SEND` (R187), from one state to the state in which it ends. -/
inductive Sends : State → State → Prop
  | empty (s : State) (r : ServerRec) : s.slRec = some r → r.txPending = [] → Sends s s
  | noRoom (s s1 : State) (r : ServerRec) : s.slRec = some r → r.txPending ≠ [] → drawSndCap r.handle s = (0, s1) →
      Sends s s1
  | failed (s s1 s2 : State) (r : ServerRec) (c : Nat) : s.slRec = some r → r.txPending ≠ [] →
      drawSndCap r.handle s = (c, s1) → c ≠ 0 →
      drawWriteOk r.handle (r.txPending.take (min c r.txPending.length)) s1 = (false, s2) → Sends s s2
  | chunk (s s1 s2 t : State) (r : ServerRec) (c : Nat) : s.slRec = some r → r.txPending ≠ [] →
      drawSndCap r.handle s = (c, s1) → c ≠ 0 →
      drawWriteOk r.handle (r.txPending.take (min c r.txPending.length)) s1 = (true, s2) →
      Sends
        { s2 with
          slRec := some { r with txPending := r.txPending.drop (min c r.txPending.length), retries := 0 }
          out := { s2.out with
            cmds := s2.out.cmds ++ [.write r.handle (r.txPending.take (min c r.txPending.length))] } } t →
      Sends s t

/-- Bytes cut by a list of capacities, one chunk for each: the chunks and the rest. -/
def cutChunks : List Nat → List Byte → List (List Byte) × List Byte
  | [], bs => ([], bs)
  | c :: cs, bs => (bs.take c :: (cutChunks cs (bs.drop c)).1, (cutChunks cs (bs.drop c)).2)

/-- `c` is the `j`-th capacity a send from `s` draws for `h`, with `k` free values used up at its end: the script's entry,
and after the script a free value (R48, log 4). -/
def IsCapacity (s : State) (h : Handle) (k j c : Nat) : Prop :=
  (j < s.env.sndCap.length → s.env.sndCap[j]? = some c) ∧
  (s.env.sndCap.length ≤ j → ∃ n, s.env.count ≤ n ∧ n < k ∧ c = Config.freeSndCap n h)

/-- What a flow-controlled send leaves, seen from the outside (R191): the pending bytes of the record `r` of `s` are cut
by the capacities drawn, the chunks are written in order and the rest is kept; no chunk is empty, none is longer than
the capacity drawn for it, and at most one capacity is drawn without a chunk; the retry counter is reset by a successful
chunk; nothing else changes but the answers used. -/
def SendOutcome (s : State) (r : ServerRec) (t : State) : Prop :=
  ∃ (used : List Nat) (chunks : List (List Byte)) (rest : List Byte) (drawn : List Nat) (oks : List Bool) (k : Nat),
    t = { s with
      slRec := some { r with txPending := rest, retries := if used = [] then r.retries else 0 }
      env := { s.env with sndCap := s.env.sndCap.drop drawn.length, writeOk := oks, count := k }
      out := { s.out with cmds := s.out.cmds ++ chunks.map fun c => .write r.handle c } } ∧
    cutChunks used r.txPending = (chunks, rest) ∧ chunks.flatten ++ rest = r.txPending ∧ (∀ c ∈ chunks, c ≠ []) ∧
    used <+: drawn ∧ drawn.length ≤ used.length + 1 ∧ (∀ j c, drawn[j]? = some c → IsCapacity s r.handle k j c) ∧
    oks <:+ s.env.writeOk

/-- The bytes an operation appends to the pending output (R186). -/
def enqueuedBy : Instr → List Byte
  | .slEnqueue bytes => bytes
  | _ => []

/-- The bytes that the flow-controlled send has written to `h` in an operation that left `t`. `NE.EGRESS` writes past it
(R153). -/
def sentBy (h : Handle) (i : Instr) (t : State) : List Byte := if i = .neEgress then [] else writtenTo h t.out.cmds

/-- A run in which the server's record is not destroyed, with the bytes `enq` appended and the bytes `sent` written to
`h` by the flow-controlled send in it (R191). -/
inductive ServerRun (h : Handle) : State → List Byte → List Byte → State → Prop
  | done (s : State) : ServerRun h s [] [] s
  | op (s t u : State) (i : Instr) (enq sent : List Byte) : execAs i s = .next t → t.slRec ≠ none →
      ServerRun h t enq sent u → ServerRun h s (enqueuedBy i ++ enq) (sentBy h i t ++ sent) u

/-! ## Reassembly -/

/-- A receiver that keeps the undecoded tail and puts it in front of the next chunk: the frames decoded and the last
tail (R130). -/
def decodeChunks : List Byte → List (List Byte) → List BusFrame × List Byte
  | tail, [] => ([], tail)
  | tail, c :: cs =>
    ((decodeBuffer (tail ++ c)).1 ++ (decodeChunks (undecodedTail (tail ++ c)) cs).1,
      (decodeChunks (undecodedTail (tail ++ c)) cs).2)

end Sys2Proof.Machine
end

