-- ==== Sys2Proof/Certificates/Slice0/Obligations.lean ====
section
/-! DEFINITION. The statements for the provers. Each docstring names the rule of spec/ it formalises. An equation
`exec i s = .next t` with `t` written as an update of `s` says the whole effect and the frame at once: every field that
is not named is unchanged. The notes in `out.errors` and `out.incomplete` are the ghost record that R211 lets a model
keep (log 6). -/

open Sys2Proof Sys2Proof.Machine

/-! ## Encoding and the step -/

/-- Decode and encode agree for every operation that has a byte form, with every operand at every value (R90, log 2). -/
def Obligations.DecodeAfterEncodeIsIdentity : Prop :=
  ∀ i : Instr, i.encodable = true → decode i.format (encode i) = .ok (i, [])

/-- The selectors of R90 written out, one for each unit, and X1's wire frame (R81). -/
def Obligations.SelectorWordsDecodeToTheirOperations : Prop :=
  decodeTableWord 8 0x11 = some (.fqPop .rx) ∧ decodeTableWord 8 0x21 = some (.fcDecode []) ∧
  decodeTableWord 8 0x31 = some .beEgress ∧ decodeTableWord 8 0x40 = some .neEgress ∧
  decodeTableWord 8 0x51 = some (.clTick 0) ∧ decodeTableWord 8 0x67 = some .slSent ∧
  decodeTableWord 8 0x72 = some .alGet ∧
  decode .op8 [0x50, 0x00, 0x00, 0x03, 0xE8] = .ok (.clInitiate 1000, []) ∧
  decode .wire [0x00, 0x00, 0x00, 0x00, 0x7B, 0x02, 0xAA, 0xBB] =
    .ok (.wireFrame [0x00, 0x00, 0x00, 0x00, 0x7B, 0x02, 0xAA, 0xBB], [])

/-- R90, U18: a selector that no row of the table has is refused, whatever follows it; nothing runs. -/
def Obligations.UnassignedSelectorIsRefused : Prop :=
  ∀ (s : State) (a : Agent) (sel : Byte) (operands : List Byte) (later : List Invocation),
    sel.toNat ∉ [0x10, 0x11, 0x20, 0x21, 0x30, 0x31, 0x40, 0x50, 0x51, 0x52, 0x53, 0x54, 0x55, 0x56, 0x57, 0x60, 0x61,
      0x62, 0x63, 0x64, 0x65, 0x66, 0x67, 0x68, 0x70, 0x71, 0x72] →
    s.inbox = { agent := a, format := .op8, bytes := sel :: operands } :: later →
    step s = .refused (.undecodable (.unassignedSelector sel))

/-- A step runs the decoded operation in the invoker's context and then leaves that context (R9, R216; the invocation
port is the model's, log 1); with nothing lined up it waits (log 22). -/
def Obligations.StepRunsTheDecodedOperation : Prop :=
  (∀ (s : State) (inv : Invocation) (later : List Invocation) (i : Instr) (extra : List Byte),
    s.inbox = inv :: later → decode inv.format inv.bytes = .ok (i, extra) → i.wf = true →
    step s =
      match exec i { s with inbox := later, agent := inv.agent } with
      | .next t => .next { t with agent := .background }
      | .fault r => .fault r
      | .refused r => .refused r) ∧
  ∀ s : State, s.inbox = [] → step s = .next s

/-! ## FrameQueue -/

/-- R100: "returns false and leaves the queue unchanged if full (drop-newest policy); otherwise inserts at head and
advances head", for both queues; a push on FQ(rx) may pre-empt a pop or an `NE.EGRESS`. -/
def Obligations.PushInsertsAtHeadUnlessFull : Prop :=
  ∀ (q : QSel) (f : BusFrame) (s : State),
    f.inv = true → s.agent = producerOf q → s.inflight.push = {} → (q = .tx → s.inflight = {}) →
    exec (.fqPush q f) s = .next
      (if ((s.queue q).head + 1) % s.cap q = (s.queue q).tail then
        { s with out := { result := .bool false, errors := [.queueFull q] } }
      else
        { s.setQueue q
            { slot := (s.queue q).slot.set (s.queue q).head f
              head := ((s.queue q).head + 1) % s.cap q
              tail := (s.queue q).tail } with
          out := { result := .bool true } })

/-- R101: "returns empty if empty, otherwise removes from tail and advances tail", for both queues; for FQ(rx) with no
interrupt in between (R106 is the statement with interrupts). -/
def Obligations.PopTakesFromTailUnlessEmpty : Prop :=
  ∀ (q : QSel) (s : State), s.agent = consumerOf q → s.inflight = {} → (q = .rx → s.env.irq = []) →
    exec (.fqPop q) s = .next
      (if (s.queue q).head = (s.queue q).tail then { s with out := { result := .frame none } }
      else
        { s.setQueue q
            { slot := (s.queue q).slot
              head := (s.queue q).head
              tail := ((s.queue q).tail + 1) % s.cap q } with
          out := { result := .frame (some ((s.queue q).slot.getD (s.queue q).tail {})) } })

/-- R110: when `count(Q) = N−1` a push returns `false` and `head`, `tail` and every slot are as before; when
`count(Q) < N−1` it returns `true` and `count(Q)` grows by one. -/
def Obligations.PushFailsExactlyAtFullCount : Prop :=
  ∀ (q : QSel) (f : BusFrame) (s : State),
    f.inv = true → s.agent = producerOf q → s.inflight = {} → (s.queue q).wf (s.cap q) = true →
    ∃ t, exec (.fqPush q f) s = .next t ∧
      ((s.queue q).count (s.cap q) + 1 = s.cap q → t.out.result = .bool false ∧ t.queue q = s.queue q) ∧
      ((s.queue q).count (s.cap q) + 1 < s.cap q → t.out.result = .bool true ∧
        (t.queue q).count (s.cap q) = (s.queue q).count (s.cap q) + 1)

/-- R111 with R24: a successful push appends its frame to `contents(Q)`, a successful pop removes the oldest frame, a
failed operation leaves it; `count(Q)` is always in `0 .. N−1`. -/
def Obligations.PushAppendsAndPopRemovesOldest : Prop :=
  ∀ (q : QSel) (s : State), s.inflight = {} → (q = .rx → s.env.irq = []) → (s.queue q).wf (s.cap q) = true →
    (s.queue q).count (s.cap q) < s.cap q ∧
    (∀ f : BusFrame, f.inv = true → ∃ t b, execAs (.fqPush q f) s = .next t ∧ t.out.result = .bool b ∧
      (t.queue q).contents (s.cap q) = (s.queue q).contents (s.cap q) ++ (if b then [f] else [])) ∧
    ∃ t, execAs (.fqPop q) s = .next t ∧
      t.out.result = .frame ((s.queue q).contents (s.cap q)).head? ∧
      (t.queue q).contents (s.cap q) = ((s.queue q).contents (s.cap q)).tail

/-- R109: over any sequence of pushes and pops on one instance that starts empty, the popped frames followed by what is
left are the accepted frames in order; a frame whose push returned `false` never appears. -/
def Obligations.QueueIsFirstInFirstOut : Prop :=
  ∀ (q : QSel) (ops : List QueueOp) (s : State),
    s.inv = true → (s.queue q).contents (s.cap q) = [] → s.env.irq = [] →
    (∀ f, QueueOp.push f ∈ ops → f.inv = true) →
    ∃ accepted popped t, queueRun q ops s = some (accepted, popped, t) ∧
      accepted = popped ++ (t.queue q).contents (s.cap q)

/-- R106: a pop from FQ(rx) that interrupts cut at its three boundaries C1|C2, C2|C3 and C3|C4 does what the same
operations do one after another: a successful pop takes effect at C4, after every interrupt; a failed pop takes effect
at the read of `head` in C1, before the interrupt that follows it. The interrupts are those of the model's script
(log 8), of any length; which boundaries there are is read from R105 and R107 (log 9). -/
def Obligations.InterruptedPopLinearises : Prop :=
  ∀ s : State, s.inv = true → s.agent = .networkEgress → s.irqLegal = true →
    if s.rx.head = s.rx.tail then
      ∃ t, takeInterrupts (s.env.irq.take 1).flatten { s with env := { s.env with irq := s.env.irq.drop 1 }, out := {} } =
          .next t ∧
        exec (.fqPop .rx) s = .next { t with out := { t.out with result := .frame none } }
    else
      ∃ t, takeInterrupts (s.env.irq.take 3).flatten { s with env := { s.env with irq := s.env.irq.drop 3 }, out := {} } =
          .next t ∧
        exec (.fqPop .rx) s = .next
          { t with
            rx := { t.rx with tail := (t.rx.tail + 1) % t.cfg.nRx }
            out := { t.out with result := .frame (some (t.rx.slot.getD t.rx.tail {})) } }

/-- R108, R217, U1: the producer and consumer discipline. Only the producer pushes, only the consumer pops; in
interrupt context nothing runs but `BI.INGRESS` and its push, and `BI.INGRESS` runs nowhere else. -/
def Obligations.DisciplineBreachesAreRefused : Prop :=
  (∀ (q : QSel) (f : BusFrame) (s : State), s.agent ≠ producerOf q → exec (.fqPush q f) s = .refused .notProducer) ∧
  (∀ (q : QSel) (s : State), s.agent ≠ consumerOf q → exec (.fqPop q) s = .refused .notConsumer) ∧
  (∀ (p : PFrame) (s : State), s.agent ≠ .busIngress → exec (.biIngress p) s = .refused .contextBreach) ∧
  ∀ (i : Instr) (s : State), s.agent = .busIngress → (∀ p, i ≠ .biIngress p) → (∀ q f, i ≠ .fqPush q f) →
    (∀ q, i ≠ .fqPop q) → exec i s = .refused .contextBreach

/-- R108, R218 items 3 and 4: operations of background context never overlap, and a push is never re-entered. That an
operation invoked all the same is refused, whatever the two are, is the model's inference (log 23): R108 says it of two
pushes and two pops on one queue only. -/
def Obligations.OverlappingOperationsAreRefused : Prop :=
  (∀ (i : Instr) (s : State), s.agent = agentOf i → (agentOf i).context = .background → s.inflight.busy = true →
    exec i s = .refused .overlap) ∧
  ∀ (i : Instr) (s : State), s.agent = agentOf i → (agentOf i).context = .interrupt → s.inflight.push.busy = true →
    exec i s = .refused .overlap

/-! ## FrameCodec -/

/-- R120: the bytes of the encoder in arithmetic: flags, four identifier bytes most significant first, dlc, payload;
the identifier range is not checked, no state is written. The flags bits 7:2 are 0 by the spec's decision D7, and a
frame that breaks the invariant is refused by D8. -/
def Obligations.EncodeEmitsHeaderThenPayload : Prop :=
  (∀ (f : BusFrame) (s : State) (bytes : List Byte), s.ready = true → f.inv = true →
    bytes =
      [BitVec.ofNat 8 (2 * f.rtr.toNat + f.ext.toNat), BitVec.ofNat 8 (f.id.toNat / 2 ^ 24),
        BitVec.ofNat 8 (f.id.toNat / 2 ^ 16), BitVec.ofNat 8 (f.id.toNat / 2 ^ 8), BitVec.ofNat 8 f.id.toNat,
        BitVec.ofNat 8 f.dlc.toNat] ++ f.data →
    exec (.fcEncode f) s = .next { s with out := { result := .bytes bytes } }) ∧
  ∀ (f : BusFrame) (s : State), s.ready = true → f.inv = false → exec (.fcEncode f) s = .refused .frameInvariant

/-- R121: `len(FC.ENCODE f) = 6 + f.dlc`, in 6..14, and two different frames have different encodings. -/
def Obligations.EncodingIsInjective : Prop :=
  (∀ f : BusFrame, f.inv = true →
    (encodeFrame f).length = 6 + f.dlc.toNat ∧ 6 ≤ (encodeFrame f).length ∧ (encodeFrame f).length ≤ 14) ∧
  ∀ f g : BusFrame, f.inv = true → g.inv = true → encodeFrame f = encodeFrame g → f = g

/-- R124: `FC.DECODE` answers what the rule's loop gives from offset 0, and changes nothing but the
model's note of E2 (log 6), of which nothing is said here. -/
def Obligations.DecodeRunsTheScan : Prop :=
  ∀ (buf : List Byte) (s : State), s.ready = true →
    ∃ frames consumed note, Scan buf 0 frames consumed ∧ consumed ≤ buf.length ∧
      exec (.fcDecode buf) s = .next
        { s with out := { result := .decoded frames consumed, incomplete := note } }

/-- R122, R83, R84: the wire-frame row reads one candidate at the start of the bytes. That the row is an instruction is
the model's choice (log 15), and so is the note of E2 (log 28). -/
def Obligations.WireFrameReadsOneCandidate : Prop :=
  ∀ (buf : List Byte) (s : State), s.ready = true →
    (buf.length < 6 + min (buf.getD 5 0).toNat 8 → exec (.wireFrame buf) s = .next
      { s with out := { result := .candidate none, incomplete := true } }) ∧
    (6 + min (buf.getD 5 0).toNat 8 ≤ buf.length → ∃ f : BusFrame,
      exec (.wireFrame buf) s = .next
        { s with out := { result := .candidate (some (f, 6 + min (buf.getD 5 0).toNat 8)) } } ∧
      f.ext = decide ((buf.getD 0 0).toNat % 2 = 1) ∧ f.rtr = decide ((buf.getD 0 0).toNat / 2 % 2 = 1) ∧
      f.id.toNat = (buf.getD 1 0).toNat * 2 ^ 24 + (buf.getD 2 0).toNat * 2 ^ 16 + (buf.getD 3 0).toNat * 2 ^ 8
        + (buf.getD 4 0).toNat ∧
      f.dlc.toNat = min (buf.getD 5 0).toNat 8 ∧ f.data = (buf.drop 6).take (min (buf.getD 5 0).toNat 8))

/-- R125: "`decode` on fewer than 6 bytes consumes 0 bytes, yields no frames; on a valid 6-byte header but payload
shorter than declared dlc, consumes 0 bytes, yields no frames", with the clamped dlc. Of the model's note of E2 (log 6)
nothing is said here. -/
def Obligations.DecodeDefersPartialInput : Prop :=
  ∀ (buf : List Byte) (s : State), s.ready = true →
    (buf.length < 6 ∨ (6 ≤ buf.length ∧ buf.length < 6 + min (buf.getD 5 0).toNat 8)) →
    ∃ note, exec (.fcDecode buf) s = .next
      { s with out := { result := .decoded [] 0, incomplete := note } }

/-- R126: for every declared dlc in 9..255 the decoder behaves as for 8: it needs 8 payload bytes, the frame has
`dlc = 8` and those bytes, and 14 bytes are consumed. -/
def Obligations.DecodeClampsDlc : Prop :=
  ∀ (buf : List Byte) (s : State), s.ready = true → 9 ≤ (buf.getD 5 0).toNat →
    exec (.fcDecode buf) s = exec (.fcDecode (buf.set 5 8)) s ∧
    (buf.length < 14 → ∃ t, exec (.fcDecode buf) s = .next t ∧ t.out.result = .decoded [] 0) ∧
    (14 ≤ buf.length → ∃ t f frames consumed, exec (.fcDecode buf) s = .next t ∧
      t.out.result = .decoded (f :: frames) consumed ∧ f.dlc = 8 ∧ f.data = (buf.drop 6).take 8 ∧
      Scan buf 14 frames consumed)

/-- R127, R124 corner case 7: no byte sequence is rejected, every decoded frame keeps the frame invariant, and at most
13 bytes are left. -/
def Obligations.DecodeRejectsNothing : Prop :=
  ∀ (buf : List Byte) (s : State), s.ready = true →
    ∃ t frames consumed, exec (.fcDecode buf) s = .next t ∧ t.out.result = .decoded frames consumed ∧
      (∀ f ∈ frames, f.inv = true) ∧ consumed ≤ buf.length ∧ buf.length - consumed ≤ 13

/-- R128: `FC.DECODE (FC.ENCODE f) = ([f], 6 + f.dlc)` for every frame in the encoder's domain; and in the other
direction `FC.ENCODE f = w[0..n)` exactly when `w[0][7:2] = 0` and `w[5] ≤ 8`. That E2 is noted though no byte is left is the model's
reading (log 28). -/
def Obligations.CodecRoundTrip : Prop :=
  (∀ (f : BusFrame) (s : State), s.ready = true → f.inv = true →
    exec (.fcDecode (encodeFrame f)) s = .next
      { s with out := { result := .decoded [f] (6 + f.dlc.toNat), incomplete := true } }) ∧
  ∀ (w : List Byte) (f : BusFrame) (n : Nat), decodeOne w 0 = some (f, n) →
    (encodeFrame f = w.take n ↔ ((w.getD 0 0).toNat < 4 ∧ (w.getD 5 0).toNat ≤ 8))

/-- R130: a caller that keeps the unconsumed tail and puts it in front of the next chunk decodes the same frames, and is
left with the same tail, as one that sees the whole stream at once, however the stream is cut. -/
def Obligations.ReassemblyIsIndependentOfChunking : Prop :=
  ∀ chunks : List (List Byte),
    decodeChunks [] chunks = ((decodeBuffer chunks.flatten).1, undecodedTail chunks.flatten)

/-! ## The bus side -/

/-- R140: one whole BI.INGRESS. The identifier is the one `ide` selects, the payload the first `dlc` bytes, remote
frames included; PEND is set also when the push fails (the spec's decision D25). Nothing else changes: not the private
values of an operation it pre-empts (R219), not the link, not the records (R143, R217). A peripheral frame with dlc 9 to
15 is refused (the spec's decision D26); the frame built from any other one satisfies `WF` (R140 corner case 1). -/
def Obligations.IngressQueuesTheFrameAndSetsPend : Prop :=
  (∀ (p : PFrame) (s : State), s.agent = .busIngress → s.inflight.push = {} → p.dlc.toNat ≤ 8 →
    exec (.biIngress p) s = .next
      (if (s.rx.head + 1) % s.cfg.nRx = s.rx.tail then { s with pend := true, out := { errors := [.queueFull .rx] } }
      else
        { s with
          rx := { s.rx with
            slot := s.rx.slot.set s.rx.head
              { ext := p.ide, rtr := p.rtr
                id := if p.ide = true then BitVec.ofNat 32 p.extId.toNat else BitVec.ofNat 32 p.stdId.toNat
                dlc := p.dlc
                data := [p.data.b0, p.data.b1, p.data.b2, p.data.b3, p.data.b4, p.data.b5, p.data.b6, p.data.b7].take
                  p.dlc.toNat }
            head := (s.rx.head + 1) % s.cfg.nRx }
          pend := true
          out := {} })) ∧
  (∀ (p : PFrame) (s : State), s.agent = .busIngress → s.inflight.push = {} → 8 < p.dlc.toNat →
    exec (.biIngress p) s = .refused .pframeDlc) ∧
  ∀ p : PFrame, p.dlc.toNat ≤ 8 → (frameOfPFrame p).wf = true

/-- R219, R220, R214: taking the interrupt at any point with no push in flight runs one whole BI.INGRESS, nothing is
saved, and on return the pre-empted agent, the private values of its operation, and what it has put out so far stand as
they were; only FQ(rx)'s producer side and PEND, and the model's note of a drop behind the notes there are (log 6),
differ. -/
def Obligations.InterruptRunsOneIngressAndReturns : Prop :=
  ∀ (p : PFrame) (s : State) (drop : List ErrorNote), s.inflight.push = {} → p.dlc.toNat ≤ 8 →
    drop = (if (s.rx.head + 1) % s.cfg.nRx = s.rx.tail then [.queueFull .rx] else []) →
    ∃ t, takeInterrupt p s = .next t ∧
      exec (.biIngress p) { s with agent := .busIngress } = .next { t with agent := .busIngress, out := { errors := drop } } ∧
      t = { s with rx := t.rx, pend := true, out := { s.out with errors := s.out.errors ++ drop } } ∧ t.rx.tail = s.rx.tail

/-- R141, R142: BE.EGRESS drains FQ(tx) in pop order: a frame with a free slot is submitted, a frame without one is dropped
and noted, no retry; of the queue only `tail` moves. One slot answer for each frame and the frame submitted unchanged are
the spec's decision D28; that the answers come first from the script `env.txSlot`, then from free values counted by
`env.count`, is the model's choice (log 4), and so is the field that shows commands and notes (log 6). -/
def Obligations.BusEgressDrainsTheQueue : Prop :=
  ∀ s : State, s.ready = true → s.tx.wf s.cfg.nTx = true →
    ∃ (answers : List Bool) (script : List Bool) (k : Nat),
      answers.length = (s.tx.contents s.cfg.nTx).length ∧
      answers.take s.env.txSlot.length = s.env.txSlot.take answers.length ∧ script = s.env.txSlot.drop answers.length ∧
      exec .beEgress s = .next
        { s with
          tx := { s.tx with tail := s.tx.head }
          env := { s.env with txSlot := script, count := k }
          out :=
            { cmds := (((s.tx.contents s.cfg.nTx).zip answers).filter fun x => x.2).map fun x => .submit x.1
              errors := (((s.tx.contents s.cfg.nTx).zip answers).filter fun x => !x.2).map fun x =>
                .transmitSlotUnavailable x.1 } }

/-! ## Network egress -/

/-- R150, R151: "No-op if ActiveLink is unset or the 'pending' indicator is clear": the frames wait. -/
def Obligations.NetworkEgressWaitsForLinkAndPend : Prop :=
  ∀ s : State, s.ready = true → (s.alSlot = none ∨ s.pend = false) → exec .neEgress s = .next { s with out := {} }

/-- R150, R154: without an interrupt in between, every frame of FQ(rx) is encoded, written to the transport of the slot
and flushed, in push order; then the queue is empty and PEND is clear. -/
def Obligations.NetworkEgressSendsEveryFrame : Prop :=
  ∀ (s : State) (h : Handle), s.ready = true → s.cfg.legal → s.rx.wf s.cfg.nRx = true → s.alSlot = some h →
    s.pend = true → s.env.irq = [] →
    exec .neEgress s = .next
      { s with
        rx := { s.rx with tail := s.rx.head }
        pend := false
        out := { cmds := (s.rx.contents s.cfg.nRx).flatMap fun f => [.write h (encodeFrame f), .flush h] } }

/-- R150, R152, R250, R254: with interrupts at any of the micro-step boundaries NE.EGRESS still completes; every frame
held at the start is sent; what it sends followed by what is left in FQ(rx) is what was queued followed by the frames the
interrupts queued, in order. The run uses five entries of the model's script (log 8) for each frame sent and three at the
end (the boundaries, log 9). Of the frames of those entries, each is queued or dropped with one QueueFull (a note that
stays after the interrupt, log 6), and none is dropped where the queue has room for all. PEND is clear at the end, whatever
the queue holds. -/
def Obligations.InterruptedNetworkEgressLosesNothing : Prop :=
  ∀ (s : State) (h : Handle), s.inv = true → s.ready = true → s.irqLegal = true → s.alSlot = some h → s.pend = true →
    ∃ (rx : FrameQueue) (sent arrived : List BusFrame) (dropped : Nat),
      exec .neEgress s = .next
        { s with
          rx := rx
          pend := false
          env := { s.env with irq := s.env.irq.drop (5 * sent.length + 3) }
          out :=
            { cmds := sent.flatMap fun f => [.write h (encodeFrame f), .flush h]
              errors := List.replicate dropped (.queueFull .rx) } } ∧
      s.rx.contents s.cfg.nRx <+: sent ∧
      sent ++ rx.contents s.cfg.nRx = s.rx.contents s.cfg.nRx ++ arrived ∧
      arrived.Sublist ((s.env.irq.take (5 * sent.length + 3)).flatten.map frameOfPFrame) ∧
      arrived.length + dropped = (s.env.irq.take (5 * sent.length + 3)).flatten.length ∧
      (dropped ≠ 0 →
        s.cfg.nRx ≤ (s.rx.contents s.cfg.nRx).length + (s.env.irq.take (5 * sent.length + 3)).flatten.length)

/-- R250: the lost wake-up. An interrupt between C1 of the last pop and N4 leaves a frame in FQ(rx) with PEND clear, and
every NE.EGRESS that follows is a no-op. -/
def Obligations.LateInterruptLeavesFrameWithoutPend : Prop :=
  ∀ (s : State) (h : Handle) (p : PFrame), s.inv = true → s.ready = true → s.alSlot = some h → s.pend = true →
    s.rx.head = s.rx.tail → p.dlc.toNat ≤ 8 → s.env.irq = [[], [p]] →
    ∃ t, exec .neEgress s = .next t ∧ t.pend = false ∧ t.rx.contents s.cfg.nRx = [frameOfPFrame p] ∧
      t.out.cmds = [] ∧ exec .neEgress t = .next { t with out := {} }

/-! ## ClientLink -/

/-- R160: CL.INITIATE with the handle the environment allocates; a no-op while a record exists; refused when the
allocation fails (U10). -/
def Obligations.InitiateStartsOneAttempt : Prop :=
  ∀ (now : Time) (s : State), s.ready = true →
    (∀ r, s.clRec = some r → exec (.clInitiate now) s = .next { s with out := {} }) ∧
    (∀ h s', s.clRec = none → drawAlloc s = (some h, s') →
      exec (.clInitiate now) s = .next
        { s with
          clRec := some { state := .connecting, handle := h, attemptStart := now, rxTail := [] }
          clRetryRef := some now
          env := s'.env
          out := { cmds := [.connect h s.cfg.destAddr s.cfg.destPort] } }) ∧
    ∀ s', s.clRec = none → drawAlloc s = (none, s') → exec (.clInitiate now) s = .refused .allocFailed

/-- R161 part 1 and R170: a connecting attempt is aborted when the elapsed time, modulo 2^32, exceeds `SYN_TIMEOUT`
(strictly, D13), and the backoff then runs from the abort time (D14); with `RECONNECT_BACKOFF = 0` the new attempt
follows in the same tick (D15), and the tick is refused when its allocation fails (U10, log 5).
At the limit and in every other state of the record nothing happens. -/
def Obligations.TickAbortsOnlyAfterSynTimeout : Prop :=
  ∀ (now : Time) (s : State) (r : ClientRec), s.ready = true → s.clRec = some r →
    (r.state = .connecting → s.cfg.synTimeout.toNat < (now.toNat + 2 ^ 32 - r.attemptStart.toNat) % 2 ^ 32 →
      s.cfg.reconnectBackoff ≠ 0 →
      exec (.clTick now) s = .next
        { s with
          clRec := none
          clRetryRef := some now
          out := { cmds := [.abort r.handle], errors := [.handshakeTimeout] } }) ∧
    (∀ h s', r.state = .connecting →
      s.cfg.synTimeout.toNat < (now.toNat + 2 ^ 32 - r.attemptStart.toNat) % 2 ^ 32 →
      s.cfg.reconnectBackoff = 0 → drawAlloc s = (some h, s') →
      exec (.clTick now) s = .next
        { s with
          clRec := some { state := .connecting, handle := h, attemptStart := now, rxTail := [] }
          clRetryRef := some now
          env := s'.env
          out :=
            { cmds := [.abort r.handle, .connect h s.cfg.destAddr s.cfg.destPort], errors := [.handshakeTimeout] } }) ∧
    (∀ s', r.state = .connecting →
      s.cfg.synTimeout.toNat < (now.toNat + 2 ^ 32 - r.attemptStart.toNat) % 2 ^ 32 →
      s.cfg.reconnectBackoff = 0 → drawAlloc s = (none, s') → exec (.clTick now) s = .refused .allocFailed) ∧
    (r.state ≠ .connecting ∨ (now.toNat + 2 ^ 32 - r.attemptStart.toNat) % 2 ^ 32 ≤ s.cfg.synTimeout.toNat →
      exec (.clTick now) s = .next { s with out := {} })

/-- R161 part 2, R173: without a record a tick initiates at once after reset, and otherwise exactly when the elapsed time
since `retry_ref` is at least `RECONNECT_BACKOFF` (D13); a tick that would initiate is refused when the allocation fails
(U10, log 5). -/
def Obligations.TickReconnectsAfterBackoff : Prop :=
  ∀ (now : Time) (s : State), s.ready = true → s.clRec = none →
    (∀ h s', drawAlloc s = (some h, s') →
      (∀ t, s.clRetryRef = some t → s.cfg.reconnectBackoff.toNat ≤ (now.toNat + 2 ^ 32 - t.toNat) % 2 ^ 32) →
      exec (.clTick now) s = .next
        { s with
          clRec := some { state := .connecting, handle := h, attemptStart := now, rxTail := [] }
          clRetryRef := some now
          env := s'.env
          out := { cmds := [.connect h s.cfg.destAddr s.cfg.destPort] } }) ∧
    (∀ s', drawAlloc s = (none, s') →
      (∀ t, s.clRetryRef = some t → s.cfg.reconnectBackoff.toNat ≤ (now.toNat + 2 ^ 32 - t.toNat) % 2 ^ 32) →
      exec (.clTick now) s = .refused .allocFailed) ∧
    ∀ t, s.clRetryRef = some t → (now.toNat + 2 ^ 32 - t.toNat) % 2 ^ 32 < s.cfg.reconnectBackoff.toNat →
      exec (.clTick now) s = .next { s with out := {} }

/-- R171 item 2: after a HandshakeTimeout at `now1`, and through any operations but a direct CL.INITIATE, the next
connect a CL.TICK emits comes no earlier than the backoff from the abort time. -/
def Obligations.BackoffRunsFromTheAbort : Prop :=
  ∀ (now1 now2 : Time) (s t u v : State),
    execAs (.clTick now1) s = .next t → .handshakeTimeout ∈ t.out.errors → t.connects = false →
    QuietRun t u → execAs (.clTick now2) u = .next v → v.connects = true →
    u.cfg.reconnectBackoff.toNat ≤ (now2.toNat + 2 ^ 32 - now1.toNat) % 2 ^ 32

/-- R162: "enter `Connected`, register this transport as ActiveLink"; in every other state nothing happens (D18). -/
def Obligations.ConnectedTakesTheLink : Prop :=
  ∀ s : State, s.ready = true →
    (∀ r, s.clRec = some r → r.state = .connecting →
      exec .clConnected s = .next
        { s with clRec := some { r with state := .connected }, alSlot := some r.handle, out := {} }) ∧
    ((∀ r, s.clRec = some r → r.state ≠ .connecting) → exec .clConnected s = .next { s with out := {} })

/-- R163: "discard local state"; `retry_ref` and the slot are kept, no command; in every other state nothing happens
(D18). -/
def Obligations.ConnectFailureDiscardsTheAttempt : Prop :=
  ∀ s : State, s.ready = true →
    (∀ r, s.clRec = some r → r.state = .connecting →
      exec .clConnfail s = .next { s with clRec := none, out := { errors := [.connectFailed] } }) ∧
    ((∀ r, s.clRec = some r → r.state ≠ .connecting) → exec .clConnfail s = .next { s with out := {} })

/-- R165 with R129: in `Connected` the old tail and the new bytes are scanned, every frame is offered to FQ(tx) in
order, the first that fit are kept and the others dropped and noted, the undecoded tail is kept or discarded by
`CL_RETAIN_TAIL`, and the consumed count is acknowledged. Elsewhere the bytes are discarded (D18). That E2 is noted also
where no byte is left is the model's reading (log 28). -/
def Obligations.ClientReceiveDecodesIntoTheQueue : Prop :=
  ∀ (bytes : List Byte) (s : State), s.ready = true → s.cfg.legal → s.tx.wf s.cfg.nTx = true →
    (∀ r, s.clRec = some r → r.state = .connected → ∃ (Q : FrameQueue) (frames : List BusFrame) (consumed : Nat),
      Scan (r.rxTail ++ bytes) 0 frames consumed ∧
      exec (.clRecv bytes) s = .next
        { s with
          tx := Q
          clRec := some { r with
            rxTail := if s.cfg.clRetainTail = true then (r.rxTail ++ bytes).drop consumed else [] }
          out :=
            { cmds := [.recved r.handle consumed]
              errors := List.replicate (frames.length - (s.cfg.nTx - 1 - s.tx.count s.cfg.nTx)) (.queueFull .tx)
              incomplete := true } } ∧
      Q.wf s.cfg.nTx = true ∧ Q.tail = s.tx.tail ∧
      Q.contents s.cfg.nTx =
        s.tx.contents s.cfg.nTx ++ frames.take (s.cfg.nTx - 1 - s.tx.count s.cfg.nTx)) ∧
    ((∀ r, s.clRec = some r → r.state ≠ .connected) → exec (.clRecv bytes) s = .next { s with out := {} })

/-- R166, R164: end of stream closes or aborts by `CL_CLEANUP`, drops the record, and clears the slot only if it holds
the client's handle; without a record nothing happens (D18). -/
def Obligations.ClientEndOfStreamFinalizes : Prop :=
  ∀ s : State, s.ready = true →
    (∀ r, s.clRec = some r →
      exec .clEos s = .next
        { s with
          clRec := none
          alSlot := if s.alSlot = some r.handle then none else s.alSlot
          out :=
            { cmds := [if s.cfg.clCleanup = .close then .close r.handle else .abort r.handle]
              errors := [.peerClosed] } }) ∧
    (s.clRec = none → exec .clEos s = .next { s with out := {} })

/-- R167: an error releases the record in every state of it, clears the slot only if it holds the client's handle, and
emits nothing; without a record nothing happens (D18). -/
def Obligations.ClientErrorReleasesTheRecord : Prop :=
  ∀ s : State, s.ready = true →
    (∀ r, s.clRec = some r →
      exec .clError s = .next
        { s with
          clRec := none
          alSlot := if s.alSlot = some r.handle then none else s.alSlot
          out := { errors := [.transportError] } }) ∧
    (s.clRec = none → exec .clError s = .next { s with out := {} })

/-- R168: a poll aborts a transport that the client's record does not own (another handle counts as no record, D18). -/
def Obligations.ClientPollAbortsUnownedTransport : Prop :=
  ∀ (h : Handle) (s : State), s.ready = true →
    exec (.clPoll h) s = .next
      { s with out := { cmds := if s.clRec.map ClientRec.handle = some h then [] else [.abort h] } }

/-! ## ServerLink -/

/-- R180: setup binds and listens once; a second setup is refused (U11). -/
def Obligations.SetupListensOnce : Prop :=
  ∀ s : State, s.ready = true →
    (s.slListening = false →
      exec .slSetup s = .next { s with slListening := true, out := { cmds := [.listen s.cfg.bindAddr s.cfg.bindPort] } }) ∧
    (s.slListening = true → exec .slSetup s = .refused .secondSetup)

/-- R181: accept allocates a record and registers it as ActiveLink, whatever the slot held; without a listener, and with
a record present (D19), it is refused. -/
def Obligations.AcceptCreatesRecordAndTakesTheLink : Prop :=
  ∀ (h : Handle) (s : State), s.ready = true →
    (s.slListening = true → s.slRec = none →
      exec (.slAccept h) s = .next
        { s with
          slRec := some { state := .accepted, handle := h, rxPending := [], txPending := [], retries := 0 }
          alSlot := some h
          out := {} }) ∧
    (s.slListening = false → exec (.slAccept h) s = .refused .acceptWithoutListener) ∧
    (s.slListening = true → s.slRec ≠ none → exec (.slAccept h) s = .refused .acceptWithRecord)

/-- R183 with R129: in `Accepted` and `Received` the pending bytes and the new ones are scanned in this order, every
frame is offered to FQ(tx), the undecoded tail is held, and the consumed count is acknowledged (D22). In `Closing` and
without a record the bytes are discarded (D18). That E2 is noted also where no byte is left is the model's reading
(log 28). -/
def Obligations.ServerReceiveDecodesIntoTheQueue : Prop :=
  ∀ (bytes : List Byte) (s : State), s.ready = true → s.cfg.legal → s.tx.wf s.cfg.nTx = true →
    (∀ r, s.slRec = some r → r.state ≠ .closing → ∃ (Q : FrameQueue) (frames : List BusFrame) (consumed : Nat),
      Scan (r.rxPending ++ bytes) 0 frames consumed ∧
      exec (.slRecv bytes) s = .next
        { s with
          tx := Q
          slRec := some { r with state := .received, rxPending := (r.rxPending ++ bytes).drop consumed }
          out :=
            { cmds := [.recved r.handle consumed]
              errors := List.replicate (frames.length - (s.cfg.nTx - 1 - s.tx.count s.cfg.nTx)) (.queueFull .tx)
              incomplete := true } } ∧
      Q.wf s.cfg.nTx = true ∧ Q.tail = s.tx.tail ∧
      Q.contents s.cfg.nTx =
        s.tx.contents s.cfg.nTx ++ frames.take (s.cfg.nTx - 1 - s.tx.count s.cfg.nTx)) ∧
    ((∀ r, s.slRec = some r → r.state = .closing) → exec (.slRecv bytes) s = .next { s with out := {} })

/-- R184, R182: end of stream closes at once with nothing pending; with output pending the record enters `Closing` and
the loop of SL.SEND runs from there (R187), and the record stays. Without a record nothing happens (D18). -/
def Obligations.ServerEndOfStreamFlushesThenCloses : Prop :=
  ∀ s : State, s.ready = true →
    (∀ r, s.slRec = some r → r.txPending = [] →
      exec .slEos s = .next
        { s with
          slRec := none
          alSlot := if s.alSlot = some r.handle then none else s.alSlot
          out := { cmds := [.close r.handle], errors := [.peerClosed] } }) ∧
    (∀ r, s.slRec = some r → r.txPending ≠ [] → ∃ t, exec .slEos s = .next t ∧
      Sends { s with slRec := some { r with state := .closing }, out := { errors := [.peerClosed] } } t ∧
      SendOutcome { s with slRec := some { r with state := .closing }, out := { errors := [.peerClosed] } }
        { r with state := .closing } t) ∧
    (s.slRec = none → exec .slEos s = .next { s with out := {} })

/-- R185: an error releases the server's record, clears the slot only if it holds the server's handle, emits nothing and
keeps the listener; without a record nothing happens (D18). -/
def Obligations.ServerErrorReleasesTheRecord : Prop :=
  ∀ s : State, s.ready = true →
    (∀ r, s.slRec = some r →
      exec .slError s = .next
        { s with
          slRec := none
          alSlot := if s.alSlot = some r.handle then none else s.alSlot
          out := { errors := [.transportError] } }) ∧
    (s.slRec = none → exec .slError s = .next { s with out := {} })

/-- R186 (an operation of the spec's own, D20): bytes are appended to the pending output, nothing is sent, no bound. -/
def Obligations.EnqueueAppendsPendingOutput : Prop :=
  ∀ (bytes : List Byte) (s : State), s.ready = true →
    (∀ r, s.slRec = some r →
      exec (.slEnqueue bytes) s = .next
        { s with slRec := some { r with txPending := r.txPending ++ bytes }, out := {} }) ∧
    (s.slRec = none → exec (.slEnqueue bytes) s = .next { s with out := {} })

/-- R187 (the chunking is the spec's decision D38): SL.SEND runs the rule's loop to its end. -/
def Obligations.SendRunsTheLoop : Prop :=
  ∀ s : State, s.ready = true →
    (∀ r, s.slRec = some r → ∃ t, exec .slSend s = .next t ∧ Sends { s with out := {} } t) ∧
    (s.slRec = none → exec .slSend s = .next { s with out := {} })

/-- R191, R192: one send writes the front of the pending bytes, cut by the capacities drawn for the chunks (from the
script, or free values, log 4), in order, and keeps the rest. And over any run in which the record is not destroyed, what
was pending followed by the bytes appended is the bytes that SL.SEND has written followed by what is pending: "no byte
loss, duplication, or reordering". -/
def Obligations.SendLosesNoByte : Prop :=
  (∀ (s : State) (r : ServerRec), s.ready = true → s.slRec = some r →
    ∃ t, exec .slSend s = .next t ∧ SendOutcome { s with out := {} } r t) ∧
  ∀ (s u : State) (r : ServerRec) (enq sent : List Byte), s.slRec = some r → ServerRun r.handle s enq sent u →
    ∃ q, u.slRec = some q ∧ q.handle = r.handle ∧ r.txPending ++ enq = sent ++ q.txPending

/-- R188: with output pending the loop of SL.SEND runs (R187); with nothing pending a record in `Closing` is closed only by
`SL_CLOSE_ON_SENT` (D23); else nothing happens. -/
def Obligations.SentRetriesPendingOutput : Prop :=
  ∀ s : State, s.ready = true →
    (∀ r, s.slRec = some r → r.txPending ≠ [] →
      ∃ t, exec .slSent s = .next t ∧ Sends { s with out := {} } t ∧ SendOutcome { s with out := {} } r t) ∧
    (∀ r, s.slRec = some r → r.txPending = [] → s.cfg.slCloseOnSent = true → r.state = .closing →
      exec .slSent s = .next
        { s with
          slRec := none
          alSlot := if s.alSlot = some r.handle then none else s.alSlot
          out := { cmds := [.close r.handle] } }) ∧
    (∀ r, s.slRec = some r → r.txPending = [] → (s.cfg.slCloseOnSent = false ∨ r.state ≠ .closing) →
      exec .slSent s = .next { s with out := {} }) ∧
    (s.slRec = none → exec .slSent s = .next { s with out := {} })

/-- R189: a poll aborts a transport the server does not own (another handle counts as no record, D18); else the
loop of SL.SEND runs on what is pending (R187); else it finalises a close; else nothing. -/
def Obligations.ServerPollAbortsSendsOrCloses : Prop :=
  ∀ (h : Handle) (s : State), s.ready = true →
    ((∀ r, s.slRec = some r → r.handle ≠ h) → exec (.slPoll h) s = .next { s with out := { cmds := [.abort h] } }) ∧
    (∀ r, s.slRec = some r → r.handle = h → r.txPending ≠ [] →
      ∃ t, exec (.slPoll h) s = .next t ∧ Sends { s with out := {} } t ∧ SendOutcome { s with out := {} } r t) ∧
    (∀ r, s.slRec = some r → r.handle = h → r.txPending = [] → r.state = .closing →
      exec (.slPoll h) s = .next
        { s with
          slRec := none
          alSlot := if s.alSlot = some h then none else s.alSlot
          out := { cmds := [.close h] } }) ∧
    ∀ r, s.slRec = some r → r.handle = h → r.txPending = [] → r.state ≠ .closing →
      exec (.slPoll h) s = .next { s with out := {} }

/-! ## ActiveLink -/

/-- R200: the slot holds `h`, whatever it held; no command is emitted. -/
def Obligations.SetOverwritesTheSlot : Prop :=
  ∀ (h : Handle) (s : State), s.ready = true → exec (.alSet h) s = .next { s with alSlot := some h, out := {} }

/-- R201: the slot is cleared only if it holds `h`. -/
def Obligations.ClearifClearsOnlyItsOwnHandle : Prop :=
  ∀ (h : Handle) (s : State), s.ready = true →
    exec (.alClearif h) s = .next { s with alSlot := if s.alSlot = some h then none else s.alSlot, out := {} }

/-- R202: the read returns the slot and writes nothing. -/
def Obligations.GetReadsTheSlot : Prop :=
  ∀ s : State, s.ready = true → exec .alGet s = .next { s with out := { result := .handle s.alSlot } }

/-- R205: every operation that is not in the rule's table leaves the slot unchanged. -/
def Obligations.OnlyListedOperationsWriteTheSlot : Prop :=
  ∀ (i : Instr) (s t : State),
    (∀ h, i ≠ .alSet h) → (∀ h, i ≠ .alClearif h) → (∀ h, i ≠ .slAccept h) → (∀ h, i ≠ .slPoll h) →
    i ∉ [.clConnected, .clEos, .clError, .slEos, .slSent, .slError] →
    exec i s = .next t → t.alSlot = s.alSlot

/-- R204: an operation that ends or reports the end of transport `h` never changes a slot that holds another handle, and
clears one that holds `h` when it destroys the record of `h`. -/
def Obligations.StaleEventsKeepTheLink : Prop :=
  (∀ (i : Instr) (s t : State) (r : ClientRec) (g : Handle), i ∈ [.clEos, .clError] → s.clRec = some r →
    s.alSlot = some g → exec i s = .next t → t.alSlot = if g = r.handle then none else some g) ∧
  ∀ (i : Instr) (s t : State) (r : ServerRec) (g : Handle), i ∈ [.slEos, .slSent, .slPoll r.handle, .slError] →
    s.slRec = some r → s.alSlot = some g → exec i s = .next t →
    t.alSlot = if g = r.handle ∧ t.slRec = none then none else some g

/-! ## Invariants of the whole machine -/

/-- R240, R241 and the table of R49: every piece of state after reset that the spec gives a value to. -/
def Obligations.ResetStateIsEmptyAndIdle : Prop :=
  State.reset.rx.head = 0 ∧ State.reset.rx.tail = 0 ∧ State.reset.tx.head = 0 ∧ State.reset.tx.tail = 0 ∧
  State.reset.pend = false ∧ State.reset.alSlot = none ∧ State.reset.clRec = none ∧ State.reset.clRetryRef = none ∧
  State.reset.slListening = false ∧ State.reset.slRec = none ∧ State.reset.inflight = {} ∧
  State.reset.agent.context = .background

/-- The invariant of R21, R23, R30, R31, R192 holds after reset. -/
def Obligations.InvariantHoldsAtReset : Prop := State.reset.inv = true ∧ State.reset.slotInv = true

/-- R21, R23, R165, R183, R192: every step keeps the invariant: a legal configuration, queues of exactly `N` frames that
keep the frame invariant with both indices in range, nothing in flight between operations, undecoded tails that are
incomplete candidates, a retry counter of 0. -/
def Obligations.EveryStepKeepsTheInvariant : Prop :=
  ∀ s t : State, s.inv = true → step s = .next t → t.inv = true

/-- R33: the slot invariant. Every operation but a direct AL.SET, which R44 makes internal to the links, keeps it. -/
def Obligations.EveryOperationKeepsTheSlotInvariant : Prop :=
  ∀ (i : Instr) (s t : State), (∀ h, i ≠ .alSet h) → s.slotInv = true → exec i s = .next t → t.slotInv = true

/-- R33's justification, R38: under HANDLE_FRESH the two records never own one transport, and a connecting client's
handle is never in the slot. The premise is asked only where a handle enters the block. -/
def Obligations.FreshHandlesKeepTransportsApart : Prop :=
  ∀ (i : Instr) (s t : State), (∀ h, i ≠ .alSet h) → s.freshFor i = true →
    s.handlesDistinct = true → s.connectingNotLinked = true → exec i s = .next t →
    t.handlesDistinct = true ∧ t.connectingNotLinked = true

/-- R221: "Nothing in the block faults, traps or hangs": no step from a state with the invariant ends in a fault. -/
def Obligations.NoStepFaults : Prop :=
  ∀ (s : State) (r : Fault), s.inv = true → step s ≠ .fault r

/-- R243 item 1: the configuration does not change. -/
def Obligations.ConfigurationNeverChanges : Prop :=
  ∀ s t : State, step s = .next t → t.cfg = s.cfg
end

