-- ==== Sys2Proof/Laws/Codec.lean ====
section
/-! SUPPORT. The wire codec: the identifier's bytes, one candidate, and the scan without its bound. -/

namespace Sys2Proof.Machine

/-! ## Bytes of the identifier -/

theorem assembleId_toNat (b1 b2 b3 b4 : Byte) :
    (assembleId b1 b2 b3 b4).toNat = b1.toNat * 2 ^ 24 + b2.toNat * 2 ^ 16 + b3.toNat * 2 ^ 8 + b4.toNat := by
  have h2 := b2.isLt
  have h3 := b3.isLt
  have h4 := b4.isLt
  unfold assembleId
  rw [BitVec.toNat_append, BitVec.toNat_append, BitVec.toNat_append]
  rw [← Nat.shiftLeft_add_eq_or_of_lt h4, ← Nat.shiftLeft_add_eq_or_of_lt h3, ← Nat.shiftLeft_add_eq_or_of_lt h2]
  simp only [Nat.shiftLeft_eq]
  omega

theorem idByte_toNat (v : BitVec 32) (k : Nat) : (idByte v k).toNat = v.toNat / 2 ^ k % 256 := by
  simp [idByte, Nat.shiftRight_eq_div_pow]

/-- The four bytes of an identifier give it back (R83). -/
theorem assembleId_idByte (v : BitVec 32) : assembleId (idByte v 24) (idByte v 16) (idByte v 8) (idByte v 0) = v := by
  apply BitVec.eq_of_toNat_eq
  rw [assembleId_toNat]
  simp only [idByte_toNat]
  have := v.isLt
  omega

theorem idByte_assembleId (b1 b2 b3 b4 : Byte) :
    idByte (assembleId b1 b2 b3 b4) 24 = b1 ∧ idByte (assembleId b1 b2 b3 b4) 16 = b2 ∧
    idByte (assembleId b1 b2 b3 b4) 8 = b3 ∧ idByte (assembleId b1 b2 b3 b4) 0 = b4 := by
  have h1 := b1.isLt
  have h2 := b2.isLt
  have h3 := b3.isLt
  have h4 := b4.isLt
  refine ⟨?_, ?_, ?_, ?_⟩ <;> apply BitVec.eq_of_toNat_eq <;> rw [idByte_toNat, assembleId_toNat] <;> omega

theorem flagsByte_toNat (e r : Bool) : (flagsByte e r).toNat = 2 * r.toNat + e.toNat := by
  cases e <;> cases r <;> rfl

theorem flagsByte_bits (e r : Bool) : (flagsByte e r).getLsbD 0 = e ∧ (flagsByte e r).getLsbD 1 = r := by
  cases e <;> cases r <;> decide

theorem byte_getLsbD_zero (b : Byte) : b.getLsbD 0 = decide (b.toNat % 2 = 1) := by
  simp [BitVec.getLsbD, Nat.testBit_zero]

theorem byte_getLsbD_one (b : Byte) : b.getLsbD 1 = decide (b.toNat / 2 % 2 = 1) := by
  simp [BitVec.getLsbD, Nat.testBit_succ, Nat.testBit_zero]

/-- A flags byte without unnamed bits is given back by its two flags (R82, R87). -/
theorem flagsByte_of_small (b : Byte) : flagsByte (b.getLsbD 0) (b.getLsbD 1) = b ↔ b.toNat < 4 := by
  constructor
  · intro h
    have := congrArg BitVec.toNat h
    rw [flagsByte_toNat] at this
    have e := Bool.toNat_le (b.getLsbD 0)
    have r := Bool.toNat_le (b.getLsbD 1)
    omega
  · intro h
    apply BitVec.eq_of_toNat_eq
    rw [flagsByte_toNat, byte_getLsbD_zero, byte_getLsbD_one]
    have : b.toNat = 0 ∨ b.toNat = 1 ∨ b.toNat = 2 ∨ b.toNat = 3 := by omega
    rcases this with e | e | e | e <;> rw [e] <;> rfl

/-- The frame invariant in words (R21). -/
theorem BusFrame_inv_iff (f : BusFrame) : f.inv = true ↔ f.dlc.toNat ≤ 8 ∧ f.data.length = f.dlc.toNat := by
  unfold BusFrame.inv; rw [Bool.and_eq_true, decide_eq_true_iff, beq_iff_eq]; rfl

/-- The peripheral frames with a meaning (R140). -/
theorem PFrame_legal_iff (p : PFrame) : p.legal = true ↔ p.dlc.toNat ≤ 8 := by
  unfold PFrame.legal; rw [decide_eq_true_iff]; rfl

theorem PFrame_legal_false_iff (p : PFrame) : p.legal = false ↔ 8 < p.dlc.toNat := by
  rw [← Bool.not_eq_true, PFrame_legal_iff]; omega

/-! ## One candidate -/

theorem clampDlc_le (b : Byte) : clampDlc b ≤ 8 := Nat.min_le_right _ _

/-- A candidate depends only on the bytes from its offset on (R130). -/
theorem decodeOne_drop (buf : List Byte) (off : Nat) : decodeOne buf off = decodeOne (buf.drop off) 0 := by
  simp [decodeOne, bufByte, List.getD_eq_getElem?_getD, List.getElem?_drop, List.drop_drop]

/-- What a whole candidate is (R122). -/
theorem decodeOne_some {buf : List Byte} {off n : Nat} {f : BusFrame} (h : decodeOne buf off = some (f, n)) :
    f.inv = true ∧ n = 6 + f.dlc.toNat ∧ 6 ≤ n ∧ n ≤ 14 ∧ off + n ≤ buf.length ∧
    f.dlc.toNat = clampDlc (bufByte buf (off + 5)) := by
  have hc := clampDlc_le (bufByte buf (off + 5))
  unfold decodeOne at h
  split at h
  · cases h
  · split at h
    · cases h
    · rename_i h6 hd
      simp only [Option.some.injEq, Prod.mk.injEq] at h
      obtain ⟨rfl, rfl⟩ := h
      simp only [headerLen] at *
      have hdl : (BitVec.ofNat 4 (clampDlc (bufByte buf (off + 5)))).toNat = clampDlc (bufByte buf (off + 5)) := by
        rw [BitVec.toNat_ofNat]; exact Nat.mod_eq_of_lt (by omega)
      refine ⟨?_, by simp only [hdl], by omega, by omega, by omega, hdl⟩
      simp only [BusFrame.inv, hdl, maxDlc, List.length_take, List.length_drop, Bool.and_eq_true, decide_eq_true_eq, beq_iff_eq]
      exact ⟨hc, by omega⟩

/-- When a candidate is incomplete (R122, R125). -/
theorem decodeOne_none_iff (buf : List Byte) :
    decodeOne buf 0 = none ↔ buf.length < 6 ∨ buf.length < 6 + clampDlc (bufByte buf 5) := by
  unfold decodeOne
  simp only [headerLen, Nat.zero_add, Nat.sub_zero]
  split
  · simp; omega
  · split
    · simp; omega
    · simp; omega

/-- An incomplete candidate has at most 13 bytes (R124 corner case 7). -/
theorem decodeOne_none_length {buf : List Byte} (h : decodeOne buf 0 = none) : buf.length ≤ 13 := by
  have hc := clampDlc_le (bufByte buf 5)
  rcases (decodeOne_none_iff buf).mp h with h | h <;> omega

/-- A whole candidate stays the same when more bytes follow (R130). -/
theorem decodeOne_append {buf : List Byte} {f : BusFrame} {n : Nat} (h : decodeOne buf 0 = some (f, n)) (more : List Byte) :
    decodeOne (buf ++ more) 0 = some (f, n) := by
  obtain ⟨_, hn, h6, _, hl, hd⟩ := decodeOne_some h
  have hb : ∀ i, i < buf.length → bufByte (buf ++ more) i = bufByte buf i := fun i hi => by
    simp [bufByte, List.getD_eq_getElem?_getD, List.getElem?_append_left hi]
  simp only [Nat.zero_add] at hd hl
  unfold decodeOne at h ⊢
  simp only [headerLen, Nat.zero_add, Nat.sub_zero, List.length_append] at h ⊢
  rw [if_neg (by omega), hb 5 (by omega), if_neg (by omega)]
  rw [if_neg (by omega), if_neg (by omega)] at h
  rw [← h, hb 0 (by omega), hb 1 (by omega), hb 2 (by omega), hb 3 (by omega), hb 4 (by omega)]
  congr 3
  rw [List.drop_append_of_le_length (by omega), List.take_append_of_le_length (by simp; omega)]

/-! ## The scan -/

/-- With enough passes the scan is the rule's loop (R124). -/
theorem decodeFrom_scan (buf : List Byte) (k off : Nat) (h : buf.length < off + 6 * k) :
    Scan buf off (decodeFrom buf k off).1 (decodeFrom buf k off).2 := by
  induction k generalizing off with
  | zero =>
    refine .stop off ?_
    rw [decodeOne_drop]
    exact (decodeOne_none_iff _).mpr (.inl (by simp; omega))
  | succ k ih =>
    unfold decodeFrom
    cases hd : decodeOne buf off with
    | none => exact .stop off hd
    | some x =>
      obtain ⟨f, n⟩ := x
      obtain ⟨_, _, h6, _⟩ := decodeOne_some hd
      exact .more off n _ f _ hd (ih (off + n) (by omega))

theorem decodeBuffer_scan (buf : List Byte) : Scan buf 0 (decodeBuffer buf).1 (decodeBuffer buf).2 :=
  decodeFrom_scan buf _ 0 (by simp only [headerLen]; omega)

/-- The loop of R124 has one outcome. -/
theorem Scan_unique {buf : List Byte} {off c c' : Nat} {fs fs' : List BusFrame} (h : Scan buf off fs c)
    (h' : Scan buf off fs' c') : fs = fs' ∧ c = c' := by
  induction h generalizing fs' c' with
  | stop off hd =>
    cases h' with
    | stop _ _ => exact ⟨rfl, rfl⟩
    | more _ n _ f _ hd' _ => rw [hd] at hd'; cases hd'
  | more off n c f fs hd _ ih =>
    cases h' with
    | stop _ hd' => rw [hd] at hd'; cases hd'
    | more _ n' _ f' _ hd' hs =>
      rw [hd] at hd'
      cases hd'
      obtain ⟨rfl, rfl⟩ := ih hs
      exact ⟨rfl, rfl⟩

/-- A scan at an offset is a scan of the bytes from there on. -/
theorem Scan_drop {buf : List Byte} {off : Nat} {c : Nat} {fs : List BusFrame} (p : Nat) (h : Scan (buf.drop p) off fs c) :
    Scan buf (p + off) fs (p + c) := by
  induction h with
  | stop off hd => exact .stop _ (by rw [decodeOne_drop] at hd ⊢; rwa [List.drop_drop] at hd)
  | more off n c f fs hd _ ih =>
    refine .more _ n _ f _ (by rw [decodeOne_drop] at hd ⊢; rwa [List.drop_drop] at hd) ?_
    rwa [Nat.add_assoc]

/-- What a scan leaves: frames that keep the invariant, an offset within the buffer, an incomplete tail (R124). -/
theorem Scan_spec {buf : List Byte} {off c : Nat} {fs : List BusFrame} (h : Scan buf off fs c) :
    off ≤ c ∧ (off ≤ buf.length → c ≤ buf.length) ∧ (∀ f ∈ fs, f.inv = true) ∧ decodeOne (buf.drop c) 0 = none := by
  induction h with
  | stop off hd => exact ⟨le_refl _, id, by simp, by rwa [decodeOne_drop] at hd⟩
  | more off n c f fs hd _ ih =>
    obtain ⟨hi, _, _, _, hl, _⟩ := decodeOne_some hd
    obtain ⟨h1, h2, h3, h4⟩ := ih
    refine ⟨by omega, fun _ => h2 hl, ?_, h4⟩
    intro g hg
    rcases List.mem_cons.mp hg with rfl | hg
    · exact hi
    · exact h3 g hg

theorem decodeBuffer_spec (buf : List Byte) :
    (decodeBuffer buf).2 ≤ buf.length ∧ (∀ f ∈ (decodeBuffer buf).1, f.inv = true) ∧
    decodeOne (undecodedTail buf) 0 = none :=
  let h := Scan_spec (decodeBuffer_scan buf)
  ⟨h.2.1 (Nat.zero_le _), h.2.2.1, h.2.2.2⟩

theorem decodeBuffer_of_scan {buf : List Byte} {fs : List BusFrame} {c : Nat} (h : Scan buf 0 fs c) :
    decodeBuffer buf = (fs, c) := by
  obtain ⟨h1, h2⟩ := Scan_unique (decodeBuffer_scan buf) h
  exact Prod.ext h1 h2

/-- Nothing decodes at an incomplete candidate. -/
theorem decodeBuffer_none {buf : List Byte} (h : decodeOne buf 0 = none) : decodeBuffer buf = ([], 0) :=
  decodeBuffer_of_scan (.stop 0 h)

/-- A whole candidate comes first, the rest is the decoding of the bytes after it. -/
theorem decodeBuffer_some {buf : List Byte} {f : BusFrame} {n : Nat} (h : decodeOne buf 0 = some (f, n)) :
    decodeBuffer buf = (f :: (decodeBuffer (buf.drop n)).1, n + (decodeBuffer (buf.drop n)).2) := by
  apply decodeBuffer_of_scan
  refine .more 0 n _ f _ h ?_
  have := Scan_drop n (decodeBuffer_scan (buf.drop n))
  simpa using this

/-- A scan always ends at an `Incomplete` candidate, an empty rest included (R122, R124). -/
@[simp] theorem scanIncomplete_eq (buf : List Byte) : scanIncomplete buf = true := by
  have h := (decodeBuffer_spec buf).2.2
  rw [scanIncomplete, decodeOne_drop, ← undecodedTail, h]; rfl

end Sys2Proof.Machine
end

