-- ==== Sys2Proof/Laws/Decode.lean ====
section
/-! SUPPORT. Each operand parser gives back what its encoder wrote, whatever bytes follow (log 2). -/

namespace Sys2Proof

open Machine

@[simp] theorem parseThen_eq {α β : Type} (p : Parse α) (f : α → Parse β) (bs : List Byte) (a : α) (rest : List Byte)
    (h : p bs = .ok (a, rest)) : parseThen p f bs = f a rest := by
  simp [parseThen, h]

@[simp] theorem parseByte_cons (b : Byte) (rest : List Byte) : parseByte (b :: rest) = .ok (b, rest) := rfl

theorem parseSmall_encode {w : Nat} (hw : w ≤ 8) (v : BitVec w) (rest : List Byte) :
    parseSmall w (v.setWidth 8 :: rest) = .ok (v, rest) := by
  have hv : v.toNat < 2 ^ w := v.isLt
  have h8 : 2 ^ w ≤ 2 ^ 8 := Nat.pow_le_pow_right (by omega) hw
  have e : (v.setWidth 8).toNat = v.toNat := by rw [BitVec.toNat_setWidth]; exact Nat.mod_eq_of_lt (by omega)
  rw [parseSmall, parseThen_eq _ _ _ _ _ (parseByte_cons _ _), e, if_pos hv, BitVec.ofNat_toNat, BitVec.setWidth_eq]

theorem parseQueue_encode (q : QSel) (rest : List Byte) : parseQueue (encodeQueue q ++ rest) = .ok (q, rest) := by
  cases q <;> rfl

theorem parseBits2_encode (e r : Bool) (rest : List Byte) :
    parseBits2 (flagsByte e r :: rest) = .ok ((e, r), rest) := by
  cases e <;> cases r <;> rfl

theorem parseWord32_encode (v : BitVec 32) (rest : List Byte) :
    parseWord32 (encodeWord32 v ++ rest) = .ok (v, rest) := by
  show Except.ok (assembleId _ _ _ _, rest) = _
  rw [assembleId_idByte]

theorem parseNarrow_encode {w : Nat} (hw : w ≤ 32) (v : BitVec w) (rest : List Byte) :
    parseNarrow w (encodeWord32 (v.setWidth 32) ++ rest) = .ok (v, rest) := by
  have hv : v.toNat < 2 ^ w := v.isLt
  have h32 : 2 ^ w ≤ 2 ^ 32 := Nat.pow_le_pow_right (by omega) hw
  have e : (v.setWidth 32).toNat = v.toNat := by rw [BitVec.toNat_setWidth]; exact Nat.mod_eq_of_lt (by omega)
  rw [parseNarrow, parseThen_eq _ _ _ _ _ (parseWord32_encode _ _), e, if_pos hv, BitVec.ofNat_toNat, BitVec.setWidth_eq]

theorem parseBytes_encode (bs rest : List Byte) : parseBytes (encodeBytes bs ++ rest) = .ok (bs, rest) := by
  induction bs with
  | nil =>
    cases rest with
    | nil => rfl
    | cons b rest => simp [encodeBytes, parseBytes]
  | cons b bs ih => simp [encodeBytes, parseBytes, ih]

theorem parseBytes1_encode {bs : List Byte} (h : bs ≠ []) (rest : List Byte) :
    parseBytes1 (encodeBytes1 bs ++ rest) = .ok (bs, rest) := by
  cases bs with
  | nil => exact absurd rfl h
  | cons b bs =>
    rw [encodeBytes1, List.cons_append, parseBytes1, parseThen_eq _ _ _ _ _ (parseByte_cons _ _),
      parseThen_eq _ _ _ _ _ (parseBytes_encode _ _)]
    rfl

/-- The digits of a number give it back, when there is room for them. -/
theorem natOfBytes_bytesOfNat (k n : Nat) (h : n < 256 ^ k) : natOfBytes (bytesOfNat k n) = n := by
  induction k generalizing n with
  | zero => simp at h; simp [bytesOfNat, natOfBytes, h]
  | succ k ih =>
    unfold bytesOfNat
    split
    · simp_all [natOfBytes]
    · rw [natOfBytes, ih (n / 256) (by rw [Nat.pow_succ] at h; omega), BitVec.toNat_ofNat]
      omega

theorem parseHandle_encode (h : Handle) (rest : List Byte) : parseHandle (encodeHandle h ++ rest) = .ok (h, rest) := by
  rw [parseHandle, encodeHandle, parseThen_eq _ _ _ _ _ (parseBytes_encode _ _),
    natOfBytes_bytesOfNat _ _ (Nat.lt_pow_self (by omega))]
  rfl

theorem parseFrame_encode (f : BusFrame) (rest : List Byte) :
    parseFrame (encodeFrameOperand f ++ rest) = .ok (f, rest) := by
  rw [encodeFrameOperand, List.append_assoc, List.append_assoc, List.append_assoc, List.singleton_append, parseFrame,
    parseThen_eq _ _ _ _ _ (parseBits2_encode _ _ _), parseThen_eq _ _ _ _ _ (parseWord32_encode _ _),
    List.singleton_append, parseThen_eq _ _ _ _ _ (parseSmall_encode (by omega) _ _),
    parseThen_eq _ _ _ _ _ (parseBytes_encode _ _)]
  rfl

theorem parseOctets_encode (o : Octets) (rest : List Byte) : parseOctets (o.toList ++ rest) = .ok (o, rest) := rfl

theorem parsePFrame_encode (p : PFrame) (rest : List Byte) :
    parsePFrame (encodePFrame p ++ rest) = .ok (p, rest) := by
  rw [encodePFrame, List.append_assoc, List.append_assoc, List.append_assoc, List.append_assoc, List.singleton_append,
    parsePFrame, parseThen_eq _ _ _ _ _ (parseBits2_encode _ _ _),
    parseThen_eq _ _ _ _ _ (parseNarrow_encode (by omega) _ _), parseThen_eq _ _ _ _ _ (parseNarrow_encode (by omega) _ _),
    List.singleton_append, parseThen_eq _ _ _ _ _ (parseSmall_encode (by omega) _ _),
    parseThen_eq _ _ _ _ _ (parseOctets_encode _ _)]
  rfl

/-- A whole candidate and nothing more, or an incomplete one, is read as it stands (R122). -/
theorem decodeWire_encodable {buf : List Byte} (h : (Instr.wireFrame buf).encodable = true) :
    decodeWire buf = .ok (.wireFrame buf, []) := by
  unfold Instr.encodable at h
  unfold decodeWire
  cases hd : decodeOne buf 0 with
  | none => rfl
  | some x =>
    obtain ⟨f, n⟩ := x
    have hn : n = buf.length := by simpa [hd] using h
    simp [hn]

end Sys2Proof
end

