-- ==== Sys2Proof/Laws/State.lean ====
section
/-! SUPPORT. One lemma per field per update of the state, true by rfl, so that no later proof unfolds a record update. -/

namespace Sys2Proof.Machine

@[simp] theorem State.setQueue_rx_rx (s : State) (Q : FrameQueue) : (s.setQueue .rx Q).rx = Q := rfl
@[simp] theorem State.setQueue_rx_tx (s : State) (Q : FrameQueue) : (s.setQueue .rx Q).tx = s.tx := rfl
@[simp] theorem State.setQueue_rx_pend (s : State) (Q : FrameQueue) : (s.setQueue .rx Q).pend = s.pend := rfl
@[simp] theorem State.setQueue_rx_alSlot (s : State) (Q : FrameQueue) : (s.setQueue .rx Q).alSlot = s.alSlot := rfl
@[simp] theorem State.setQueue_rx_clRec (s : State) (Q : FrameQueue) : (s.setQueue .rx Q).clRec = s.clRec := rfl
@[simp] theorem State.setQueue_rx_clRetryRef (s : State) (Q : FrameQueue) : (s.setQueue .rx Q).clRetryRef = s.clRetryRef := rfl
@[simp] theorem State.setQueue_rx_slListening (s : State) (Q : FrameQueue) : (s.setQueue .rx Q).slListening = s.slListening := rfl
@[simp] theorem State.setQueue_rx_slRec (s : State) (Q : FrameQueue) : (s.setQueue .rx Q).slRec = s.slRec := rfl
@[simp] theorem State.setQueue_rx_inflight (s : State) (Q : FrameQueue) : (s.setQueue .rx Q).inflight = s.inflight := rfl
@[simp] theorem State.setQueue_rx_agent (s : State) (Q : FrameQueue) : (s.setQueue .rx Q).agent = s.agent := rfl
@[simp] theorem State.setQueue_rx_cfg (s : State) (Q : FrameQueue) : (s.setQueue .rx Q).cfg = s.cfg := rfl
@[simp] theorem State.setQueue_rx_inbox (s : State) (Q : FrameQueue) : (s.setQueue .rx Q).inbox = s.inbox := rfl
@[simp] theorem State.setQueue_rx_env (s : State) (Q : FrameQueue) : (s.setQueue .rx Q).env = s.env := rfl
@[simp] theorem State.setQueue_rx_out (s : State) (Q : FrameQueue) : (s.setQueue .rx Q).out = s.out := rfl
@[simp] theorem State.setQueue_tx_rx (s : State) (Q : FrameQueue) : (s.setQueue .tx Q).rx = s.rx := rfl
@[simp] theorem State.setQueue_tx_tx (s : State) (Q : FrameQueue) : (s.setQueue .tx Q).tx = Q := rfl
@[simp] theorem State.setQueue_tx_pend (s : State) (Q : FrameQueue) : (s.setQueue .tx Q).pend = s.pend := rfl
@[simp] theorem State.setQueue_tx_alSlot (s : State) (Q : FrameQueue) : (s.setQueue .tx Q).alSlot = s.alSlot := rfl
@[simp] theorem State.setQueue_tx_clRec (s : State) (Q : FrameQueue) : (s.setQueue .tx Q).clRec = s.clRec := rfl
@[simp] theorem State.setQueue_tx_clRetryRef (s : State) (Q : FrameQueue) : (s.setQueue .tx Q).clRetryRef = s.clRetryRef := rfl
@[simp] theorem State.setQueue_tx_slListening (s : State) (Q : FrameQueue) : (s.setQueue .tx Q).slListening = s.slListening := rfl
@[simp] theorem State.setQueue_tx_slRec (s : State) (Q : FrameQueue) : (s.setQueue .tx Q).slRec = s.slRec := rfl
@[simp] theorem State.setQueue_tx_inflight (s : State) (Q : FrameQueue) : (s.setQueue .tx Q).inflight = s.inflight := rfl
@[simp] theorem State.setQueue_tx_agent (s : State) (Q : FrameQueue) : (s.setQueue .tx Q).agent = s.agent := rfl
@[simp] theorem State.setQueue_tx_cfg (s : State) (Q : FrameQueue) : (s.setQueue .tx Q).cfg = s.cfg := rfl
@[simp] theorem State.setQueue_tx_inbox (s : State) (Q : FrameQueue) : (s.setQueue .tx Q).inbox = s.inbox := rfl
@[simp] theorem State.setQueue_tx_env (s : State) (Q : FrameQueue) : (s.setQueue .tx Q).env = s.env := rfl
@[simp] theorem State.setQueue_tx_out (s : State) (Q : FrameQueue) : (s.setQueue .tx Q).out = s.out := rfl

@[simp] theorem State.setPend_rx (s : State) (b : Bool) : (s.setPend b).rx = s.rx := rfl
@[simp] theorem State.setPend_tx (s : State) (b : Bool) : (s.setPend b).tx = s.tx := rfl
@[simp] theorem State.setPend_pend (s : State) (b : Bool) : (s.setPend b).pend = b := rfl
@[simp] theorem State.setPend_alSlot (s : State) (b : Bool) : (s.setPend b).alSlot = s.alSlot := rfl
@[simp] theorem State.setPend_clRec (s : State) (b : Bool) : (s.setPend b).clRec = s.clRec := rfl
@[simp] theorem State.setPend_clRetryRef (s : State) (b : Bool) : (s.setPend b).clRetryRef = s.clRetryRef := rfl
@[simp] theorem State.setPend_slListening (s : State) (b : Bool) : (s.setPend b).slListening = s.slListening := rfl
@[simp] theorem State.setPend_slRec (s : State) (b : Bool) : (s.setPend b).slRec = s.slRec := rfl
@[simp] theorem State.setPend_inflight (s : State) (b : Bool) : (s.setPend b).inflight = s.inflight := rfl
@[simp] theorem State.setPend_agent (s : State) (b : Bool) : (s.setPend b).agent = s.agent := rfl
@[simp] theorem State.setPend_cfg (s : State) (b : Bool) : (s.setPend b).cfg = s.cfg := rfl
@[simp] theorem State.setPend_inbox (s : State) (b : Bool) : (s.setPend b).inbox = s.inbox := rfl
@[simp] theorem State.setPend_env (s : State) (b : Bool) : (s.setPend b).env = s.env := rfl
@[simp] theorem State.setPend_out (s : State) (b : Bool) : (s.setPend b).out = s.out := rfl

@[simp] theorem State.setAlSlot_rx (s : State) (a : Option Handle) : (s.setAlSlot a).rx = s.rx := rfl
@[simp] theorem State.setAlSlot_tx (s : State) (a : Option Handle) : (s.setAlSlot a).tx = s.tx := rfl
@[simp] theorem State.setAlSlot_pend (s : State) (a : Option Handle) : (s.setAlSlot a).pend = s.pend := rfl
@[simp] theorem State.setAlSlot_alSlot (s : State) (a : Option Handle) : (s.setAlSlot a).alSlot = a := rfl
@[simp] theorem State.setAlSlot_clRec (s : State) (a : Option Handle) : (s.setAlSlot a).clRec = s.clRec := rfl
@[simp] theorem State.setAlSlot_clRetryRef (s : State) (a : Option Handle) : (s.setAlSlot a).clRetryRef = s.clRetryRef := rfl
@[simp] theorem State.setAlSlot_slListening (s : State) (a : Option Handle) : (s.setAlSlot a).slListening = s.slListening := rfl
@[simp] theorem State.setAlSlot_slRec (s : State) (a : Option Handle) : (s.setAlSlot a).slRec = s.slRec := rfl
@[simp] theorem State.setAlSlot_inflight (s : State) (a : Option Handle) : (s.setAlSlot a).inflight = s.inflight := rfl
@[simp] theorem State.setAlSlot_agent (s : State) (a : Option Handle) : (s.setAlSlot a).agent = s.agent := rfl
@[simp] theorem State.setAlSlot_cfg (s : State) (a : Option Handle) : (s.setAlSlot a).cfg = s.cfg := rfl
@[simp] theorem State.setAlSlot_inbox (s : State) (a : Option Handle) : (s.setAlSlot a).inbox = s.inbox := rfl
@[simp] theorem State.setAlSlot_env (s : State) (a : Option Handle) : (s.setAlSlot a).env = s.env := rfl
@[simp] theorem State.setAlSlot_out (s : State) (a : Option Handle) : (s.setAlSlot a).out = s.out := rfl

@[simp] theorem State.setClRec_rx (s : State) (r : Option ClientRec) : (s.setClRec r).rx = s.rx := rfl
@[simp] theorem State.setClRec_tx (s : State) (r : Option ClientRec) : (s.setClRec r).tx = s.tx := rfl
@[simp] theorem State.setClRec_pend (s : State) (r : Option ClientRec) : (s.setClRec r).pend = s.pend := rfl
@[simp] theorem State.setClRec_alSlot (s : State) (r : Option ClientRec) : (s.setClRec r).alSlot = s.alSlot := rfl
@[simp] theorem State.setClRec_clRec (s : State) (r : Option ClientRec) : (s.setClRec r).clRec = r := rfl
@[simp] theorem State.setClRec_clRetryRef (s : State) (r : Option ClientRec) : (s.setClRec r).clRetryRef = s.clRetryRef := rfl
@[simp] theorem State.setClRec_slListening (s : State) (r : Option ClientRec) : (s.setClRec r).slListening = s.slListening := rfl
@[simp] theorem State.setClRec_slRec (s : State) (r : Option ClientRec) : (s.setClRec r).slRec = s.slRec := rfl
@[simp] theorem State.setClRec_inflight (s : State) (r : Option ClientRec) : (s.setClRec r).inflight = s.inflight := rfl
@[simp] theorem State.setClRec_agent (s : State) (r : Option ClientRec) : (s.setClRec r).agent = s.agent := rfl
@[simp] theorem State.setClRec_cfg (s : State) (r : Option ClientRec) : (s.setClRec r).cfg = s.cfg := rfl
@[simp] theorem State.setClRec_inbox (s : State) (r : Option ClientRec) : (s.setClRec r).inbox = s.inbox := rfl
@[simp] theorem State.setClRec_env (s : State) (r : Option ClientRec) : (s.setClRec r).env = s.env := rfl
@[simp] theorem State.setClRec_out (s : State) (r : Option ClientRec) : (s.setClRec r).out = s.out := rfl

@[simp] theorem State.setClRetryRef_rx (s : State) (t : Option Time) : (s.setClRetryRef t).rx = s.rx := rfl
@[simp] theorem State.setClRetryRef_tx (s : State) (t : Option Time) : (s.setClRetryRef t).tx = s.tx := rfl
@[simp] theorem State.setClRetryRef_pend (s : State) (t : Option Time) : (s.setClRetryRef t).pend = s.pend := rfl
@[simp] theorem State.setClRetryRef_alSlot (s : State) (t : Option Time) : (s.setClRetryRef t).alSlot = s.alSlot := rfl
@[simp] theorem State.setClRetryRef_clRec (s : State) (t : Option Time) : (s.setClRetryRef t).clRec = s.clRec := rfl
@[simp] theorem State.setClRetryRef_clRetryRef (s : State) (t : Option Time) : (s.setClRetryRef t).clRetryRef = t := rfl
@[simp] theorem State.setClRetryRef_slListening (s : State) (t : Option Time) : (s.setClRetryRef t).slListening = s.slListening := rfl
@[simp] theorem State.setClRetryRef_slRec (s : State) (t : Option Time) : (s.setClRetryRef t).slRec = s.slRec := rfl
@[simp] theorem State.setClRetryRef_inflight (s : State) (t : Option Time) : (s.setClRetryRef t).inflight = s.inflight := rfl
@[simp] theorem State.setClRetryRef_agent (s : State) (t : Option Time) : (s.setClRetryRef t).agent = s.agent := rfl
@[simp] theorem State.setClRetryRef_cfg (s : State) (t : Option Time) : (s.setClRetryRef t).cfg = s.cfg := rfl
@[simp] theorem State.setClRetryRef_inbox (s : State) (t : Option Time) : (s.setClRetryRef t).inbox = s.inbox := rfl
@[simp] theorem State.setClRetryRef_env (s : State) (t : Option Time) : (s.setClRetryRef t).env = s.env := rfl
@[simp] theorem State.setClRetryRef_out (s : State) (t : Option Time) : (s.setClRetryRef t).out = s.out := rfl

@[simp] theorem State.setSlListening_rx (s : State) (b : Bool) : (s.setSlListening b).rx = s.rx := rfl
@[simp] theorem State.setSlListening_tx (s : State) (b : Bool) : (s.setSlListening b).tx = s.tx := rfl
@[simp] theorem State.setSlListening_pend (s : State) (b : Bool) : (s.setSlListening b).pend = s.pend := rfl
@[simp] theorem State.setSlListening_alSlot (s : State) (b : Bool) : (s.setSlListening b).alSlot = s.alSlot := rfl
@[simp] theorem State.setSlListening_clRec (s : State) (b : Bool) : (s.setSlListening b).clRec = s.clRec := rfl
@[simp] theorem State.setSlListening_clRetryRef (s : State) (b : Bool) : (s.setSlListening b).clRetryRef = s.clRetryRef := rfl
@[simp] theorem State.setSlListening_slListening (s : State) (b : Bool) : (s.setSlListening b).slListening = b := rfl
@[simp] theorem State.setSlListening_slRec (s : State) (b : Bool) : (s.setSlListening b).slRec = s.slRec := rfl
@[simp] theorem State.setSlListening_inflight (s : State) (b : Bool) : (s.setSlListening b).inflight = s.inflight := rfl
@[simp] theorem State.setSlListening_agent (s : State) (b : Bool) : (s.setSlListening b).agent = s.agent := rfl
@[simp] theorem State.setSlListening_cfg (s : State) (b : Bool) : (s.setSlListening b).cfg = s.cfg := rfl
@[simp] theorem State.setSlListening_inbox (s : State) (b : Bool) : (s.setSlListening b).inbox = s.inbox := rfl
@[simp] theorem State.setSlListening_env (s : State) (b : Bool) : (s.setSlListening b).env = s.env := rfl
@[simp] theorem State.setSlListening_out (s : State) (b : Bool) : (s.setSlListening b).out = s.out := rfl

@[simp] theorem State.setSlRec_rx (s : State) (r : Option ServerRec) : (s.setSlRec r).rx = s.rx := rfl
@[simp] theorem State.setSlRec_tx (s : State) (r : Option ServerRec) : (s.setSlRec r).tx = s.tx := rfl
@[simp] theorem State.setSlRec_pend (s : State) (r : Option ServerRec) : (s.setSlRec r).pend = s.pend := rfl
@[simp] theorem State.setSlRec_alSlot (s : State) (r : Option ServerRec) : (s.setSlRec r).alSlot = s.alSlot := rfl
@[simp] theorem State.setSlRec_clRec (s : State) (r : Option ServerRec) : (s.setSlRec r).clRec = s.clRec := rfl
@[simp] theorem State.setSlRec_clRetryRef (s : State) (r : Option ServerRec) : (s.setSlRec r).clRetryRef = s.clRetryRef := rfl
@[simp] theorem State.setSlRec_slListening (s : State) (r : Option ServerRec) : (s.setSlRec r).slListening = s.slListening := rfl
@[simp] theorem State.setSlRec_slRec (s : State) (r : Option ServerRec) : (s.setSlRec r).slRec = r := rfl
@[simp] theorem State.setSlRec_inflight (s : State) (r : Option ServerRec) : (s.setSlRec r).inflight = s.inflight := rfl
@[simp] theorem State.setSlRec_agent (s : State) (r : Option ServerRec) : (s.setSlRec r).agent = s.agent := rfl
@[simp] theorem State.setSlRec_cfg (s : State) (r : Option ServerRec) : (s.setSlRec r).cfg = s.cfg := rfl
@[simp] theorem State.setSlRec_inbox (s : State) (r : Option ServerRec) : (s.setSlRec r).inbox = s.inbox := rfl
@[simp] theorem State.setSlRec_env (s : State) (r : Option ServerRec) : (s.setSlRec r).env = s.env := rfl
@[simp] theorem State.setSlRec_out (s : State) (r : Option ServerRec) : (s.setSlRec r).out = s.out := rfl

@[simp] theorem State.setPush_rx (s : State) (p : PushRegs) : (s.setPush p).rx = s.rx := rfl
@[simp] theorem State.setPush_tx (s : State) (p : PushRegs) : (s.setPush p).tx = s.tx := rfl
@[simp] theorem State.setPush_pend (s : State) (p : PushRegs) : (s.setPush p).pend = s.pend := rfl
@[simp] theorem State.setPush_alSlot (s : State) (p : PushRegs) : (s.setPush p).alSlot = s.alSlot := rfl
@[simp] theorem State.setPush_clRec (s : State) (p : PushRegs) : (s.setPush p).clRec = s.clRec := rfl
@[simp] theorem State.setPush_clRetryRef (s : State) (p : PushRegs) : (s.setPush p).clRetryRef = s.clRetryRef := rfl
@[simp] theorem State.setPush_slListening (s : State) (p : PushRegs) : (s.setPush p).slListening = s.slListening := rfl
@[simp] theorem State.setPush_slRec (s : State) (p : PushRegs) : (s.setPush p).slRec = s.slRec := rfl
@[simp] theorem State.setPush_inflight (s : State) (p : PushRegs) : (s.setPush p).inflight = { s.inflight with push := p } := rfl
@[simp] theorem State.setPush_agent (s : State) (p : PushRegs) : (s.setPush p).agent = s.agent := rfl
@[simp] theorem State.setPush_cfg (s : State) (p : PushRegs) : (s.setPush p).cfg = s.cfg := rfl
@[simp] theorem State.setPush_inbox (s : State) (p : PushRegs) : (s.setPush p).inbox = s.inbox := rfl
@[simp] theorem State.setPush_env (s : State) (p : PushRegs) : (s.setPush p).env = s.env := rfl
@[simp] theorem State.setPush_out (s : State) (p : PushRegs) : (s.setPush p).out = s.out := rfl

@[simp] theorem State.setPop_rx (s : State) (p : PopRegs) : (s.setPop p).rx = s.rx := rfl
@[simp] theorem State.setPop_tx (s : State) (p : PopRegs) : (s.setPop p).tx = s.tx := rfl
@[simp] theorem State.setPop_pend (s : State) (p : PopRegs) : (s.setPop p).pend = s.pend := rfl
@[simp] theorem State.setPop_alSlot (s : State) (p : PopRegs) : (s.setPop p).alSlot = s.alSlot := rfl
@[simp] theorem State.setPop_clRec (s : State) (p : PopRegs) : (s.setPop p).clRec = s.clRec := rfl
@[simp] theorem State.setPop_clRetryRef (s : State) (p : PopRegs) : (s.setPop p).clRetryRef = s.clRetryRef := rfl
@[simp] theorem State.setPop_slListening (s : State) (p : PopRegs) : (s.setPop p).slListening = s.slListening := rfl
@[simp] theorem State.setPop_slRec (s : State) (p : PopRegs) : (s.setPop p).slRec = s.slRec := rfl
@[simp] theorem State.setPop_inflight (s : State) (p : PopRegs) : (s.setPop p).inflight = { s.inflight with pop := p } := rfl
@[simp] theorem State.setPop_agent (s : State) (p : PopRegs) : (s.setPop p).agent = s.agent := rfl
@[simp] theorem State.setPop_cfg (s : State) (p : PopRegs) : (s.setPop p).cfg = s.cfg := rfl
@[simp] theorem State.setPop_inbox (s : State) (p : PopRegs) : (s.setPop p).inbox = s.inbox := rfl
@[simp] theorem State.setPop_env (s : State) (p : PopRegs) : (s.setPop p).env = s.env := rfl
@[simp] theorem State.setPop_out (s : State) (p : PopRegs) : (s.setPop p).out = s.out := rfl

@[simp] theorem State.setEgress_rx (s : State) (e : Option EgressRegs) : (s.setEgress e).rx = s.rx := rfl
@[simp] theorem State.setEgress_tx (s : State) (e : Option EgressRegs) : (s.setEgress e).tx = s.tx := rfl
@[simp] theorem State.setEgress_pend (s : State) (e : Option EgressRegs) : (s.setEgress e).pend = s.pend := rfl
@[simp] theorem State.setEgress_alSlot (s : State) (e : Option EgressRegs) : (s.setEgress e).alSlot = s.alSlot := rfl
@[simp] theorem State.setEgress_clRec (s : State) (e : Option EgressRegs) : (s.setEgress e).clRec = s.clRec := rfl
@[simp] theorem State.setEgress_clRetryRef (s : State) (e : Option EgressRegs) : (s.setEgress e).clRetryRef = s.clRetryRef := rfl
@[simp] theorem State.setEgress_slListening (s : State) (e : Option EgressRegs) : (s.setEgress e).slListening = s.slListening := rfl
@[simp] theorem State.setEgress_slRec (s : State) (e : Option EgressRegs) : (s.setEgress e).slRec = s.slRec := rfl
@[simp] theorem State.setEgress_inflight (s : State) (e : Option EgressRegs) : (s.setEgress e).inflight = { s.inflight with egress := e } := rfl
@[simp] theorem State.setEgress_agent (s : State) (e : Option EgressRegs) : (s.setEgress e).agent = s.agent := rfl
@[simp] theorem State.setEgress_cfg (s : State) (e : Option EgressRegs) : (s.setEgress e).cfg = s.cfg := rfl
@[simp] theorem State.setEgress_inbox (s : State) (e : Option EgressRegs) : (s.setEgress e).inbox = s.inbox := rfl
@[simp] theorem State.setEgress_env (s : State) (e : Option EgressRegs) : (s.setEgress e).env = s.env := rfl
@[simp] theorem State.setEgress_out (s : State) (e : Option EgressRegs) : (s.setEgress e).out = s.out := rfl

@[simp] theorem State.setAgent_rx (s : State) (a : Agent) : (s.setAgent a).rx = s.rx := rfl
@[simp] theorem State.setAgent_tx (s : State) (a : Agent) : (s.setAgent a).tx = s.tx := rfl
@[simp] theorem State.setAgent_pend (s : State) (a : Agent) : (s.setAgent a).pend = s.pend := rfl
@[simp] theorem State.setAgent_alSlot (s : State) (a : Agent) : (s.setAgent a).alSlot = s.alSlot := rfl
@[simp] theorem State.setAgent_clRec (s : State) (a : Agent) : (s.setAgent a).clRec = s.clRec := rfl
@[simp] theorem State.setAgent_clRetryRef (s : State) (a : Agent) : (s.setAgent a).clRetryRef = s.clRetryRef := rfl
@[simp] theorem State.setAgent_slListening (s : State) (a : Agent) : (s.setAgent a).slListening = s.slListening := rfl
@[simp] theorem State.setAgent_slRec (s : State) (a : Agent) : (s.setAgent a).slRec = s.slRec := rfl
@[simp] theorem State.setAgent_inflight (s : State) (a : Agent) : (s.setAgent a).inflight = s.inflight := rfl
@[simp] theorem State.setAgent_agent (s : State) (a : Agent) : (s.setAgent a).agent = a := rfl
@[simp] theorem State.setAgent_cfg (s : State) (a : Agent) : (s.setAgent a).cfg = s.cfg := rfl
@[simp] theorem State.setAgent_inbox (s : State) (a : Agent) : (s.setAgent a).inbox = s.inbox := rfl
@[simp] theorem State.setAgent_env (s : State) (a : Agent) : (s.setAgent a).env = s.env := rfl
@[simp] theorem State.setAgent_out (s : State) (a : Agent) : (s.setAgent a).out = s.out := rfl

@[simp] theorem State.setInbox_rx (s : State) (l : List Invocation) : (s.setInbox l).rx = s.rx := rfl
@[simp] theorem State.setInbox_tx (s : State) (l : List Invocation) : (s.setInbox l).tx = s.tx := rfl
@[simp] theorem State.setInbox_pend (s : State) (l : List Invocation) : (s.setInbox l).pend = s.pend := rfl
@[simp] theorem State.setInbox_alSlot (s : State) (l : List Invocation) : (s.setInbox l).alSlot = s.alSlot := rfl
@[simp] theorem State.setInbox_clRec (s : State) (l : List Invocation) : (s.setInbox l).clRec = s.clRec := rfl
@[simp] theorem State.setInbox_clRetryRef (s : State) (l : List Invocation) : (s.setInbox l).clRetryRef = s.clRetryRef := rfl
@[simp] theorem State.setInbox_slListening (s : State) (l : List Invocation) : (s.setInbox l).slListening = s.slListening := rfl
@[simp] theorem State.setInbox_slRec (s : State) (l : List Invocation) : (s.setInbox l).slRec = s.slRec := rfl
@[simp] theorem State.setInbox_inflight (s : State) (l : List Invocation) : (s.setInbox l).inflight = s.inflight := rfl
@[simp] theorem State.setInbox_agent (s : State) (l : List Invocation) : (s.setInbox l).agent = s.agent := rfl
@[simp] theorem State.setInbox_cfg (s : State) (l : List Invocation) : (s.setInbox l).cfg = s.cfg := rfl
@[simp] theorem State.setInbox_inbox (s : State) (l : List Invocation) : (s.setInbox l).inbox = l := rfl
@[simp] theorem State.setInbox_env (s : State) (l : List Invocation) : (s.setInbox l).env = s.env := rfl
@[simp] theorem State.setInbox_out (s : State) (l : List Invocation) : (s.setInbox l).out = s.out := rfl

@[simp] theorem State.setEnv_rx (s : State) (e : Env) : (s.setEnv e).rx = s.rx := rfl
@[simp] theorem State.setEnv_tx (s : State) (e : Env) : (s.setEnv e).tx = s.tx := rfl
@[simp] theorem State.setEnv_pend (s : State) (e : Env) : (s.setEnv e).pend = s.pend := rfl
@[simp] theorem State.setEnv_alSlot (s : State) (e : Env) : (s.setEnv e).alSlot = s.alSlot := rfl
@[simp] theorem State.setEnv_clRec (s : State) (e : Env) : (s.setEnv e).clRec = s.clRec := rfl
@[simp] theorem State.setEnv_clRetryRef (s : State) (e : Env) : (s.setEnv e).clRetryRef = s.clRetryRef := rfl
@[simp] theorem State.setEnv_slListening (s : State) (e : Env) : (s.setEnv e).slListening = s.slListening := rfl
@[simp] theorem State.setEnv_slRec (s : State) (e : Env) : (s.setEnv e).slRec = s.slRec := rfl
@[simp] theorem State.setEnv_inflight (s : State) (e : Env) : (s.setEnv e).inflight = s.inflight := rfl
@[simp] theorem State.setEnv_agent (s : State) (e : Env) : (s.setEnv e).agent = s.agent := rfl
@[simp] theorem State.setEnv_cfg (s : State) (e : Env) : (s.setEnv e).cfg = s.cfg := rfl
@[simp] theorem State.setEnv_inbox (s : State) (e : Env) : (s.setEnv e).inbox = s.inbox := rfl
@[simp] theorem State.setEnv_env (s : State) (e : Env) : (s.setEnv e).env = e := rfl
@[simp] theorem State.setEnv_out (s : State) (e : Env) : (s.setEnv e).out = s.out := rfl

@[simp] theorem State.setOut_rx (s : State) (o : Output) : (s.setOut o).rx = s.rx := rfl
@[simp] theorem State.setOut_tx (s : State) (o : Output) : (s.setOut o).tx = s.tx := rfl
@[simp] theorem State.setOut_pend (s : State) (o : Output) : (s.setOut o).pend = s.pend := rfl
@[simp] theorem State.setOut_alSlot (s : State) (o : Output) : (s.setOut o).alSlot = s.alSlot := rfl
@[simp] theorem State.setOut_clRec (s : State) (o : Output) : (s.setOut o).clRec = s.clRec := rfl
@[simp] theorem State.setOut_clRetryRef (s : State) (o : Output) : (s.setOut o).clRetryRef = s.clRetryRef := rfl
@[simp] theorem State.setOut_slListening (s : State) (o : Output) : (s.setOut o).slListening = s.slListening := rfl
@[simp] theorem State.setOut_slRec (s : State) (o : Output) : (s.setOut o).slRec = s.slRec := rfl
@[simp] theorem State.setOut_inflight (s : State) (o : Output) : (s.setOut o).inflight = s.inflight := rfl
@[simp] theorem State.setOut_agent (s : State) (o : Output) : (s.setOut o).agent = s.agent := rfl
@[simp] theorem State.setOut_cfg (s : State) (o : Output) : (s.setOut o).cfg = s.cfg := rfl
@[simp] theorem State.setOut_inbox (s : State) (o : Output) : (s.setOut o).inbox = s.inbox := rfl
@[simp] theorem State.setOut_env (s : State) (o : Output) : (s.setOut o).env = s.env := rfl
@[simp] theorem State.setOut_out (s : State) (o : Output) : (s.setOut o).out = o := rfl

@[simp] theorem State.fresh_rx (s : State) : (s.fresh).rx = s.rx := rfl
@[simp] theorem State.fresh_tx (s : State) : (s.fresh).tx = s.tx := rfl
@[simp] theorem State.fresh_pend (s : State) : (s.fresh).pend = s.pend := rfl
@[simp] theorem State.fresh_alSlot (s : State) : (s.fresh).alSlot = s.alSlot := rfl
@[simp] theorem State.fresh_clRec (s : State) : (s.fresh).clRec = s.clRec := rfl
@[simp] theorem State.fresh_clRetryRef (s : State) : (s.fresh).clRetryRef = s.clRetryRef := rfl
@[simp] theorem State.fresh_slListening (s : State) : (s.fresh).slListening = s.slListening := rfl
@[simp] theorem State.fresh_slRec (s : State) : (s.fresh).slRec = s.slRec := rfl
@[simp] theorem State.fresh_inflight (s : State) : (s.fresh).inflight = s.inflight := rfl
@[simp] theorem State.fresh_agent (s : State) : (s.fresh).agent = s.agent := rfl
@[simp] theorem State.fresh_cfg (s : State) : (s.fresh).cfg = s.cfg := rfl
@[simp] theorem State.fresh_inbox (s : State) : (s.fresh).inbox = s.inbox := rfl
@[simp] theorem State.fresh_env (s : State) : (s.fresh).env = s.env := rfl
@[simp] theorem State.fresh_out (s : State) : (s.fresh).out = ({} : Output) := rfl

@[simp] theorem State.emit_rx (s : State) (c : Command) : (s.emit c).rx = s.rx := rfl
@[simp] theorem State.emit_tx (s : State) (c : Command) : (s.emit c).tx = s.tx := rfl
@[simp] theorem State.emit_pend (s : State) (c : Command) : (s.emit c).pend = s.pend := rfl
@[simp] theorem State.emit_alSlot (s : State) (c : Command) : (s.emit c).alSlot = s.alSlot := rfl
@[simp] theorem State.emit_clRec (s : State) (c : Command) : (s.emit c).clRec = s.clRec := rfl
@[simp] theorem State.emit_clRetryRef (s : State) (c : Command) : (s.emit c).clRetryRef = s.clRetryRef := rfl
@[simp] theorem State.emit_slListening (s : State) (c : Command) : (s.emit c).slListening = s.slListening := rfl
@[simp] theorem State.emit_slRec (s : State) (c : Command) : (s.emit c).slRec = s.slRec := rfl
@[simp] theorem State.emit_inflight (s : State) (c : Command) : (s.emit c).inflight = s.inflight := rfl
@[simp] theorem State.emit_agent (s : State) (c : Command) : (s.emit c).agent = s.agent := rfl
@[simp] theorem State.emit_cfg (s : State) (c : Command) : (s.emit c).cfg = s.cfg := rfl
@[simp] theorem State.emit_inbox (s : State) (c : Command) : (s.emit c).inbox = s.inbox := rfl
@[simp] theorem State.emit_env (s : State) (c : Command) : (s.emit c).env = s.env := rfl
@[simp] theorem State.emit_out (s : State) (c : Command) : (s.emit c).out = { s.out with cmds := s.out.cmds ++ [c] } := rfl

@[simp] theorem State.raise_rx (s : State) (e : ErrorNote) : (s.raise e).rx = s.rx := rfl
@[simp] theorem State.raise_tx (s : State) (e : ErrorNote) : (s.raise e).tx = s.tx := rfl
@[simp] theorem State.raise_pend (s : State) (e : ErrorNote) : (s.raise e).pend = s.pend := rfl
@[simp] theorem State.raise_alSlot (s : State) (e : ErrorNote) : (s.raise e).alSlot = s.alSlot := rfl
@[simp] theorem State.raise_clRec (s : State) (e : ErrorNote) : (s.raise e).clRec = s.clRec := rfl
@[simp] theorem State.raise_clRetryRef (s : State) (e : ErrorNote) : (s.raise e).clRetryRef = s.clRetryRef := rfl
@[simp] theorem State.raise_slListening (s : State) (e : ErrorNote) : (s.raise e).slListening = s.slListening := rfl
@[simp] theorem State.raise_slRec (s : State) (e : ErrorNote) : (s.raise e).slRec = s.slRec := rfl
@[simp] theorem State.raise_inflight (s : State) (e : ErrorNote) : (s.raise e).inflight = s.inflight := rfl
@[simp] theorem State.raise_agent (s : State) (e : ErrorNote) : (s.raise e).agent = s.agent := rfl
@[simp] theorem State.raise_cfg (s : State) (e : ErrorNote) : (s.raise e).cfg = s.cfg := rfl
@[simp] theorem State.raise_inbox (s : State) (e : ErrorNote) : (s.raise e).inbox = s.inbox := rfl
@[simp] theorem State.raise_env (s : State) (e : ErrorNote) : (s.raise e).env = s.env := rfl
@[simp] theorem State.raise_out (s : State) (e : ErrorNote) : (s.raise e).out = { s.out with errors := s.out.errors ++ [e] } := rfl

@[simp] theorem State.answer_rx (s : State) (r : Result) : (s.answer r).rx = s.rx := rfl
@[simp] theorem State.answer_tx (s : State) (r : Result) : (s.answer r).tx = s.tx := rfl
@[simp] theorem State.answer_pend (s : State) (r : Result) : (s.answer r).pend = s.pend := rfl
@[simp] theorem State.answer_alSlot (s : State) (r : Result) : (s.answer r).alSlot = s.alSlot := rfl
@[simp] theorem State.answer_clRec (s : State) (r : Result) : (s.answer r).clRec = s.clRec := rfl
@[simp] theorem State.answer_clRetryRef (s : State) (r : Result) : (s.answer r).clRetryRef = s.clRetryRef := rfl
@[simp] theorem State.answer_slListening (s : State) (r : Result) : (s.answer r).slListening = s.slListening := rfl
@[simp] theorem State.answer_slRec (s : State) (r : Result) : (s.answer r).slRec = s.slRec := rfl
@[simp] theorem State.answer_inflight (s : State) (r : Result) : (s.answer r).inflight = s.inflight := rfl
@[simp] theorem State.answer_agent (s : State) (r : Result) : (s.answer r).agent = s.agent := rfl
@[simp] theorem State.answer_cfg (s : State) (r : Result) : (s.answer r).cfg = s.cfg := rfl
@[simp] theorem State.answer_inbox (s : State) (r : Result) : (s.answer r).inbox = s.inbox := rfl
@[simp] theorem State.answer_env (s : State) (r : Result) : (s.answer r).env = s.env := rfl
@[simp] theorem State.answer_out (s : State) (r : Result) : (s.answer r).out = { s.out with result := r } := rfl

@[simp] theorem State.noteIncomplete_rx (s : State) (b : Bool) : (s.noteIncomplete b).rx = s.rx := rfl
@[simp] theorem State.noteIncomplete_tx (s : State) (b : Bool) : (s.noteIncomplete b).tx = s.tx := rfl
@[simp] theorem State.noteIncomplete_pend (s : State) (b : Bool) : (s.noteIncomplete b).pend = s.pend := rfl
@[simp] theorem State.noteIncomplete_alSlot (s : State) (b : Bool) : (s.noteIncomplete b).alSlot = s.alSlot := rfl
@[simp] theorem State.noteIncomplete_clRec (s : State) (b : Bool) : (s.noteIncomplete b).clRec = s.clRec := rfl
@[simp] theorem State.noteIncomplete_clRetryRef (s : State) (b : Bool) : (s.noteIncomplete b).clRetryRef = s.clRetryRef := rfl
@[simp] theorem State.noteIncomplete_slListening (s : State) (b : Bool) : (s.noteIncomplete b).slListening = s.slListening := rfl
@[simp] theorem State.noteIncomplete_slRec (s : State) (b : Bool) : (s.noteIncomplete b).slRec = s.slRec := rfl
@[simp] theorem State.noteIncomplete_inflight (s : State) (b : Bool) : (s.noteIncomplete b).inflight = s.inflight := rfl
@[simp] theorem State.noteIncomplete_agent (s : State) (b : Bool) : (s.noteIncomplete b).agent = s.agent := rfl
@[simp] theorem State.noteIncomplete_cfg (s : State) (b : Bool) : (s.noteIncomplete b).cfg = s.cfg := rfl
@[simp] theorem State.noteIncomplete_inbox (s : State) (b : Bool) : (s.noteIncomplete b).inbox = s.inbox := rfl
@[simp] theorem State.noteIncomplete_env (s : State) (b : Bool) : (s.noteIncomplete b).env = s.env := rfl
@[simp] theorem State.noteIncomplete_out (s : State) (b : Bool) : (s.noteIncomplete b).out = { s.out with incomplete := b } := rfl

@[simp] theorem State.setLink_rx (s : State) (h : Handle) : (s.setLink h).rx = s.rx := rfl
@[simp] theorem State.setLink_tx (s : State) (h : Handle) : (s.setLink h).tx = s.tx := rfl
@[simp] theorem State.setLink_pend (s : State) (h : Handle) : (s.setLink h).pend = s.pend := rfl
@[simp] theorem State.setLink_alSlot (s : State) (h : Handle) : (s.setLink h).alSlot = some h := rfl
@[simp] theorem State.setLink_clRec (s : State) (h : Handle) : (s.setLink h).clRec = s.clRec := rfl
@[simp] theorem State.setLink_clRetryRef (s : State) (h : Handle) : (s.setLink h).clRetryRef = s.clRetryRef := rfl
@[simp] theorem State.setLink_slListening (s : State) (h : Handle) : (s.setLink h).slListening = s.slListening := rfl
@[simp] theorem State.setLink_slRec (s : State) (h : Handle) : (s.setLink h).slRec = s.slRec := rfl
@[simp] theorem State.setLink_inflight (s : State) (h : Handle) : (s.setLink h).inflight = s.inflight := rfl
@[simp] theorem State.setLink_agent (s : State) (h : Handle) : (s.setLink h).agent = s.agent := rfl
@[simp] theorem State.setLink_cfg (s : State) (h : Handle) : (s.setLink h).cfg = s.cfg := rfl
@[simp] theorem State.setLink_inbox (s : State) (h : Handle) : (s.setLink h).inbox = s.inbox := rfl
@[simp] theorem State.setLink_env (s : State) (h : Handle) : (s.setLink h).env = s.env := rfl
@[simp] theorem State.setLink_out (s : State) (h : Handle) : (s.setLink h).out = s.out := rfl

@[simp] theorem State.setQueue_pend (s : State) (q : QSel) (Q : FrameQueue) : (s.setQueue q Q).pend = s.pend := by cases q <;> rfl
@[simp] theorem State.setQueue_alSlot (s : State) (q : QSel) (Q : FrameQueue) : (s.setQueue q Q).alSlot = s.alSlot := by cases q <;> rfl
@[simp] theorem State.setQueue_clRec (s : State) (q : QSel) (Q : FrameQueue) : (s.setQueue q Q).clRec = s.clRec := by cases q <;> rfl
@[simp] theorem State.setQueue_clRetryRef (s : State) (q : QSel) (Q : FrameQueue) : (s.setQueue q Q).clRetryRef = s.clRetryRef := by cases q <;> rfl
@[simp] theorem State.setQueue_slListening (s : State) (q : QSel) (Q : FrameQueue) : (s.setQueue q Q).slListening = s.slListening := by cases q <;> rfl
@[simp] theorem State.setQueue_slRec (s : State) (q : QSel) (Q : FrameQueue) : (s.setQueue q Q).slRec = s.slRec := by cases q <;> rfl
@[simp] theorem State.setQueue_inflight (s : State) (q : QSel) (Q : FrameQueue) : (s.setQueue q Q).inflight = s.inflight := by cases q <;> rfl
@[simp] theorem State.setQueue_agent (s : State) (q : QSel) (Q : FrameQueue) : (s.setQueue q Q).agent = s.agent := by cases q <;> rfl
@[simp] theorem State.setQueue_cfg (s : State) (q : QSel) (Q : FrameQueue) : (s.setQueue q Q).cfg = s.cfg := by cases q <;> rfl
@[simp] theorem State.setQueue_inbox (s : State) (q : QSel) (Q : FrameQueue) : (s.setQueue q Q).inbox = s.inbox := by cases q <;> rfl
@[simp] theorem State.setQueue_env (s : State) (q : QSel) (Q : FrameQueue) : (s.setQueue q Q).env = s.env := by cases q <;> rfl
@[simp] theorem State.setQueue_out (s : State) (q : QSel) (Q : FrameQueue) : (s.setQueue q Q).out = s.out := by cases q <;> rfl
@[simp] theorem State.setQueue_queue (s : State) (q : QSel) (Q : FrameQueue) : (s.setQueue q Q).queue q = Q := by cases q <;> rfl
@[simp] theorem State.setQueue_cap (s : State) (q p : QSel) (Q : FrameQueue) : (s.setQueue q Q).cap p = s.cap p := by cases q <;> cases p <;> rfl
@[simp] theorem State.setQueue_setQueue (s : State) (q : QSel) (Q R : FrameQueue) : (s.setQueue q Q).setQueue q R = s.setQueue q R := by cases q <;> rfl
@[simp] theorem State.setQueue_self (s : State) (q : QSel) : s.setQueue q (s.queue q) = s := by cases q <;> rfl
@[simp] theorem State.fresh_queue (s : State) (q : QSel) : (s.fresh).queue q = s.queue q := by cases q <;> rfl
@[simp] theorem State.fresh_cap (s : State) (q : QSel) : (s.fresh).cap q = s.cap q := by cases q <;> rfl
@[simp] theorem State.answer_queue (s : State) (q : QSel) (r : Result) : (s.answer r).queue q = s.queue q := by cases q <;> rfl
@[simp] theorem State.answer_cap (s : State) (q : QSel) (r : Result) : (s.answer r).cap q = s.cap q := by cases q <;> rfl
@[simp] theorem State.raise_queue (s : State) (q : QSel) (e : ErrorNote) : (s.raise e).queue q = s.queue q := by cases q <;> rfl
@[simp] theorem State.raise_cap (s : State) (q : QSel) (e : ErrorNote) : (s.raise e).cap q = s.cap q := by cases q <;> rfl
@[simp] theorem State.emit_queue (s : State) (q : QSel) (c : Command) : (s.emit c).queue q = s.queue q := by cases q <;> rfl
@[simp] theorem State.emit_cap (s : State) (q : QSel) (c : Command) : (s.emit c).cap q = s.cap q := by cases q <;> rfl
@[simp] theorem State.setAgent_queue (s : State) (q : QSel) (a : Agent) : (s.setAgent a).queue q = s.queue q := by cases q <;> rfl
@[simp] theorem State.setAgent_cap (s : State) (q : QSel) (a : Agent) : (s.setAgent a).cap q = s.cap q := by cases q <;> rfl
@[simp] theorem State.setPend_queue (s : State) (q : QSel) (b : Bool) : (s.setPend b).queue q = s.queue q := by cases q <;> rfl
@[simp] theorem State.setPend_cap (s : State) (q : QSel) (b : Bool) : (s.setPend b).cap q = s.cap q := by cases q <;> rfl
@[simp] theorem State.setEnv_queue (s : State) (q : QSel) (e : Env) : (s.setEnv e).queue q = s.queue q := by cases q <;> rfl
@[simp] theorem State.setEnv_cap (s : State) (q : QSel) (e : Env) : (s.setEnv e).cap q = s.cap q := by cases q <;> rfl
@[simp] theorem State.setOut_queue (s : State) (q : QSel) (o : Output) : (s.setOut o).queue q = s.queue q := by cases q <;> rfl
@[simp] theorem State.setOut_cap (s : State) (q : QSel) (o : Output) : (s.setOut o).cap q = s.cap q := by cases q <;> rfl
@[simp] theorem State.queue_rx (s : State) : s.queue .rx = s.rx := rfl
@[simp] theorem State.queue_tx (s : State) : s.queue .tx = s.tx := rfl
@[simp] theorem State.cap_rx (s : State) : s.cap .rx = s.cfg.nRx := rfl
@[simp] theorem State.cap_tx (s : State) : s.cap .tx = s.cfg.nTx := rfl

@[simp] theorem State.clearLinkIf_rx (s : State) (h : Handle) : (s.clearLinkIf h).rx = s.rx := by
  unfold State.clearLinkIf; split <;> rfl
@[simp] theorem State.clearLinkIf_tx (s : State) (h : Handle) : (s.clearLinkIf h).tx = s.tx := by
  unfold State.clearLinkIf; split <;> rfl
@[simp] theorem State.clearLinkIf_pend (s : State) (h : Handle) : (s.clearLinkIf h).pend = s.pend := by
  unfold State.clearLinkIf; split <;> rfl
theorem State.clearLinkIf_alSlot (s : State) (h : Handle) : (s.clearLinkIf h).alSlot = if s.alSlot = some h then none else s.alSlot := by
  unfold State.clearLinkIf; split <;> simp
@[simp] theorem State.clearLinkIf_clRec (s : State) (h : Handle) : (s.clearLinkIf h).clRec = s.clRec := by
  unfold State.clearLinkIf; split <;> rfl
@[simp] theorem State.clearLinkIf_clRetryRef (s : State) (h : Handle) : (s.clearLinkIf h).clRetryRef = s.clRetryRef := by
  unfold State.clearLinkIf; split <;> rfl
@[simp] theorem State.clearLinkIf_slListening (s : State) (h : Handle) : (s.clearLinkIf h).slListening = s.slListening := by
  unfold State.clearLinkIf; split <;> rfl
@[simp] theorem State.clearLinkIf_slRec (s : State) (h : Handle) : (s.clearLinkIf h).slRec = s.slRec := by
  unfold State.clearLinkIf; split <;> rfl
@[simp] theorem State.clearLinkIf_inflight (s : State) (h : Handle) : (s.clearLinkIf h).inflight = s.inflight := by
  unfold State.clearLinkIf; split <;> rfl
@[simp] theorem State.clearLinkIf_agent (s : State) (h : Handle) : (s.clearLinkIf h).agent = s.agent := by
  unfold State.clearLinkIf; split <;> rfl
@[simp] theorem State.clearLinkIf_cfg (s : State) (h : Handle) : (s.clearLinkIf h).cfg = s.cfg := by
  unfold State.clearLinkIf; split <;> rfl
@[simp] theorem State.clearLinkIf_inbox (s : State) (h : Handle) : (s.clearLinkIf h).inbox = s.inbox := by
  unfold State.clearLinkIf; split <;> rfl
@[simp] theorem State.clearLinkIf_env (s : State) (h : Handle) : (s.clearLinkIf h).env = s.env := by
  unfold State.clearLinkIf; split <;> rfl
@[simp] theorem State.clearLinkIf_out (s : State) (h : Handle) : (s.clearLinkIf h).out = s.out := by
  unfold State.clearLinkIf; split <;> rfl

end Sys2Proof.Machine
end

