-- ==== Sys2Proof/Laws/Ops.lean ====
section
/-! SUPPORT. One lemma for each shared operation of Ops.lean that says what it can do: sequencing, the context guards,
push and pop as atomic transitions, the slot space, the draws and the interrupt. -/

namespace Sys2Proof.Machine

/-! ## Sequencing -/

@[simp] theorem andThen_next {α β : Type} (a : α) (f : α → Host.Outcome β Fault Refusal) : andThen (.next a) f = f a := rfl
@[simp] theorem andThen_fault {α β : Type} (r : Fault) (f : α → Host.Outcome β Fault Refusal) :
    andThen (.fault r) f = .fault r := rfl
@[simp] theorem andThen_refused {α β : Type} (r : Refusal) (f : α → Host.Outcome β Fault Refusal) :
    andThen (.refused r) f = .refused r := rfl

/-- A sequence answers a next state exactly when both parts do. -/
theorem andThen_eq_next {α β : Type} (o : Host.Outcome α Fault Refusal) (f : α → Host.Outcome β Fault Refusal) (b : β) :
    andThen o f = .next b ↔ ∃ a, o = .next a ∧ f a = .next b := by
  cases o <;> simp

/-- A sequence faults only if one of its parts does. -/
theorem andThen_eq_fault {α β : Type} (o : Host.Outcome α Fault Refusal) (f : α → Host.Outcome β Fault Refusal) (r : Fault) :
    andThen o f = .fault r ↔ o = .fault r ∨ ∃ a, o = .next a ∧ f a = .fault r := by
  cases o <;> simp

theorem andThen_assoc {α β γ : Type} (o : Host.Outcome α Fault Refusal) (f : α → Host.Outcome β Fault Refusal)
    (g : β → Host.Outcome γ Fault Refusal) : andThen (andThen o f) g = andThen o fun a => andThen (f a) g := by
  cases o <;> rfl

/-! ## The guards -/

theorem ready_iff (s : State) : s.ready = true ↔ s.agent.context = .background ∧ s.inflight = {} := by
  simp [State.ready]

@[simp] theorem idle_not_busy : ({} : InFlight).busy = false := rfl

/-- In a ready state a background operation runs its body on the state with a fresh output. -/
theorem inBackground_of_ready {s : State} (h : s.ready = true) (body : State → Answer) :
    inBackground s body = body s.fresh := by
  obtain ⟨hc, hi⟩ := (ready_iff s).mp h
  rw [inBackground, if_neg (by rw [hc]; decide), hi, if_neg (by decide)]

/-- If a background operation answers at all but with a refusal of the guard, its body answered so. -/
theorem inBackground_eq_next {s t : State} {body : State → Answer} (h : inBackground s body = .next t) :
    s.agent.context = .background ∧ s.inflight.busy = false ∧ body s.fresh = .next t := by
  unfold inBackground at h
  split at h
  · cases h
  · split at h
    · cases h
    · refine ⟨?_, by simp_all, h⟩
      cases hc : s.agent.context <;> simp_all

theorem inBackground_eq_fault {s : State} {body : State → Answer} {r : Fault} (h : inBackground s body = .fault r) :
    s.agent.context = .background ∧ s.inflight.busy = false ∧ body s.fresh = .fault r := by
  unfold inBackground at h
  split at h
  · cases h
  · split at h
    · cases h
    · refine ⟨?_, by simp_all, h⟩
      cases hc : s.agent.context <;> simp_all

theorem inInterrupt_eq_next {s t : State} {body : State → Answer} (h : inInterrupt s body = .next t) :
    s.agent.context = .interrupt ∧ s.inflight.push.busy = false ∧ body s.fresh = .next t := by
  unfold inInterrupt at h
  split at h
  · split at h
    · cases h
    · exact ⟨‹_›, by simp_all, h⟩
  · cases h

theorem inInterrupt_eq_fault {s : State} {body : State → Answer} {r : Fault} (h : inInterrupt s body = .fault r) :
    s.agent.context = .interrupt ∧ s.inflight.push.busy = false ∧ body s.fresh = .fault r := by
  unfold inInterrupt at h
  split at h
  · split at h
    · cases h
    · exact ⟨‹_›, by simp_all, h⟩
  · cases h

theorem atProducerPort_eq_next {q : QSel} {s t : State} {body : State → Answer}
    (h : atProducerPort q s body = .next t) :
    s.agent = producerOf q ∧ s.inflight.push.busy = false ∧ (q = .tx → s.inflight.busy = false) ∧ body s.fresh = .next t := by
  unfold atProducerPort at h
  split at h
  · rename_i ha
    split at h
    · obtain ⟨_, hp, hb⟩ := inInterrupt_eq_next h
      exact ⟨ha, hp, by simp_all, hb⟩
    · obtain ⟨_, hp, hb⟩ := inBackground_eq_next h
      refine ⟨ha, ?_, fun _ => hp, hb⟩
      simp only [InFlight.busy, Bool.or_eq_false_iff] at hp
      exact hp.1.1
  · cases h

theorem atConsumerPort_eq_next {q : QSel} {s t : State} {body : State → Answer}
    (h : atConsumerPort q s body = .next t) :
    s.agent = consumerOf q ∧ s.inflight.busy = false ∧ body s.fresh = .next t := by
  unfold atConsumerPort at h
  split at h
  · exact ⟨‹_›, (inBackground_eq_next h).2⟩
  · cases h

/-! ## The slot space -/

theorem Memory.wf_iff (n : Nat) (m : List BusFrame) : Memory.wf n m = true ↔ m.length = n ∧ ∀ f ∈ m, f.inv = true := by
  simp [Memory.wf]

/-- Every write of a frame that keeps the invariant keeps the canonical form. -/
theorem Memory.write_wf {n i : Nat} {m : List BusFrame} {f : BusFrame} (hm : Memory.wf n m = true) (hf : f.inv = true) :
    Memory.wf n (Memory.write m i f) = true := by
  rw [Memory.wf_iff] at hm ⊢
  refine ⟨by simp [Memory.write, hm.1], fun g hg => ?_⟩
  rcases List.mem_or_eq_of_mem_set hg with h | h
  · exact hm.2 g h
  · exact h ▸ hf

theorem zeroFrame_inv : ({} : BusFrame).inv = true := by decide

/-- Reading gives a frame that keeps the invariant. -/
theorem Memory.read_inv {n : Nat} {m : List BusFrame} (i : Nat) (hm : Memory.wf n m = true) :
    (Memory.read m i).inv = true := by
  rw [Memory.wf_iff] at hm
  unfold Memory.read
  rcases Nat.lt_or_ge i m.length with h | h
  · rw [List.getD_eq_getElem _ _ h]; exact hm.2 _ (List.getElem_mem h)
  · rw [List.getD_eq_default _ _ h]; exact zeroFrame_inv

/-- A read after a write to the same slot gives the frame written; every other slot is left alone. -/
theorem Memory.read_write (m : List BusFrame) (i j : Nat) (f : BusFrame) (hi : i < m.length) :
    Memory.read (Memory.write m i f) j = if j = i then f else Memory.read m j := by
  unfold Memory.read Memory.write
  by_cases h : j = i
  · subst h; simp [List.getD_eq_getElem?_getD, hi]
  · simp [List.getD_eq_getElem?_getD, h, Ne.symm h]

theorem emptyMemory_wf (n : Nat) : Memory.wf n (List.replicate n {}) = true := by
  rw [Memory.wf_iff]
  exact ⟨by simp, fun f hf => by rw [List.eq_of_mem_replicate hf]; exact zeroFrame_inv⟩

theorem FrameQueue.wf_iff (n : Nat) (Q : FrameQueue) :
    Q.wf n = true ↔ Memory.wf n Q.slot = true ∧ Q.head < n ∧ Q.tail < n := by
  simp [FrameQueue.wf, and_assoc]

theorem emptyQueue_wf {n : Nat} (h : 0 < n) : (FrameQueue.empty n).wf n = true := by
  rw [FrameQueue.wf_iff]; exact ⟨emptyMemory_wf n, h, h⟩

/-! ## Index arithmetic -/

theorem nextIndex_lt {n i : Nat} (h : 0 < n) : nextIndex n i < n := Nat.mod_lt _ h

theorem nextIndex_eq {n i : Nat} (h : i < n) : nextIndex n i = if i + 1 = n then 0 else i + 1 := by
  unfold nextIndex
  split
  · simp_all
  · exact Nat.mod_eq_of_lt (by omega)

/-- `count(Q)` without the remainder. -/
theorem FrameQueue.count_eq {n : Nat} {Q : FrameQueue} (hh : Q.head < n) (ht : Q.tail < n) :
    Q.count n = if Q.tail ≤ Q.head then Q.head - Q.tail else Q.head + n - Q.tail := by
  unfold FrameQueue.count
  split
  · rw [show Q.head + n - Q.tail = (Q.head - Q.tail) + n by omega, Nat.add_mod_right]
    exact Nat.mod_eq_of_lt (by omega)
  · exact Nat.mod_eq_of_lt (by omega)

theorem FrameQueue.contents_length (n : Nat) (Q : FrameQueue) : (Q.contents n).length = Q.count n := by
  simp [FrameQueue.contents]

theorem FrameQueue.count_lt {n : Nat} {Q : FrameQueue} (h : 0 < n) : Q.count n < n := Nat.mod_lt _ h

theorem FrameQueue.isEmpty_iff_count {n : Nat} {Q : FrameQueue} (hh : Q.head < n) (ht : Q.tail < n) :
    Q.isEmpty = true ↔ Q.count n = 0 := by
  rw [count_eq hh ht]; simp only [FrameQueue.isEmpty, beq_iff_eq]
  split <;> omega

theorem FrameQueue.isFull_iff_count {n : Nat} {Q : FrameQueue} (hh : Q.head < n) (ht : Q.tail < n) :
    Q.isFull n = true ↔ Q.count n + 1 = n := by
  rw [count_eq hh ht]; simp only [FrameQueue.isFull, beq_iff_eq, nextIndex_eq hh]
  split <;> split <;> omega

/-! ## Push and pop on one queue -/

/-- The queue after a successful push. -/
def FrameQueue.pushed (n : Nat) (Q : FrameQueue) (f : BusFrame) : FrameQueue :=
  { Q with slot := Memory.write Q.slot Q.head f, head := nextIndex n Q.head }

/-- The queue after a successful pop. -/
def FrameQueue.popped (n : Nat) (Q : FrameQueue) : FrameQueue := { Q with tail := nextIndex n Q.tail }

theorem FrameQueue.pushed_wf {n : Nat} {Q : FrameQueue} {f : BusFrame} (h : Q.wf n = true) (hf : f.inv = true) :
    (Q.pushed n f).wf n = true := by
  rw [wf_iff] at h ⊢
  exact ⟨Memory.write_wf h.1 hf, nextIndex_lt (by omega), h.2.2⟩

theorem FrameQueue.popped_wf {n : Nat} {Q : FrameQueue} (h : Q.wf n = true) : (Q.popped n).wf n = true := by
  rw [wf_iff] at h ⊢
  exact ⟨h.1, h.2.1, nextIndex_lt (by omega)⟩

/-- A successful push adds one to `count(Q)` (R111). -/
theorem FrameQueue.count_pushed {n : Nat} {Q : FrameQueue} (f : BusFrame) (hh : Q.head < n) (ht : Q.tail < n)
    (hf : Q.isFull n = false) : (Q.pushed n f).count n = Q.count n + 1 := by
  have hnf : ¬ Q.count n + 1 = n := by rw [← isFull_iff_count hh ht]; simp [hf]
  have h1 : (Q.pushed n f).head < n := nextIndex_lt (by omega)
  rw [count_eq h1 (show (Q.pushed n f).tail < n from ht), count_eq hh ht] at *
  simp only [FrameQueue.pushed, nextIndex_eq hh]
  split at hnf <;> split <;> split <;> omega

/-- A successful pop subtracts one from `count(Q)` (R111). -/
theorem FrameQueue.count_popped {n : Nat} {Q : FrameQueue} (hh : Q.head < n) (ht : Q.tail < n)
    (he : Q.isEmpty = false) : (Q.popped n).count n + 1 = Q.count n := by
  have hne : ¬ Q.head = Q.tail := by simpa [FrameQueue.isEmpty] using he
  have h1 : (Q.popped n).tail < n := nextIndex_lt (by omega)
  rw [count_eq (show (Q.popped n).head < n from hh) h1, count_eq hh ht]
  simp only [FrameQueue.popped, nextIndex_eq ht]
  split <;> split <;> split <;> omega

/-- A successful push appends its frame to `contents(Q)` (R24, R109). -/
theorem FrameQueue.contents_pushed {n : Nat} {Q : FrameQueue} (f : BusFrame) (h : Q.wf n = true)
    (hf : Q.isFull n = false) : (Q.pushed n f).contents n = Q.contents n ++ [f] := by
  obtain ⟨hm, hh, ht⟩ := (wf_iff n Q).mp h
  have hl : Q.slot.length = n := ((Memory.wf_iff _ _).mp hm).1
  have hc := count_pushed f hh ht hf
  have hnf : ¬ Q.count n + 1 = n := by rw [← isFull_iff_count hh ht]; simp [hf]
  have hce := count_eq hh ht
  unfold FrameQueue.contents
  rw [hc, List.range_succ, List.map_append, List.map_singleton]
  congr 1
  · refine List.map_congr_left fun i hi => ?_
    have hi' : i < Q.count n := List.mem_range.mp hi
    simp only [FrameQueue.pushed]
    rw [Memory.read_write _ _ _ _ (by omega), if_neg]
    split at hce
    · rw [Nat.mod_eq_of_lt (by omega)]; omega
    · rcases Nat.lt_or_ge (Q.tail + i) n with h1 | h1
      · rw [Nat.mod_eq_of_lt h1]; omega
      · rw [Nat.mod_eq_sub_mod h1, Nat.mod_eq_of_lt (by omega)]; omega
  · simp only [FrameQueue.pushed]
    rw [Memory.read_write _ _ _ _ (by omega), if_pos]
    split at hce
    · rw [Nat.mod_eq_of_lt (by omega)]; omega
    · rw [Nat.mod_eq_sub_mod (by omega), Nat.mod_eq_of_lt (by omega)]; omega

/-- A successful pop takes the oldest frame off `contents(Q)` (R24, R109). -/
theorem FrameQueue.contents_popped {n : Nat} {Q : FrameQueue} (h : Q.wf n = true) (he : Q.isEmpty = false) :
    Q.contents n = Memory.read Q.slot Q.tail :: (Q.popped n).contents n := by
  obtain ⟨_, hh, ht⟩ := (wf_iff n Q).mp h
  have hc := count_popped hh ht he
  unfold FrameQueue.contents
  rw [← hc, List.range_succ_eq_map, List.map_cons, List.map_map]
  congr 1
  · simp [Nat.mod_eq_of_lt ht]
  · refine List.map_congr_left fun i _ => ?_
    simp only [Function.comp_apply, FrameQueue.popped]
    congr 1
    unfold nextIndex
    rw [Nat.mod_add_mod]
    congr 1; omega

theorem FrameQueue.contents_empty {n : Nat} {Q : FrameQueue} (hh : Q.head < n) (ht : Q.tail < n)
    (he : Q.isEmpty = true) : Q.contents n = [] := by
  rw [← List.length_eq_zero_iff, contents_length]; exact (isEmpty_iff_count hh ht).mp he

/-- What `pushFrame` does, in the two cases of R100. -/
theorem pushFrame_cases (q : QSel) (f : BusFrame) (s : State) :
    ((s.queue q).isFull (s.cap q) = true ∧ pushFrame q f s = (false, s.raise (.queueFull q))) ∨
    ((s.queue q).isFull (s.cap q) = false ∧
      pushFrame q f s = (true, s.setQueue q ((s.queue q).pushed (s.cap q) f))) := by
  unfold pushFrame
  cases h : (s.queue q).isFull (s.cap q)
  · right; exact ⟨rfl, by simp [FrameQueue.pushed]⟩
  · left; exact ⟨rfl, by simp⟩

/-- What `popFrame` does, in the two cases of R101. -/
theorem popFrame_cases (q : QSel) (s : State) :
    ((s.queue q).isEmpty = true ∧ popFrame q s = (none, s)) ∨
    ((s.queue q).isEmpty = false ∧
      popFrame q s = (some (Memory.read (s.queue q).slot (s.queue q).tail), s.setQueue q ((s.queue q).popped (s.cap q)))) := by
  unfold popFrame
  cases h : (s.queue q).isEmpty
  · right; exact ⟨rfl, by simp [FrameQueue.popped]⟩
  · left; exact ⟨rfl, by simp⟩

/-- What a receive path leaves of a run of frames (R129): the frames that fit are appended, the others are dropped and
noted, in order; only the queue and the notes change. -/
theorem pushAll_spec (q : QSel) (fs : List BusFrame) (s : State) (h : (s.queue q).wf (s.cap q) = true)
    (hf : ∀ f ∈ fs, f.inv = true) :
    ∃ Q : FrameQueue,
      pushAll q fs s = (s.setQueue q Q).setOut
        { s.out with errors := s.out.errors ++
            List.replicate (fs.length - (s.cap q - 1 - (s.queue q).count (s.cap q))) (.queueFull q) } ∧
      Q.wf (s.cap q) = true ∧ Q.tail = (s.queue q).tail ∧
      Q.contents (s.cap q) =
        (s.queue q).contents (s.cap q) ++ fs.take (s.cap q - 1 - (s.queue q).count (s.cap q)) := by
  induction fs generalizing s with
  | nil => exact ⟨s.queue q, by cases q <;> simp [pushAll, State.setOut, State.setQueue], h, rfl, by simp⟩
  | cons f fs ih =>
    obtain ⟨_, hh, ht⟩ := (FrameQueue.wf_iff _ _).mp h
    have hfs : ∀ g ∈ fs, g.inv = true := fun g hg => hf g (List.mem_cons_of_mem _ hg)
    rcases pushFrame_cases q f s with ⟨hfull, hp⟩ | ⟨hfull, hp⟩
    · have hc : (s.queue q).count (s.cap q) + 1 = s.cap q := (FrameQueue.isFull_iff_count hh ht).mp hfull
      obtain ⟨Q, e1, e2, e3, e4⟩ := ih (s.raise (.queueFull q)) (by cases q <;> exact h) hfs
      refine ⟨Q, ?_, by cases q <;> exact e2, by cases q <;> exact e3, ?_⟩
      · rw [pushAll, hp, e1]
        have h0 : s.cap q - 1 - (s.queue q).count (s.cap q) = 0 := by omega
        have h1 : (s.raise (.queueFull q)).cap q - 1 - ((s.raise (.queueFull q)).queue q).count ((s.raise (.queueFull q)).cap q) = 0 := by
          cases q <;> exact h0
        rw [h0, h1]
        cases q <;> simp [State.setOut, State.setQueue, State.raise, List.replicate_succ]
      · have h0 : s.cap q - 1 - (s.queue q).count (s.cap q) = 0 := by omega
        have e4' : Q.contents (s.cap q) = (s.queue q).contents (s.cap q) ++
            fs.take (s.cap q - 1 - (s.queue q).count (s.cap q)) := by cases q <;> exact e4
        rw [e4', h0]; simp
    · have hw := FrameQueue.pushed_wf h (hf f List.mem_cons_self)
      have hc := FrameQueue.count_pushed f hh ht hfull
      have hnf : ¬ (s.queue q).count (s.cap q) + 1 = s.cap q := by
        rw [← FrameQueue.isFull_iff_count hh ht]; simp [hfull]
      have hlt : (s.queue q).count (s.cap q) < s.cap q := FrameQueue.count_lt (by omega)
      obtain ⟨Q, e1, e2, e3, e4⟩ := ih (s.setQueue q ((s.queue q).pushed (s.cap q) f)) (by simpa using hw) hfs
      simp only [State.setQueue_queue, State.setQueue_cap, hc] at e1 e2 e3 e4
      refine ⟨Q, ?_, e2, e3, ?_⟩
      · rw [pushAll, hp, e1]
        have : fs.length - (s.cap q - 1 - ((s.queue q).count (s.cap q) + 1)) =
            (f :: fs).length - (s.cap q - 1 - (s.queue q).count (s.cap q)) := by
          simp only [List.length_cons]; omega
        rw [this]
        cases q <;> rfl
      · rw [e4, FrameQueue.contents_pushed f h hfull,
          show s.cap q - 1 - (s.queue q).count (s.cap q) = (s.cap q - 1 - ((s.queue q).count (s.cap q) + 1)) + 1 by omega]
        simp

/-! ## Draws -/

/-- A draw of a handle changes nothing but the environment's answers. -/
theorem drawAlloc_state (s : State) : (drawAlloc s).2 = s.setEnv (drawAlloc s).2.env := by
  unfold drawAlloc; split <;> rfl

theorem drawTxSlot_state (s : State) : (drawTxSlot s).2 = s.setEnv (drawTxSlot s).2.env := by
  unfold drawTxSlot; split <;> rfl

theorem drawSndCap_state (h : Handle) (s : State) : (drawSndCap h s).2 = s.setEnv (drawSndCap h s).2.env := by
  unfold drawSndCap; split <;> rfl

theorem drawWriteOk_state (h : Handle) (c : List Byte) (s : State) :
    (drawWriteOk h c s).2 = s.setEnv (drawWriteOk h c s).2.env := by
  unfold drawWriteOk; split <;> rfl

/-! ## The active link slot -/

/-- Clearing for a handle writes the slot only, and only if it holds that handle (R201). -/
theorem clearLinkIf_eq (s : State) (h : Handle) :
    s.clearLinkIf h = s.setAlSlot (if s.alSlot = some h then none else s.alSlot) := by
  unfold State.clearLinkIf; split <;> rfl

/-! ## The interrupt -/

/-- One `BI.INGRESS` body: what it answers (R140). -/
theorem ingress_cases (p : PFrame) (s : State) :
    (p.legal = false ∧ ingress p s = .refused .pframeDlc) ∨
    (p.legal = true ∧ s.rx.isFull s.cfg.nRx = true ∧
      ingress p s = .next ((s.raise (.queueFull .rx)).setPend true)) ∨
    (p.legal = true ∧ s.rx.isFull s.cfg.nRx = false ∧
      ingress p s = .next ((s.setQueue .rx (s.rx.pushed s.cfg.nRx (frameOfPFrame p))).setPend true)) := by
  unfold ingress
  cases hl : p.legal
  · left; simp
  · right
    rcases pushFrame_cases .rx (frameOfPFrame p) s with ⟨h, e⟩ | ⟨h, e⟩
    · left; exact ⟨rfl, h, by simp [e]⟩
    · right; exact ⟨rfl, h, by simp [e]⟩

/-- The frame BusIngress builds keeps the frame invariant (R140 corner case 1). -/
theorem frameOfPFrame_inv {p : PFrame} (h : p.legal = true) : (frameOfPFrame p).inv = true := by
  have h8 : p.dlc.toNat ≤ 8 := of_decide_eq_true h
  simp [BusFrame.inv, frameOfPFrame, Octets.toList, maxDlc, h8]

/-- What became of the frames `ps` of interrupts at a queue of `n` slots that held `held` frames: `fs` were queued, in
order, each of the others was dropped (`d` of them), and one is dropped only if the queue could not hold them all
(R46, R143). -/
structure Arrivals (n held : Nat) (ps : List PFrame) (fs : List BusFrame) (d : Nat) : Prop where
  sub : fs.Sublist (ps.map frameOfPFrame)
  total : fs.length + d = ps.length
  full : d ≠ 0 → n ≤ held + ps.length

theorem Arrivals.nil (n held : Nat) : Arrivals n held [] [] 0 := ⟨.slnil, rfl, fun h => absurd rfl h⟩

/-- Interrupts that follow find what is held then, which is at most what was held plus what has arrived. -/
theorem Arrivals.append {n held held' d e : Nat} {ps qs : List PFrame} {fs gs : List BusFrame}
    (h : Arrivals n held ps fs d) (h' : Arrivals n held' qs gs e) (hle : held' ≤ held + fs.length) :
    Arrivals n held (ps ++ qs) (fs ++ gs) (d + e) := by
  obtain ⟨s1, t1, u1⟩ := h
  obtain ⟨s2, t2, u2⟩ := h'
  refine ⟨by simpa using s1.append s2, by simp only [List.length_append]; omega, fun hd => ?_⟩
  rw [List.length_append]
  by_cases hz : d = 0
  · have := u2 (by omega); omega
  · have := u1 hz; omega

/-- What interrupts leave: a frame queue that keeps its form, PEND, one QueueFull for each frame dropped; they take
nothing out (R143, R217, R219). -/
theorem takeInterrupts_spec (ps : List PFrame) (s : State) (hl : ps.all PFrame.legal = true)
    (hw : s.rx.wf s.cfg.nRx = true) :
    ∃ (Q : FrameQueue) (fs : List BusFrame) (d : Nat),
      takeInterrupts ps s = .next { s with
        rx := Q, pend := s.pend || !ps.isEmpty,
        out := { s.out with errors := s.out.errors ++ List.replicate d (.queueFull .rx) } } ∧
      Q.wf s.cfg.nRx = true ∧ Q.tail = s.rx.tail ∧ Q.contents s.cfg.nRx = s.rx.contents s.cfg.nRx ++ fs ∧
      Arrivals s.cfg.nRx (s.rx.contents s.cfg.nRx).length ps fs d := by
  induction ps generalizing s with
  | nil => exact ⟨s.rx, [], 0, by simp [takeInterrupts], hw, rfl, by simp, .nil _ _⟩
  | cons p ps ih =>
    simp only [List.all_cons, Bool.and_eq_true] at hl
    rcases ingress_cases p (interruptEntry s) with ⟨h, _⟩ | ⟨_, hf, e⟩ | ⟨_, hf, e⟩
    · simp [hl.1] at h
    · obtain ⟨Q, fs, d, e1, e2, e3, e4, e5⟩ :=
        ih (interruptReturn s.agent (((interruptEntry s).raise (.queueFull .rx)).setPend true)) hl.2 hw
      have hc : s.rx.count s.cfg.nRx + 1 = s.cfg.nRx :=
        (FrameQueue.isFull_iff_count ((FrameQueue.wf_iff _ _).mp hw).2.1 ((FrameQueue.wf_iff _ _).mp hw).2.2).mp hf
      have one : Arrivals s.cfg.nRx (s.rx.contents s.cfg.nRx).length [p] [] 1 :=
        ⟨List.nil_sublist _, rfl, fun _ => by rw [FrameQueue.contents_length]; exact hc.ge⟩
      refine ⟨Q, fs, 1 + d, ?_, e2, e3, e4, one.append e5 (Nat.le_refl _)⟩
      rw [takeInterrupts, takeInterrupt, e, andThen_next, andThen_next, e1, Nat.add_comm 1 d]
      simp [interruptReturn, interruptEntry, State.raise, State.setOut, State.setPend, State.setAgent, List.replicate_succ]
    · have hfull : s.rx.isFull s.cfg.nRx = false := hf
      have hw' := FrameQueue.pushed_wf hw (frameOfPFrame_inv hl.1)
      obtain ⟨Q, fs, d, e1, e2, e3, e4, e5⟩ :=
        ih (interruptReturn s.agent
          (((interruptEntry s).setQueue .rx ((interruptEntry s).rx.pushed (interruptEntry s).cfg.nRx (frameOfPFrame p))).setPend true))
          hl.2 hw'
      have h := FrameQueue.contents_pushed (frameOfPFrame p) hw hfull
      have one : Arrivals s.cfg.nRx (s.rx.contents s.cfg.nRx).length [p] [frameOfPFrame p] 0 :=
        ⟨List.Sublist.refl _, rfl, fun h => absurd rfl h⟩
      refine ⟨Q, frameOfPFrame p :: fs, 0 + d, ?_, e2, e3, ?_, one.append e5 ?_⟩
      · rw [takeInterrupts, takeInterrupt, e, andThen_next, andThen_next, e1, Nat.zero_add]
        simp [interruptReturn, interruptEntry, State.setQueue, State.setPend, State.setAgent]
      · have e4' : Q.contents s.cfg.nRx = (s.rx.pushed s.cfg.nRx (frameOfPFrame p)).contents s.cfg.nRx ++ fs := e4
        rw [e4', h]; simp
      · show ((s.rx.pushed s.cfg.nRx (frameOfPFrame p)).contents s.cfg.nRx).length ≤ _
        rw [h]; simp

/-- Interrupts one after another are one run of interrupts. -/
theorem takeInterrupts_append (ps qs : List PFrame) (s : State) :
    takeInterrupts (ps ++ qs) s = andThen (takeInterrupts ps s) (takeInterrupts qs) := by
  induction ps generalizing s with
  | nil => rfl
  | cons p ps ih =>
    simp only [List.cons_append, takeInterrupts, andThen_assoc]
    congr 1; funext t; exact ih t

/-- A boundary with nothing placed at it. -/
theorem preempt_none {s : State} (h : s.env.irq = []) : preempt s = .next s := by
  unfold preempt; rw [h]

theorem preempt_some {s : State} {ps : List PFrame} {rest : List (List PFrame)} (h : s.env.irq = ps :: rest) :
    preempt s = takeInterrupts ps (s.setEnv { s.env with irq := rest }) := by
  unfold preempt; rw [h]

end Sys2Proof.Machine
end

