-- ==== Sys2Proof/Laws/Send.lean ====
section
/-! SUPPORT. The loop of SL.SEND (spec/45_server_link.md R187): without its bound on the passes, and seen from the
outside (R191). -/

namespace Sys2Proof.Machine

/-- What a capacity query leaves: it takes an answer of the script or a free value. -/
theorem drawSndCap_cases (h : Handle) (s : State) :
    (∃ c rest, s.env.sndCap = c :: rest ∧ drawSndCap h s = (c, s.setEnv { s.env with sndCap := rest })) ∨
    (s.env.sndCap = [] ∧
      drawSndCap h s = (Config.freeSndCap s.env.count h, s.setEnv { s.env with count := s.env.count + 1 })) := by
  unfold drawSndCap
  cases he : s.env.sndCap with
  | nil => exact .inr ⟨rfl, rfl⟩
  | cons c rest => exact .inl ⟨c, rest, rfl, rfl⟩

/-- What a write attempt leaves: it takes an answer of the script or a free value. -/
theorem drawWriteOk_cases (h : Handle) (chunk : List Byte) (s : State) :
    (∃ a rest, s.env.writeOk = a :: rest ∧ drawWriteOk h chunk s = (a, s.setEnv { s.env with writeOk := rest })) ∨
    (s.env.writeOk = [] ∧ drawWriteOk h chunk s =
      (Config.freeWriteOk s.env.count h chunk, s.setEnv { s.env with count := s.env.count + 1 })) := by
  unfold drawWriteOk
  cases he : s.env.writeOk with
  | nil => exact .inr ⟨rfl, rfl⟩
  | cons a rest => exact .inl ⟨a, rest, rfl, rfl⟩

/-- One pass of the loop, by the rule's cases. -/
theorem sendLoop_succ (k : Nat) {s : State} {r : ServerRec} (h : s.slRec = some r) (ht : r.txPending ≠ []) :
    sendLoop (k + 1) s =
      if (drawSndCap r.handle s).1 = 0 then (drawSndCap r.handle s).2
      else if (drawWriteOk r.handle (r.txPending.take (min (drawSndCap r.handle s).1 r.txPending.length))
          (drawSndCap r.handle s).2).1 = true then
        sendLoop k (writeChunk r (min (drawSndCap r.handle s).1 r.txPending.length)
          (drawWriteOk r.handle (r.txPending.take (min (drawSndCap r.handle s).1 r.txPending.length))
            (drawSndCap r.handle s).2).2)
      else (drawWriteOk r.handle (r.txPending.take (min (drawSndCap r.handle s).1 r.txPending.length))
          (drawSndCap r.handle s).2).2 := by
  conv_lhs => unfold sendLoop
  rw [h]
  simp only [if_neg ht]

/-- With as many passes as pending bytes the loop runs to the end the rule gives it (R187). -/
theorem sendLoop_sends (k : Nat) {s : State} {r : ServerRec} (h : s.slRec = some r) (hk : r.txPending.length ≤ k) :
    Sends s (sendLoop k s) := by
  induction k generalizing s r with
  | zero => exact .empty s r h (List.length_eq_zero_iff.mp (by omega))
  | succ k ih =>
    by_cases ht : r.txPending = []
    · have : sendLoop (k + 1) s = s := by unfold sendLoop; rw [h]; simp only [if_pos ht]
      rw [this]; exact .empty s r h ht
    · rw [sendLoop_succ k h ht]
      have hl : 0 < r.txPending.length := List.length_pos_iff.mpr ht
      generalize hc : drawSndCap r.handle s = x
      obtain ⟨c, s1⟩ := x
      dsimp only
      split
      · rename_i h0; exact .noRoom s s1 r h ht (by rw [hc, h0])
      · rename_i h0
        generalize hw : drawWriteOk r.handle _ s1 = y
        obtain ⟨ok, s2⟩ := y
        cases ok with
        | false => exact .failed s s1 s2 r c h ht hc h0 hw
        | true =>
          refine .chunk s s1 s2 _ r c h ht hc h0 hw ?_
          exact ih (r := { r with txPending := r.txPending.drop (min c r.txPending.length), retries := 0 }) rfl
            (by simp only [List.length_drop]; omega)

/-- A cut loses nothing (R191). -/
theorem cutChunks_flatten (cs : List Nat) (bs : List Byte) : (cutChunks cs bs).1.flatten ++ (cutChunks cs bs).2 = bs := by
  induction cs generalizing bs with
  | nil => rfl
  | cons c cs ih => simp only [cutChunks, List.flatten_cons, List.append_assoc, ih, List.take_append_drop]

/-- One capacity answer, as a step of `IsCapacity`. -/
theorem drawSndCap_outcome (h : Handle) (s : State) :
    ∃ c n, drawSndCap h s = (c, s.setEnv { s.env with sndCap := s.env.sndCap.drop 1, count := n }) ∧ s.env.count ≤ n ∧
      IsCapacity s h n 0 c ∧ (s.env.sndCap ≠ [] → n = s.env.count) := by
  rcases drawSndCap_cases h s with ⟨c, rest, e, d⟩ | ⟨e, d⟩
  · exact ⟨c, s.env.count, by rw [d, e]; rfl, le_refl _, ⟨fun _ => by rw [e]; rfl, fun hl => by simp [e] at hl⟩, fun _ => rfl⟩
  · refine ⟨_, s.env.count + 1, by rw [d, e, List.drop_nil, ← e], by omega, ⟨fun hl => by simp [e] at hl, fun _ => ?_⟩, fun hn => absurd e hn⟩
    exact ⟨s.env.count, le_refl _, by omega, rfl⟩

/-- One write answer: it uses at most one entry of the script or one free value. -/
theorem drawWriteOk_outcome (h : Handle) (chunk : List Byte) (s : State) :
    ∃ a oks n, drawWriteOk h chunk s = (a, s.setEnv { s.env with writeOk := oks, count := n }) ∧ s.env.count ≤ n ∧
      oks <:+ s.env.writeOk := by
  rcases drawWriteOk_cases h chunk s with ⟨a, rest, e, d⟩ | ⟨e, d⟩
  · exact ⟨a, rest, s.env.count, d, le_refl _, e ▸ List.suffix_cons a rest⟩
  · exact ⟨_, s.env.writeOk, s.env.count + 1, d, by omega, List.suffix_rfl⟩

/-- A capacity stays one when more free values are used up. -/
theorem IsCapacity.mono {s : State} {h : Handle} {k k' j c : Nat} (hc : IsCapacity s h k j c) (hk : k ≤ k') :
    IsCapacity s h k' j c :=
  ⟨hc.1, fun hl => let ⟨n, h1, h2, h3⟩ := hc.2 hl; ⟨n, h1, by omega, h3⟩⟩

/-- A capacity drawn after the first one is a later capacity of the whole send. -/
theorem IsCapacity.shift {s t : State} {h : Handle} {k j c : Nat} (hc : IsCapacity t h k j c)
    (he : t.env.sndCap = s.env.sndCap.drop 1) (hn : s.env.count ≤ t.env.count) : IsCapacity s h k (j + 1) c := by
  have hlen : t.env.sndCap.length = s.env.sndCap.length - 1 := by rw [he, List.length_drop]
  refine ⟨fun hl => ?_, fun hl => ?_⟩
  · have := hc.1 (by omega)
    rw [he, List.getElem?_drop] at this
    rwa [Nat.add_comm]
  · obtain ⟨n, h1, h2, h3⟩ := hc.2 (by omega)
    exact ⟨n, by omega, h2, h3⟩

/-- A send that writes nothing and draws at most one capacity. -/
theorem SendOutcome_of_draws {s t : State} {r : ServerRec} (drawn : List Nat) (oks : List Bool) (k : Nat)
    (h : s.slRec = some r)
    (ht : t = { s with env := { s.env with sndCap := s.env.sndCap.drop drawn.length, writeOk := oks, count := k } })
    (hd : drawn.length ≤ 1) (hc : ∀ j c, drawn[j]? = some c → IsCapacity s r.handle k j c)
    (ho : oks <:+ s.env.writeOk) : SendOutcome s r t :=
  ⟨[], [], r.txPending, drawn, oks, k, by rw [ht, if_pos rfl, List.map_nil, List.append_nil, ← h], rfl, rfl, by simp,
    List.nil_prefix, hd, hc, ho⟩

/-- A send with nothing to do. -/
theorem SendOutcome_refl {s : State} {r : ServerRec} (h : s.slRec = some r) : SendOutcome s r s :=
  SendOutcome_of_draws [] s.env.writeOk s.env.count h rfl (by simp) (by simp) List.suffix_rfl

/-- The loop from the outside (R191): capacity-sized chunks off the front, in order. -/
theorem sendLoop_outcome (k : Nat) {s : State} {r : ServerRec} (h : s.slRec = some r) :
    SendOutcome s r (sendLoop k s) ∧ s.env.count ≤ (sendLoop k s).env.count := by
  induction k generalizing s r with
  | zero => exact ⟨SendOutcome_refl h, le_refl _⟩
  | succ k ih =>
    by_cases ht : r.txPending = []
    · have : sendLoop (k + 1) s = s := by unfold sendLoop; rw [h]; simp only [if_pos ht]
      rw [this]; exact ⟨SendOutcome_refl h, le_refl _⟩
    · rw [sendLoop_succ k h ht]
      have hl : 0 < r.txPending.length := List.length_pos_iff.mpr ht
      obtain ⟨c, n1, hc, hn1, hcap, _⟩ := drawSndCap_outcome r.handle s
      rw [hc]
      dsimp only
      split
      · refine ⟨SendOutcome_of_draws [c] s.env.writeOk n1 h rfl (by simp) ?_ List.suffix_rfl, hn1⟩
        intro j x hx
        cases j with
        | zero => cases hx; exact hcap
        | succ j => simp at hx
      · rename_i h0
        generalize hs1 : s.setEnv { s.env with sndCap := s.env.sndCap.drop 1, count := n1 } = s1
        have e1 : s1.env = { s.env with sndCap := s.env.sndCap.drop 1, count := n1 } := by rw [← hs1]; rfl
        obtain ⟨ok, oks, n2, hw, hn2, hos⟩ :=
          drawWriteOk_outcome r.handle (r.txPending.take (min c r.txPending.length)) s1
        have hn12 : n1 ≤ n2 := by rw [e1] at hn2; exact hn2
        have hos' : oks <:+ s.env.writeOk := by rw [e1] at hos; exact hos
        rw [hw]
        cases ok with
        | false =>
          refine ⟨SendOutcome_of_draws [c] oks n2 h (by rw [if_neg (Bool.false_ne_true), ← hs1]; rfl) (by simp) ?_ hos',
            le_trans hn1 hn12⟩
          intro j x hx
          cases j with
          | zero => cases hx; exact hcap.mono hn12
          | succ j => simp at hx
        | true =>
          rw [if_pos rfl]
          generalize hs2 : writeChunk r (min c r.txPending.length)
            (s1.setEnv { s1.env with writeOk := oks, count := n2 }) = s2
          have e2 : s2.env = { s.env with sndCap := s.env.sndCap.drop 1, writeOk := oks, count := n2 } := by
            rw [← hs2, ← hs1]; rfl
          have hr2 : s2.slRec = some { r with txPending := r.txPending.drop (min c r.txPending.length), retries := 0 } := by
            rw [← hs2]; rfl
          have hmin : r.txPending.take (min c r.txPending.length) = r.txPending.take c ∧
              r.txPending.drop (min c r.txPending.length) = r.txPending.drop c := by
            rcases Nat.le_total c r.txPending.length with hle | hle
            · rw [Nat.min_eq_left hle]; exact ⟨rfl, rfl⟩
            · rw [Nat.min_eq_right hle, List.take_of_length_le (le_refl _), List.take_of_length_le hle,
                List.drop_of_length_le (le_refl _), List.drop_of_length_le hle]; exact ⟨rfl, rfl⟩
          obtain ⟨⟨used, chunks, rest, drawn, oks', n3, f1, f2, _, f4, f5, f6, f7, f8⟩, hn3⟩ :=
            ih hr2
          have hn23 : n2 ≤ n3 := by rw [f1, e2] at hn3; exact hn3
          have hcut : cutChunks (c :: used) r.txPending = (r.txPending.take c :: chunks, rest) := by
            simp only [hmin.2] at f2
            rw [cutChunks, f2]
          refine ⟨⟨c :: used, r.txPending.take c :: chunks, rest, c :: drawn, oks', n3, ?_, hcut, ?_, ?_, ?_, ?_, ?_, ?_⟩, ?_⟩
          · rw [f1, e2, ← hs2, ← hs1]
            simp [writeChunk, State.emit, State.setOut, State.setSlRec, State.setEnv, hmin.1]
          · have := cutChunks_flatten (c :: used) r.txPending
            rwa [hcut] at this
          · intro x hx
            rcases List.mem_cons.mp hx with rfl | hx
            · rw [Ne, ← List.length_eq_zero_iff, List.length_take]; omega
            · exact f4 x hx
          · exact (List.prefix_cons_inj c).mpr f5
          · simp only [List.length_cons]; omega
          · intro j x hx
            cases j with
            | zero => cases hx; exact hcap.mono (by omega)
            | succ j => exact (f7 j x hx).shift (by rw [e2]) (by rw [e2]; show s.env.count ≤ n2; omega)
          · rw [e2] at f8; exact f8.trans hos'
          · rw [f1]; show s.env.count ≤ n3; omega

/-- What a flow-controlled send does (R187, R191). -/
theorem sendPending_spec {s : State} {r : ServerRec} (h : s.slRec = some r) :
    Sends s (sendPending s) ∧ SendOutcome s r (sendPending s) := by
  have e : sendPending s = sendLoop r.txPending.length s := by unfold sendPending; rw [h]
  rw [e]; exact ⟨sendLoop_sends _ h (le_refl _), (sendLoop_outcome _ h).1⟩

end Sys2Proof.Machine
end

