-- ==== Sys2Proof/Laws/Links.lean ====
section
/-! SUPPORT. The operations the client and the server share between their events: starting an attempt, the time-out,
ingesting bytes, finalising (spec/44_client_link.md, spec/45_server_link.md). -/

namespace Sys2Proof.Machine

/-- `cl_finalize` drops the record, clears the slot for its handle only, and emits one command (R164). -/
theorem clFinalize_eq (r : ClientRec) (s : State) :
    clFinalize r s = { s with
      clRec := none
      alSlot := if s.alSlot = some r.handle then none else s.alSlot
      out := { s.out with cmds := s.out.cmds ++ [if s.cfg.clCleanup = .close then .close r.handle else .abort r.handle] } } := by
  rw [clFinalize, clearLinkIf_eq]
  cases h : s.cfg.clCleanup <;> simp [State.emit, State.setOut, State.setClRec, State.setAlSlot]

/-- `sl_finalize` drops the record, clears the slot for its handle only, and closes (R182). -/
theorem slFinalize_eq (r : ServerRec) (s : State) :
    slFinalize r s = { s with
      slRec := none
      alSlot := if s.alSlot = some r.handle then none else s.alSlot
      out := { s.out with cmds := s.out.cmds ++ [.close r.handle] } } := by
  rw [slFinalize, clearLinkIf_eq]; rfl

/-- What a receive path leaves of a buffer (R129): FQ(tx) and the notes change, nothing else. -/
theorem ingest_spec (buf : List Byte) (s : State) (hw : s.tx.wf s.cfg.nTx = true)
    (hf : ∀ f ∈ (decodeBuffer buf).1, f.inv = true) :
    ∃ Q : FrameQueue,
      ingest buf s = { s with
        tx := Q
        out := { s.out with
          errors := s.out.errors ++
            List.replicate ((decodeBuffer buf).1.length - (s.cfg.nTx - 1 - s.tx.count s.cfg.nTx)) (.queueFull .tx)
          incomplete := true } } ∧
      Q.wf s.cfg.nTx = true ∧ Q.tail = s.tx.tail ∧
      Q.contents s.cfg.nTx =
        s.tx.contents s.cfg.nTx ++ (decodeBuffer buf).1.take (s.cfg.nTx - 1 - s.tx.count s.cfg.nTx) := by
  obtain ⟨Q, h1, h2, h3, h4⟩ := pushAll_spec .tx (decodeBuffer buf).1 (s.noteIncomplete true) hw hf
  exact ⟨Q, by rw [ingest, scanIncomplete_eq, h1]; rfl, h2, h3, h4⟩

/-- A flow-controlled send touches the server's record, the answers and the output only. -/
theorem sendPending_frame (s : State) :
    sendPending s = { s with
      slRec := (sendPending s).slRec, env := (sendPending s).env, out := (sendPending s).out } := by
  cases h : s.slRec with
  | none => simp only [sendPending, h]; rw [← h]
  | some r =>
    obtain ⟨_, _, _, _, _, _, _, e, _⟩ := sendPending_spec h
    rw [e]

/-- What a send does to the record: it keeps all but the pending bytes and the retry counter. -/
theorem sendPending_slRec {s : State} {r : ServerRec} (h : s.slRec = some r) :
    ∃ rest n, (sendPending s).slRec = some { r with txPending := rest, retries := n } ∧ (n = 0 ∨ n = r.retries) := by
  obtain ⟨_, used, _, rest, _, _, _, e, _⟩ := sendPending_spec h
  refine ⟨rest, if used = [] then r.retries else 0, by rw [e], ?_⟩
  split
  · exact .inr rfl
  · exact .inl rfl

/-- What a new attempt leaves, if the allocation succeeds (R160). -/
theorem initiate_cases (now : Time) (s : State) :
    ((∃ r, s.clRec = some r) ∧ initiate now s = .next s) ∨
    (s.clRec = none ∧ (drawAlloc s).1 = none ∧ initiate now s = .refused .allocFailed) ∨
    ∃ h, s.clRec = none ∧ (drawAlloc s).1 = some h ∧ initiate now s = .next { s with
      clRec := some { state := .connecting, handle := h, attemptStart := now, rxTail := [] }
      clRetryRef := some now
      env := (drawAlloc s).2.env
      out := { s.out with cmds := s.out.cmds ++ [.connect h s.cfg.destAddr s.cfg.destPort] } } := by
  unfold initiate
  cases hc : s.clRec with
  | some r => exact .inl ⟨⟨r, rfl⟩, rfl⟩
  | none =>
    right
    have hs := drawAlloc_state s
    generalize drawAlloc s = x at hs
    obtain ⟨_ | h, s'⟩ := x
    · exact .inl ⟨rfl, rfl, rfl⟩
    · refine .inr ⟨h, rfl, rfl, ?_⟩
      dsimp only at hs ⊢
      rw [hs]; rfl

/-- Elapsed time in numbers (R170). -/
theorem elapsed_toNat (now t : Time) : (elapsed now t).toNat = (now.toNat + 2 ^ 32 - t.toNat) % 2 ^ 32 := by
  have := t.isLt
  unfold elapsed; rw [BitVec.toNat_sub]; congr 1; omega

/-- The two cases of a tick's first part (R161). -/
theorem tickTimeout_cases (now : Time) (s : State) :
    (∃ r, s.clRec = some r ∧ r.state = .connecting ∧ exceeds (elapsed now r.attemptStart) s.cfg.synTimeout = true ∧
      tickTimeout now s = { s with
        clRec := none
        clRetryRef := some now
        out := { s.out with cmds := s.out.cmds ++ [.abort r.handle], errors := s.out.errors ++ [.handshakeTimeout] } }) ∨
    ((∀ r, s.clRec = some r → r.state = .connecting → exceeds (elapsed now r.attemptStart) s.cfg.synTimeout = false) ∧
      tickTimeout now s = s) := by
  unfold tickTimeout handshakeTimedOut
  cases hc : s.clRec with
  | none => exact .inr ⟨by simp, rfl⟩
  | some r =>
    by_cases h : r.state = .connecting ∧ exceeds (elapsed now r.attemptStart) s.cfg.synTimeout = true
    · exact .inl ⟨r, rfl, h.1, h.2, by simp only [if_pos h]; rfl⟩
    · refine .inr ⟨?_, by simp only [if_neg h]⟩
      intro r' hr' hs
      obtain rfl : r = r' := Option.some.inj hr'
      exact Bool.not_eq_true _ ▸ fun he => h ⟨hs, he⟩

end Sys2Proof.Machine
end

