-- ==== Sys2Proof/Laws/Micro.lean ====
section
/-! SUPPORT. The micro-steps of FQ.PUSH and FQ.POP against the atomic transitions (spec/40_frame_queue.md R104 to
R107), and what interrupts at the boundaries of a pop from FQ(rx) can do; and one pass of an NE.EGRESS under way (R152). -/

namespace Sys2Proof.Machine

/-! ## Without interrupts -/

/-- The end of a push clears values that are clear already. -/
theorem pushEnd_eq {s : State} (h : s.inflight.push = {}) : pushEnd s = s := by
  unfold pushEnd State.setPush; rw [← h]

/-- The end of a pop clears values that are clear already. -/
theorem popEnd_eq {s : State} (h : s.inflight.pop = {}) : popEnd s = s := by
  unfold popEnd State.setPop; rw [← h]

/-- P1 to P4 in order are the atomic push (R104). -/
theorem pushMicro_eq (q : QSel) (f : BusFrame) {s : State} (h : s.inflight.push = {}) :
    pushMicro q f s = pushFrame q f s := by
  have e : pushSeesFull q (pushP1 q s) = (s.queue q).isFull (s.cap q) := by cases q <;> rfl
  unfold pushMicro
  rw [e]
  rcases pushFrame_cases q f s with ⟨hf, hp⟩ | ⟨hf, hp⟩ <;> rw [hf, hp]
  · rw [if_pos rfl, ← pushEnd_eq (s := s.raise _) (by exact h)]; rfl
  · rw [if_neg (by decide), ← pushEnd_eq (s := s.setQueue q _) (by cases q <;> exact h)]; cases q <;> rfl

/-- C1 to C4 of a pop from FQ(tx) are the atomic pop: nothing interleaves there (R105, R107). -/
theorem popMicro_tx {s : State} (h : s.inflight.pop = {}) : popMicro .tx s = .next (popFrame .tx s) := by
  have e : popSeesEmpty (popC1 .tx s) = (s.queue .tx).isEmpty := rfl
  simp only [popMicro, popBoundary, andThen_next, e]
  rcases popFrame_cases .tx s with ⟨hf, hp⟩ | ⟨hf, hp⟩ <;> rw [hf, hp]
  · rw [if_pos rfl, ← popEnd_eq h]; rfl
  · rw [if_neg (by decide), ← popEnd_eq (s := s.setQueue .tx (FrameQueue.popped (s.cap .tx) (s.queue .tx))) h]; rfl

/-- C1 to C4 of a pop from FQ(rx) without interrupts are the atomic pop. -/
theorem popMicro_rx {s : State} (h : s.inflight.pop = {}) (hi : s.env.irq = []) :
    popMicro .rx s = .next (popFrame .rx s) := by
  have e : popSeesEmpty (popC1 .rx s) = (s.queue .rx).isEmpty := rfl
  have p1 : preempt (popC1 .rx s) = .next (popC1 .rx s) := preempt_none hi
  have p2 : preempt (popC3 .rx (popC1 .rx s)) = .next (popC3 .rx (popC1 .rx s)) := preempt_none hi
  simp only [popMicro, popBoundary, p1, andThen_next, p2, e]
  rcases popFrame_cases .rx s with ⟨hf, hp⟩ | ⟨hf, hp⟩ <;> rw [hf, hp]
  · rw [if_pos rfl, ← popEnd_eq h]; rfl
  · rw [if_neg (by decide), ← popEnd_eq (s := s.setQueue .rx (FrameQueue.popped (s.cap .rx) (s.queue .rx))) h]; rfl

/-! ## Interrupts and the private values of what they pre-empt (R219) -/

theorem takeInterrupt_setPop (p : PFrame) (r : PopRegs) (s : State) :
    takeInterrupt p (s.setPop r) = andThen (takeInterrupt p s) fun t => .next (t.setPop r) := by
  unfold takeInterrupt
  rcases ingress_cases p (interruptEntry s) with ⟨h, e⟩ | ⟨h, hf, e⟩ | ⟨h, hf, e⟩ <;>
  rcases ingress_cases p (interruptEntry (s.setPop r)) with ⟨h', e'⟩ | ⟨h', hf', e'⟩ | ⟨h', hf', e'⟩ <;>
  first
  | (rw [h] at h'; cases h'; done)
  | (rw [show (interruptEntry (s.setPop r)).rx = (interruptEntry s).rx from rfl,
      show (interruptEntry (s.setPop r)).cfg = (interruptEntry s).cfg from rfl, hf] at hf'; cases hf'; done)
  | (rw [e, e']; rfl)

theorem takeInterrupts_setPop (ps : List PFrame) (r : PopRegs) (s : State) :
    takeInterrupts ps (s.setPop r) = andThen (takeInterrupts ps s) fun t => .next (t.setPop r) := by
  induction ps generalizing s with
  | nil => rfl
  | cons p ps ih =>
    simp only [takeInterrupts, takeInterrupt_setPop, andThen_assoc, andThen_next]
    congr 1; funext t; exact ih t

/-- Interrupts do not look at the answers the environment has lined up. -/
theorem takeInterrupt_setEnv (p : PFrame) (v : Env) (s : State) :
    takeInterrupt p (s.setEnv v) = andThen (takeInterrupt p s) fun t => .next (t.setEnv v) := by
  unfold takeInterrupt
  rcases ingress_cases p (interruptEntry s) with ⟨h, e⟩ | ⟨h, hf, e⟩ | ⟨h, hf, e⟩ <;>
  rcases ingress_cases p (interruptEntry (s.setEnv v)) with ⟨h', e'⟩ | ⟨h', hf', e'⟩ | ⟨h', hf', e'⟩ <;>
  first
  | (rw [h] at h'; cases h'; done)
  | (rw [show (interruptEntry (s.setEnv v)).rx = (interruptEntry s).rx from rfl,
      show (interruptEntry (s.setEnv v)).cfg = (interruptEntry s).cfg from rfl, hf] at hf'; cases hf'; done)
  | (rw [e, e']; rfl)

theorem takeInterrupts_setEnv (ps : List PFrame) (v : Env) (s : State) :
    takeInterrupts ps (s.setEnv v) = andThen (takeInterrupts ps s) fun t => .next (t.setEnv v) := by
  induction ps generalizing s with
  | nil => rfl
  | cons p ps ih =>
    simp only [takeInterrupts, takeInterrupt_setEnv, andThen_assoc, andThen_next]
    congr 1; funext t; exact ih t

/-! ## Boundaries -/

/-- `t` is `s` after the interrupts of one script entry, which queued the frames `fs` and dropped `d`: FQ(rx), PEND, the
interrupt script and the notes may have changed, nothing else has; nothing is taken out of the queue (R107, R143, R219). -/
structure Boundary (s t : State) (fs : List BusFrame) (d : Nat) : Prop where
  frame : t = { s with rx := t.rx, pend := t.pend, env := { s.env with irq := s.env.irq.drop 1 },
                       out := { s.out with errors := s.out.errors ++ List.replicate d (.queueFull .rx) } }
  legal : t.irqLegal = true
  wf : t.rx.wf s.cfg.nRx = true
  tail : t.rx.tail = s.rx.tail
  contents : t.rx.contents s.cfg.nRx = s.rx.contents s.cfg.nRx ++ fs
  arrivals : Arrivals s.cfg.nRx (s.rx.contents s.cfg.nRx).length (s.env.irq.take 1).flatten fs d

theorem Boundary.cfg {s t : State} {fs : List BusFrame} {d : Nat} (h : Boundary s t fs d) : t.cfg = s.cfg := by
  rw [h.frame]

theorem Boundary.inflight {s t : State} {fs : List BusFrame} {d : Nat} (h : Boundary s t fs d) :
    t.inflight = s.inflight := by rw [h.frame]

theorem Boundary.irq {s t : State} {fs : List BusFrame} {d : Nat} (h : Boundary s t fs d) :
    t.env.irq = s.env.irq.drop 1 := by rw [h.frame]

/-- What a boundary does: it always goes on, as `Boundary` says. -/
theorem preempt_spec (s : State) (hl : s.irqLegal = true) (hw : s.rx.wf s.cfg.nRx = true) :
    ∃ t fs d, preempt s = .next t ∧ Boundary s t fs d := by
  cases hi : s.env.irq with
  | nil =>
    refine ⟨s, [], 0, preempt_none hi, ?_, hl, hw, rfl, by simp, by rw [hi]; exact .nil _ _⟩
    rw [hi, List.drop_nil, ← hi, List.replicate_zero, List.append_nil]
  | cons ps rest =>
    have hps : ps.all PFrame.legal = true ∧ (rest.all fun ps => ps.all PFrame.legal) = true := by
      rw [State.irqLegal, hi, List.all_cons, Bool.and_eq_true] at hl; exact hl
    obtain ⟨Q, fs, d, e1, e2, e3, e4, e5⟩ := takeInterrupts_spec ps (s.setEnv { s.env with irq := rest }) hps.1 hw
    rw [preempt_some hi, e1]
    exact ⟨_, fs, d, rfl, by rw [hi]; rfl, hps.2, e2, e3, e4, by rw [hi]; simpa using e5⟩

/-- The script's entries used one after another. -/
theorem flatten_take_add {α : Type} (l : List (List α)) (a b : Nat) :
    (l.take (a + b)).flatten = (l.take a).flatten ++ ((l.drop a).take b).flatten := by
  rw [List.take_add, List.flatten_append]

/-- A queue that holds a frame is not empty. -/
theorem FrameQueue.isEmpty_false_of_contents {n : Nat} {Q : FrameQueue} (hw : Q.wf n = true) (h : Q.contents n ≠ []) :
    Q.isEmpty = false := by
  obtain ⟨_, hh, ht⟩ := (FrameQueue.wf_iff _ _).mp hw
  cases he : Q.isEmpty
  · rfl
  · exact absurd (contents_empty hh ht he) h

theorem FrameQueue.contents_ne_nil {n : Nat} {Q : FrameQueue} (hw : Q.wf n = true) (h : Q.isEmpty = false) :
    Q.contents n ≠ [] := by
  rw [contents_popped hw h]; simp

/-- What a pop from FQ(rx) leaves, interrupts included (R105, R106): it answers `none` only if the queue was empty when
it began, and then takes nothing out and uses one script entry; else it answers the oldest frame and uses three. -/
theorem popMicro_rx_spec (s : State) (hp : s.inflight.pop = {}) (hl : s.irqLegal = true) (hw : s.rx.wf s.cfg.nRx = true) :
    ∃ (r : Option BusFrame) (t : State) (fs : List BusFrame) (d k : Nat),
      popMicro .rx s = .next (r, t) ∧
      t = { s with rx := t.rx, pend := t.pend, env := { s.env with irq := s.env.irq.drop k },
                   out := { s.out with errors := s.out.errors ++ List.replicate d (.queueFull .rx) } } ∧
      t.irqLegal = true ∧ t.rx.wf s.cfg.nRx = true ∧
      Arrivals s.cfg.nRx (s.rx.contents s.cfg.nRx).length (s.env.irq.take k).flatten fs d ∧
      ((r = none ∧ k = 1 ∧ s.rx.isEmpty = true ∧ t.rx.contents s.cfg.nRx = s.rx.contents s.cfg.nRx ++ fs) ∨
        ∃ f, r = some f ∧ k = 3 ∧ f.inv = true ∧ s.rx.isEmpty = false ∧
          f :: t.rx.contents s.cfg.nRx = s.rx.contents s.cfg.nRx ++ fs) := by
  obtain ⟨s1, f1, d1, p1, b1⟩ := preempt_spec (popC1 .rx s) hl hw
  have k1 : s1.inflight = (popC1 .rx s).inflight := b1.inflight
  have c1 : s1.rx.contents s.cfg.nRx = s.rx.contents s.cfg.nRx ++ f1 := b1.contents
  have see : popSeesEmpty s1 = s.rx.isEmpty := by unfold popSeesEmpty; rw [k1]; rfl
  simp only [popMicro, popBoundary, p1, andThen_next, see]
  cases he : s.rx.isEmpty with
  | true =>
    refine ⟨none, popEnd s1, f1, d1, 1, rfl, ?_, b1.legal, b1.wf, b1.arrivals, .inl ⟨rfl, rfl, rfl, c1⟩⟩
    rw [b1.frame]
    unfold popEnd popC1 State.setPop
    simp only [← hp]
  | false =>
    have hcfg1 : s1.cfg = s.cfg := b1.cfg
    obtain ⟨s2, f2, d2, p2, b2⟩ := preempt_spec s1 b1.legal (by rw [hcfg1]; exact b1.wf)
    have hcfg2 : (popC3 .rx s2).cfg = s.cfg := b2.cfg.trans hcfg1
    obtain ⟨s3, f3, d3, p3, b3⟩ := preempt_spec (popC3 .rx s2) b2.legal
      (by rw [hcfg2, ← hcfg1]; exact b2.wf)
    simp only [p2, andThen_next, p3, Bool.false_eq_true, if_false]
    have c2 : s2.rx.contents s.cfg.nRx = s1.rx.contents s.cfg.nRx ++ f2 := by rw [← hcfg1]; exact b2.contents
    have c3 : s3.rx.contents s.cfg.nRx = s2.rx.contents s.cfg.nRx ++ f3 := by
      have := b3.contents; rw [hcfg2] at this; exact this
    have w2 : s2.rx.wf s.cfg.nRx = true := by rw [← hcfg1]; exact b2.wf
    have w3 : s3.rx.wf s.cfg.nRx = true := by have := b3.wf; rw [hcfg2] at this; exact this
    have t1 : s1.rx.tail = s.rx.tail := b1.tail
    have t2 : s2.rx.tail = s.rx.tail := b2.tail.trans t1
    have t3 : s3.rx.tail = s.rx.tail := (show s3.rx.tail = s2.rx.tail from b3.tail).trans t2
    have hne : s.rx.contents s.cfg.nRx ≠ [] := FrameQueue.contents_ne_nil hw he
    have x2 := FrameQueue.contents_popped w2
      (FrameQueue.isEmpty_false_of_contents w2 (by rw [c2, c1]; simp [hne]))
    have x3 := FrameQueue.contents_popped w3
      (FrameQueue.isEmpty_false_of_contents w3 (by rw [c3, c2, c1]; simp [hne]))
    have hread : Memory.read s3.rx.slot s3.rx.tail = Memory.read s2.rx.slot s2.rx.tail := by
      rw [x3, x2] at c3; exact (List.cons.inj c3).1
    have k2 : s2.inflight.pop.t = s.rx.tail := by rw [b2.inflight, k1]; rfl
    have k3 : s3.inflight = (popC3 .rx s2).inflight := b3.inflight
    have k4 : s3.inflight.pop.f = Memory.read s2.rx.slot s2.rx.tail := by
      rw [k3, t2, ← k2]; rfl
    have k5 : s3.inflight.pop.t = s3.rx.tail := by rw [k3, t3, ← k2]; rfl
    have hcfg3 : s3.cfg = s.cfg := b3.cfg.trans hcfg2
    have hrx : (popEnd (popC4 .rx s3)).rx = s3.rx.popped s.cfg.nRx := by
      rw [← hcfg3]
      show ({ s3.rx with tail := nextIndex s3.cfg.nRx s3.inflight.pop.t } : FrameQueue) = _
      rw [k5]; rfl
    have i1 : s1.env.irq = s.env.irq.drop 1 := b1.irq
    have i2 : (popC3 .rx s2).env.irq = s.env.irq.drop 2 := by
      show s2.env.irq = _; rw [b2.irq, i1, List.drop_drop]
    have a1 : Arrivals s.cfg.nRx (s.rx.contents s.cfg.nRx).length (s.env.irq.take 1).flatten f1 d1 := b1.arrivals
    have a2 : Arrivals s.cfg.nRx (s1.rx.contents s.cfg.nRx).length ((s.env.irq.drop 1).take 1).flatten f2 d2 := by
      have := b2.arrivals; rwa [hcfg1, i1] at this
    have a3 : Arrivals s.cfg.nRx (s2.rx.contents s.cfg.nRx).length ((s.env.irq.drop 2).take 1).flatten f3 d3 := by
      have := b3.arrivals; rwa [hcfg2, i2] at this
    refine ⟨_, popEnd (popC4 .rx s3), f1 ++ f2 ++ f3, d1 + d2 + d3, 3, rfl, ?_, b3.legal, ?_, ?_,
      .inr ⟨_, rfl, rfl, ?_, trivial, ?_⟩⟩
    · rw [b3.frame, b2.frame, b1.frame]
      unfold popEnd popC4 popC3 popC1 State.setPop State.setQueue
      simp only [← hp, List.drop_drop, ← List.replicate_append_replicate, List.append_assoc]
    · rw [hrx]; exact FrameQueue.popped_wf w3
    · rw [show 3 = 1 + 1 + 1 from rfl, flatten_take_add, flatten_take_add]
      exact (a1.append a2 (by simp [c1])).append a3 (by simp [c2, c1])
    · rw [k4]; exact Memory.read_inv _ ((FrameQueue.wf_iff _ _).mp w2).1
    · rw [hrx, k4, ← hread, ← x3, c3, c2, c1]; simp

/-! ## NE.EGRESS under way (R152): one pass for each position -/

/-- At N2: the boundary, then the pop. -/
theorem egressRun_n2 {k : Nat} {s s1 : State} {h : Handle} (hp : preempt s = .next s1)
    (he : s1.inflight.egress = some { h := h, pos := .n2 }) :
    egressRun (k + 1) s = andThen (egressN2 h s1) (egressRun k) := by
  rw [egressRun, hp, andThen_next]; simp only [he]

/-- At N3: the boundary, then the popped frame is sent. -/
theorem egressRun_n3 {k : Nat} {s s1 : State} {h : Handle} {f : BusFrame} (hp : preempt s = .next s1)
    (he : s1.inflight.egress = some { h := h, pos := .n3 f }) :
    egressRun (k + 1) s = andThen (egressN3 h f s1) (egressRun k) := by
  rw [egressRun, hp, andThen_next]; simp only [he]

/-- At N4: the boundary, then PEND is cleared and the operation is over. -/
theorem egressRun_n4 {k : Nat} {s s1 : State} {h : Handle} (hp : preempt s = .next s1)
    (he : s1.inflight.egress = some { h := h, pos := .n4 }) : egressRun (k + 1) s = .next (egressN4 s1) := by
  rw [egressRun, hp, andThen_next]; simp only [he]

end Sys2Proof.Machine
end

