-- ==== Sys2Proof/Laws/PerInstr.lean ====
section
/-! SUPPORT. Laws stated for one operation at a time. -/

namespace Sys2Proof

/-- The selector byte of an operation, read off the table of spec/30_encoding.md R90; the wire frame has none. -/
def Laws.selectorOf : Instr → Option Byte
  | .fqPush _ _ => some 0x10
  | .fqPop _ => some 0x11
  | .fcEncode _ => some 0x20
  | .fcDecode _ => some 0x21
  | .biIngress _ => some 0x30
  | .beEgress => some 0x31
  | .neEgress => some 0x40
  | .clInitiate _ => some 0x50
  | .clTick _ => some 0x51
  | .clConnected => some 0x52
  | .clConnfail => some 0x53
  | .clRecv _ => some 0x54
  | .clEos => some 0x55
  | .clError => some 0x56
  | .clPoll _ => some 0x57
  | .slSetup => some 0x60
  | .slAccept _ => some 0x61
  | .slRecv _ => some 0x62
  | .slEos => some 0x63
  | .slError => some 0x64
  | .slEnqueue _ => some 0x65
  | .slSend => some 0x66
  | .slSent => some 0x67
  | .slPoll _ => some 0x68
  | .alSet _ => some 0x70
  | .alClearif _ => some 0x71
  | .alGet => some 0x72
  | .wireFrame _ => none

/-- The family: an operation's byte form begins with its selector (R89, R90), or is the wire form. -/
def Laws.SelectorByte.Statement (i : Instr) : Prop :=
  match Laws.selectorOf i with
  | some sel => i.format = .op8 ∧ (encode i).head? = some sel
  | none => i.format = .wire

theorem Laws.SelectorByte.fqPush (q : QSel) (frame : BusFrame) : Laws.SelectorByte.Statement (.fqPush q frame) := ⟨rfl, rfl⟩
theorem Laws.SelectorByte.fqPop (q : QSel) : Laws.SelectorByte.Statement (.fqPop q) := ⟨rfl, rfl⟩
theorem Laws.SelectorByte.fcEncode (frame : BusFrame) : Laws.SelectorByte.Statement (.fcEncode frame) := ⟨rfl, rfl⟩
theorem Laws.SelectorByte.fcDecode (buffer : List Byte) : Laws.SelectorByte.Statement (.fcDecode buffer) := ⟨rfl, rfl⟩
theorem Laws.SelectorByte.biIngress (pframe : PFrame) : Laws.SelectorByte.Statement (.biIngress pframe) := ⟨rfl, rfl⟩
theorem Laws.SelectorByte.beEgress : Laws.SelectorByte.Statement .beEgress := ⟨rfl, rfl⟩
theorem Laws.SelectorByte.neEgress : Laws.SelectorByte.Statement .neEgress := ⟨rfl, rfl⟩
theorem Laws.SelectorByte.clInitiate (now : Time) : Laws.SelectorByte.Statement (.clInitiate now) := ⟨rfl, rfl⟩
theorem Laws.SelectorByte.clTick (now : Time) : Laws.SelectorByte.Statement (.clTick now) := ⟨rfl, rfl⟩
theorem Laws.SelectorByte.clConnected : Laws.SelectorByte.Statement .clConnected := ⟨rfl, rfl⟩
theorem Laws.SelectorByte.clConnfail : Laws.SelectorByte.Statement .clConnfail := ⟨rfl, rfl⟩
theorem Laws.SelectorByte.clRecv (bytes : List Byte) : Laws.SelectorByte.Statement (.clRecv bytes) := ⟨rfl, rfl⟩
theorem Laws.SelectorByte.clEos : Laws.SelectorByte.Statement .clEos := ⟨rfl, rfl⟩
theorem Laws.SelectorByte.clError : Laws.SelectorByte.Statement .clError := ⟨rfl, rfl⟩
theorem Laws.SelectorByte.clPoll (h : Handle) : Laws.SelectorByte.Statement (.clPoll h) := ⟨rfl, rfl⟩
theorem Laws.SelectorByte.slSetup : Laws.SelectorByte.Statement .slSetup := ⟨rfl, rfl⟩
theorem Laws.SelectorByte.slAccept (h : Handle) : Laws.SelectorByte.Statement (.slAccept h) := ⟨rfl, rfl⟩
theorem Laws.SelectorByte.slRecv (bytes : List Byte) : Laws.SelectorByte.Statement (.slRecv bytes) := ⟨rfl, rfl⟩
theorem Laws.SelectorByte.slEos : Laws.SelectorByte.Statement .slEos := ⟨rfl, rfl⟩
theorem Laws.SelectorByte.slError : Laws.SelectorByte.Statement .slError := ⟨rfl, rfl⟩
theorem Laws.SelectorByte.slEnqueue (bytes : List Byte) : Laws.SelectorByte.Statement (.slEnqueue bytes) := ⟨rfl, rfl⟩
theorem Laws.SelectorByte.slSend : Laws.SelectorByte.Statement .slSend := ⟨rfl, rfl⟩
theorem Laws.SelectorByte.slSent : Laws.SelectorByte.Statement .slSent := ⟨rfl, rfl⟩
theorem Laws.SelectorByte.slPoll (h : Handle) : Laws.SelectorByte.Statement (.slPoll h) := ⟨rfl, rfl⟩
theorem Laws.SelectorByte.alSet (h : Handle) : Laws.SelectorByte.Statement (.alSet h) := ⟨rfl, rfl⟩
theorem Laws.SelectorByte.alClearif (h : Handle) : Laws.SelectorByte.Statement (.alClearif h) := ⟨rfl, rfl⟩
theorem Laws.SelectorByte.alGet : Laws.SelectorByte.Statement .alGet := ⟨rfl, rfl⟩
theorem Laws.SelectorByte.wireFrame (buf : List Byte) : Laws.SelectorByte.Statement (.wireFrame buf) := rfl

end Sys2Proof
end

