-- ==== Sys2Proof/Tests/Slice0.lean ====
section
/-! SUPPORT. Tests: decoding of words written out from the spec's tables (spec/30_encoding.md R81, R90), the
WellFormed smoke test, and one-step tests taken from the worked examples and derived vectors of
spec/95_test_vectors.md (the vector's name stands in each comment). -/

namespace Sys2Proof.Tests

open Sys2Proof.Machine

/-! ## Helpers -/

/-- The sample configuration of 95_test_vectors.md with `N = 4` slots. -/
def cfg : Config where
  nRx := 4
  nTx := 4
  destAddr := ⟨1⟩
  destPort := 29200
  bindAddr := ⟨2⟩
  bindPort := 29200
  synTimeout := 3000
  reconnectBackoff := 2000
  clCleanup := .close
  clRetainTail := true
  slCloseOnSent := false

/-- The reset state with the sample configuration. -/
def base : State := { State.reset with cfg := cfg, rx := FrameQueue.empty 4, tx := FrameQueue.empty 4 }

def h1 : Handle := ⟨1⟩
def h2 : Handle := ⟨2⟩
def h9 : Handle := ⟨9⟩

/-- Frame `A` of section 2.2. -/
def frameA : BusFrame := { id := 123, dlc := 2, data := [0xAA, 0xBB] }
/-- Frame `B` of section 2.2. -/
def frameB : BusFrame := { ext := true, id := 0x1ABCDE }
/-- The wire bytes of `A` (X1). -/
def bytesA : List Byte := [0x00, 0x00, 0x00, 0x00, 0x7B, 0x02, 0xAA, 0xBB]
/-- The wire bytes of `B` (X2). -/
def bytesB : List Byte := [0x01, 0x00, 0x1A, 0xBC, 0xDE, 0x00]

/-- A queue of 4 slots. -/
def queue4 (head tail : Nat) (slot : List BusFrame) : FrameQueue := { slot := slot, head := head, tail := tail }

/-- FQ holding `A` and `B`. -/
def queueAB : FrameQueue := queue4 2 0 [frameA, frameB, {}, {}]

def client (st : ClientState) (h : Handle) (start : Time) (tail : List Byte := []) : Option ClientRec :=
  some { state := st, handle := h, attemptStart := start, rxTail := tail }

def server (st : ServerState) (h : Handle) (rx tx : List Byte) : Option ServerRec :=
  some { state := st, handle := h, rxPending := rx, txPending := tx, retries := 0 }

/-- The next state, if there is one. -/
def after : Answer → Option State
  | .next s => some s
  | .fault _ => none
  | .refused _ => none

/-- The refusal, if the operation is refused. -/
def refusal : Answer → Option Refusal
  | .next _ => none
  | .fault _ => none
  | .refused r => some r

/-- One operation by its own agent, seen through `f`. -/
def run {α : Type} (i : Instr) (s : State) (f : State → α) : Option α := (after (execAs i s)).map f

/-! ## Decoding: the selector bytes of R90 with operand bytes written out (log 2) -/

/-- The operation a byte list decodes to, if it decodes to one with no byte left. -/
def decoded (f : Format) (bs : List Byte) : Option Instr :=
  match decode f bs with
  | .ok (i, []) => some i
  | .ok (_, _ :: _) => none
  | .error _ => none

theorem test_decode_fqPush : decoded .op8 [0x10, 0x01, 0x01, 0x00, 0x1A, 0xBC, 0xDE, 0x00, 0x00] = some (.fqPush .tx frameB) := by decide
theorem test_decode_fqPop : decoded .op8 [0x11, 0x00] = some (.fqPop .rx) := by decide
theorem test_decode_fcEncode : decoded .op8 [0x20, 0x00, 0x00, 0x00, 0x00, 0x7B, 0x02, 0x01, 0xAA, 0x01, 0xBB, 0x00] = some (.fcEncode frameA) := by decide
theorem test_decode_fcDecode : decoded .op8 [0x21, 0x01, 0x7B, 0x00] = some (.fcDecode [0x7B]) := by decide
theorem test_decode_biIngress : decoded .op8 [0x30, 0x02, 0x00, 0x00, 0x01, 0x23, 0x00, 0x00, 0x00, 0x00, 0x02, 0x11, 0x22, 0, 0, 0, 0, 0, 0] = some (.biIngress { rtr := true, stdId := 0x123, dlc := 2, data := ⟨0x11, 0x22, 0, 0, 0, 0, 0, 0⟩ }) := by decide
theorem test_decode_beEgress : decoded .op8 [0x31] = some (.beEgress) := by decide
theorem test_decode_neEgress : decoded .op8 [0x40] = some (.neEgress) := by decide
theorem test_decode_clInitiate : decoded .op8 [0x50, 0x00, 0x00, 0x03, 0xE8] = some (.clInitiate 1000) := by decide
theorem test_decode_clTick : decoded .op8 [0x51, 0x00, 0x00, 0x0F, 0xA1] = some (.clTick 4001) := by decide
theorem test_decode_clConnected : decoded .op8 [0x52] = some (.clConnected) := by decide
theorem test_decode_clConnfail : decoded .op8 [0x53] = some (.clConnfail) := by decide
theorem test_decode_clRecv : decoded .op8 [0x54, 0xBB, 0x00] = some (.clRecv [0xBB]) := by decide
theorem test_decode_clEos : decoded .op8 [0x55] = some (.clEos) := by decide
theorem test_decode_clError : decoded .op8 [0x56] = some (.clError) := by decide
theorem test_decode_clPoll : decoded .op8 [0x57, 0x01, 0x01, 0x00] = some (.clPoll h1) := by decide
theorem test_decode_slSetup : decoded .op8 [0x60] = some (.slSetup) := by decide
theorem test_decode_slAccept : decoded .op8 [0x61, 0x01, 0x02, 0x00] = some (.slAccept h2) := by decide
theorem test_decode_slRecv : decoded .op8 [0x62, 0x01, 0x01, 0x00, 0x00] = some (.slRecv [0x01, 0x00]) := by decide
theorem test_decode_slEos : decoded .op8 [0x63] = some (.slEos) := by decide
theorem test_decode_slError : decoded .op8 [0x64] = some (.slError) := by decide
theorem test_decode_slEnqueue : decoded .op8 [0x65, 0x01, 0x03, 0x01, 0x04, 0x00] = some (.slEnqueue [3, 4]) := by decide
theorem test_decode_slSend : decoded .op8 [0x66] = some (.slSend) := by decide
theorem test_decode_slSent : decoded .op8 [0x67] = some (.slSent) := by decide
theorem test_decode_slPoll : decoded .op8 [0x68, 0x01, 0x00, 0x01, 0x01, 0x00] = some (.slPoll ⟨256⟩) := by decide
theorem test_decode_alSet : decoded .op8 [0x70, 0x00] = some (.alSet ⟨0⟩) := by decide
theorem test_decode_alClearif : decoded .op8 [0x71, 0x01, 0x02, 0x00] = some (.alClearif h2) := by decide
theorem test_decode_alGet : decoded .op8 [0x72] = some (.alGet) := by decide

/-- The wire row: X1's frame with more bytes after it; the candidate ends after its `6 + dlc` bytes (R86). -/
theorem test_decode_wireFrame : (decode .wire (bytesA ++ [0x42])).toOption = some (.wireFrame bytesA, [0x42]) := by decide

/-- Unassigned selectors are refused by name (R90). -/
theorem test_decode_unassigned_12 : (decode .op8 [0x12]).toOption = none := by decide
theorem test_decode_unassigned_name : decode .op8 [0xFF, 0x00] = .error (.unassignedSelector 0xFF) := by rfl
/-- An operand that ends too early, and a reserved queue selector byte, are refused by name. -/
theorem test_decode_truncated : decode .op8 [0x50, 0x00, 0x00] = .error .operandTruncated := by rfl
theorem test_decode_reserved_queue : decode .op8 [0x11, 0x02] = .error (.operandReserved 0x02) := by rfl

/-- Table words: bit 0 is the least significant bit of the first byte; zero operands above. -/
theorem test_table_word_initiate : decodeTableWord 8 0x50 = some (.clInitiate 0) := by decide
theorem test_table_word_ingress : decodeTableWord 8 0x30 = some (.biIngress {}) := by decide
/-- A wire header word: byte 0 = flags 1, bytes 1..4 = 00 1A BC DE, byte 5 = 0 (X2). -/
theorem test_table_word_wire : decodeTableWord 48 0x00DEBC1A0001 = some (.wireFrame bytesB) := by decide
/-- Every selector of R90 is a table word that decodes; 27 of the 256 do. -/
theorem test_selectors_assigned :
    ((List.range 256).filter fun w => (decodeTableWord 8 w).isSome) =
      [0x10, 0x11, 0x20, 0x21, 0x30, 0x31, 0x40, 0x50, 0x51, 0x52, 0x53, 0x54, 0x55, 0x56, 0x57, 0x60, 0x61, 0x62,
        0x63, 0x64, 0x65, 0x66, 0x67, 0x68, 0x70, 0x71, 0x72] := by decide

/-! ## WellFormed: one ill-formed term for each check -/

theorem test_illformed_clRecv_empty : (Instr.clRecv []).wf = false := by decide
theorem test_illformed_slRecv_empty : (Instr.slRecv []).wf = false := by decide
theorem test_illformed_wire_two_frames : (Instr.wireFrame (bytesA ++ bytesB)).wf = false := by decide
theorem test_illformed_push_short_data : (Instr.fqPush .rx { dlc := 2, data := [1] }).wf = false := by decide
theorem test_illformed_push_dlc9 : (Instr.fqPush .rx { dlc := 9, data := [0, 0, 0, 0, 0, 0, 0, 0, 0] }).wf = false := by decide
theorem test_illformed_encode : (Instr.fcEncode { dlc := 2, data := [1] }).wf = false := by decide
theorem test_illformed_ingress : (Instr.biIngress { dlc := 9 }).wf = false := by decide
theorem test_wf_out_of_range_id : ({ id := 0x12345678 : BusFrame }.inv, { id := 0x12345678 : BusFrame }.wf) = (true, false) := by
  decide

/-! ## FrameQueue (section 2.1) -/

/-- V-FQ-3: head wrap (here `N = 4`). -/
theorem test_push_wraps : run (.fqPush .rx { id := 1 }) { base with rx := queue4 3 1 [{}, {}, {}, {}] }
    (fun t => (t.rx, t.out.result)) = some (queue4 0 1 [{}, {}, {}, { id := 1 }], .bool true) := by decide
/-- V-FQ-6: full away from 0: nothing changes, `QueueFull` noted. -/
theorem test_push_full : run (.fqPush .tx frameA) { base with tx := queue4 1 2 [frameA, {}, frameB, frameA] }
    (fun t => (t.tx, t.out.result, t.out.errors)) =
      some (queue4 1 2 [frameA, {}, frameB, frameA], .bool false, [.queueFull .tx]) := by decide
/-- V-FQ-4: tail wrap. -/
theorem test_pop_wraps : run (.fqPop .tx) { base with tx := queue4 0 3 [{}, {}, {}, { id := 7 }] }
    (fun t => (t.tx.tail, t.tx.head, t.out.result)) = some (0, 0, .frame (some { id := 7 })) := by decide
/-- V-FQ-11: an interrupt after C1 of a pop from an empty queue; the pop's copy of `head` is stale. -/
theorem test_pop_stale_head : run (.fqPop .rx) { base with env := { irq := [[{ stdId := 5 }]] } }
    (fun t => (t.rx.head, t.rx.tail, t.out.result, t.pend)) = some (1, 0, .frame none, true) := by decide
/-- V-FQ-13: a push between C3 and C4 still sees the queue full. -/
theorem test_pop_push_sees_full : run (.fqPop .rx)
    { base with rx := queue4 1 2 [{}, {}, frameA, frameB], env := { irq := [[], [], [{ stdId := 5 }]] } }
    (fun t => (t.rx.head, t.rx.tail, t.out.result, t.out.errors)) =
      some (1, 3, .frame (some frameA), [.queueFull .rx]) := by decide
/-- R108: a push on FQ(rx) by anyone but BusIngress is refused. -/
theorem test_push_wrong_agent : refusal (exec (.fqPush .rx frameA) base) = some .notProducer := by decide

/-! ## FrameCodec (section 2.2) -/

/-- V-FC-E5. -/
theorem test_encode_e5 : run (.fcEncode { ext := true, rtr := true, id := 0x12345678, dlc := 3, data := [9, 8, 7] }) base
    (fun t => t.out.result) = some (.bytes [0x03, 0x12, 0x34, 0x56, 0x78, 0x03, 0x09, 0x08, 0x07]) := by decide
/-- V-FC-E8. -/
theorem test_encode_refused : refusal (exec (.fcEncode { dlc := 2, data := [1] }) base) = some .frameInvariant := by decide
/-- V-FC-D11: two whole frames and a partial third. -/
theorem test_decode_d11 : run (.fcDecode (bytesA ++ bytesB ++ [0x02, 0x00, 0x00, 0x01])) base
    (fun t => (t.out.result, t.out.incomplete)) = some (.decoded [frameA, frameB] 14, true) := by decide
/-- R122 with R210: the candidate after the last byte has fewer than 6 bytes, so E2 is noted here too (log 28). -/
theorem test_decode_empty_rest : run (.fcDecode bytesA) base (fun t => (t.out.result, t.out.incomplete, t.out.errors)) =
    some (.decoded [frameA] 8, true, []) := by decide
/-- V-FC-D9: identifier not masked, dlc 255 clamped, bits 7:2 ignored. -/
theorem test_decode_d9 :
    run (.fcDecode [0xFE, 0xFF, 0xFF, 0xFF, 0xFF, 0xFF, 0xA0, 0xA1, 0xA2, 0xA3, 0xA4, 0xA5, 0xA6, 0xA7]) base
      (fun t => t.out.result) =
    some (.decoded [{ rtr := true, id := 0xFFFFFFFF, dlc := 8, data := [0xA0, 0xA1, 0xA2, 0xA3, 0xA4, 0xA5, 0xA6, 0xA7] }] 14) := by
  decide
/-- V-FC-D6: clamped dlc 8 with 7 bytes present. -/
theorem test_wire_incomplete :
    run (.wireFrame [0x00, 0x00, 0x00, 0x00, 0x01, 0x0F, 0x10, 0x11, 0x12, 0x13, 0x14, 0x15, 0x16]) base
      (fun t => t.out.result) = some (.candidate none) := by decide

/-! ## Bus side (section 2.3) -/

/-- V-BI-2: the extended identifier is used, `std_id` and the data bytes are ignored. -/
theorem test_ingress_extended : run (.biIngress
      { ide := true, stdId := 0x7FF, extId := 0x1ABCDE, data := ⟨9, 9, 9, 9, 9, 9, 9, 9⟩ })
      { base with rx := queue4 1 0 [frameA, {}, {}, {}], pend := true }
    (fun t => (t.rx, t.pend)) = some (queue4 2 0 [frameA, frameB, {}, {}], true) := by decide
/-- V-BI-3: PEND is set although the push failed. -/
theorem test_ingress_full : run (.biIngress { stdId := 1, dlc := 1, data := ⟨7, 0, 0, 0, 0, 0, 0, 0⟩ })
      { base with rx := queue4 3 0 [frameA, frameA, frameA, {}] }
    (fun t => (t.rx, t.pend, t.out.errors)) = some (queue4 3 0 [frameA, frameA, frameA, {}], true, [.queueFull .rx]) := by
  decide
/-- V-BE-2: the middle frame finds no free slot. -/
theorem test_be_egress : run .beEgress
      { base with tx := queue4 3 0 [frameA, frameB, frameA, {}], env := { txSlot := [true, false, true] } }
    (fun t => (t.tx.tail, t.out.cmds, t.out.errors)) =
      some (3, [.submit frameA, .submit frameA], [.transmitSlotUnavailable frameB]) := by decide

/-! ## NetworkEgress (section 2.4) -/

/-- V-NE-4. -/
theorem test_ne_egress : run .neEgress { base with rx := queueAB, pend := true, alSlot := some h1 }
    (fun t => (t.rx.tail, t.pend, t.out.cmds)) =
      some (2, false, [.write h1 bytesA, .flush h1, .write h1 bytesB, .flush h1]) := by decide
/-- P6: the lost wake-up. The interrupt falls after C1 of the last pop. -/
theorem test_ne_lost_wakeup : run .neEgress
      { base with rx := queue4 1 0 [frameA, {}, {}, {}], pend := true, alSlot := some h1,
                  env := { irq := [[], [], [], [], [], [], [{ stdId := 0x102, dlc := 1 }]] } }
    (fun t => (t.rx.head, t.rx.tail, t.pend, t.out.cmds)) =
      some (2, 1, false, [.write h1 bytesA, .flush h1]) := by decide

/-- R41 item 2: what an interrupt between N2 and N3 finds in the state is the popped frame and the position N3. -/
theorem test_ne_position :
    (after (egressN2 h1 (egressN1 h1 { base with rx := queueAB, alSlot := some h1 }))).map
      (fun t => (t.inflight.egress, t.rx.tail)) = some (some { h := h1, pos := .n3 frameA }, 1) := by decide

/-! ## ClientLink (section 2.5) -/

/-- V-CL-1. -/
theorem test_tick_first : run (.clTick 0) { base with env := { alloc := [some h1] } }
    (fun t => (t.clRec, t.clRetryRef, t.out.cmds)) =
      some (client .connecting h1 0, some 0, [.connect h1 ⟨1⟩ 29200]) := by decide
/-- V-CL-7: the time-out across the wrap of the counter. -/
theorem test_tick_timeout_wrap : run (.clTick 0xAB9)
      { base with clRec := client .connecting h1 0xFFFFFF00, clRetryRef := some 0xFFFFFF00 }
    (fun t => (t.clRec, t.clRetryRef, t.out.cmds, t.out.errors)) =
      some (none, some 0xAB9, [.abort h1], [.handshakeTimeout]) := by decide
/-- V-CL-6: elapsed is exactly the limit: not yet. -/
theorem test_tick_limit : run (.clTick 0xAB8) { base with clRec := client .connecting h1 0xFFFFFF00, clRetryRef := some 0 }
    (fun t => (t.clRec, t.out.cmds)) = some (client .connecting h1 0xFFFFFF00, []) := by decide
/-- `CL.INITIATE` example of R160. -/
theorem test_initiate : run (.clInitiate 1000) { base with env := { alloc := [some h1] } }
    (fun t => (t.clRec, t.clRetryRef)) = some (client .connecting h1 1000, some 1000) := by decide
/-- V-CL-8. -/
theorem test_connected : run .clConnected { base with clRec := client .connecting h1 7, alSlot := some h9 }
    (fun t => (t.clRec, t.alSlot, t.out.cmds)) = some (client .connected h1 7, some h1, []) := by decide
/-- R163's example. -/
theorem test_connfail : run .clConnfail { base with clRec := client .connecting h1 1000, clRetryRef := some 1000 }
    (fun t => (t.clRec, t.clRetryRef, t.out.errors)) = some (none, some 1000, [.connectFailed]) := by decide
/-- V-CL-12. -/
theorem test_cl_recv : run (.clRecv [0xBB])
      { base with clRec := client .connected h1 0 [0x00, 0x00, 0x00, 0x00, 0x7B, 0x02, 0xAA] }
    (fun t => (t.clRec, t.tx, t.out.cmds)) =
      some (client .connected h1 0, queue4 1 0 [frameA, {}, {}, {}], [.recved h1 8]) := by decide
/-- V-CL-22: two held, three received, two dropped. -/
theorem test_cl_recv_overflow : run (.clRecv (bytesA ++ bytesB ++ bytesA))
      { base with clRec := client .connected h1 0, tx := queue4 2 0 [frameB, frameB, {}, {}] }
    (fun t => (t.tx, t.out.cmds, t.out.errors)) =
      some (queue4 3 0 [frameB, frameB, frameA, {}], [.recved h1 22], [.queueFull .tx, .queueFull .tx]) := by decide
/-- V-CL-15. -/
theorem test_cl_eos_abort : run .clEos
      { base with cfg := { cfg with clCleanup := .abort }, clRec := client .connected h1 0, alSlot := some h1 }
    (fun t => (t.clRec, t.alSlot, t.out.cmds, t.out.errors)) = some (none, none, [.abort h1], [.peerClosed]) := by decide
/-- V-CL-16: stale protection. -/
theorem test_cl_error : run .clError { base with clRec := client .connected h1 0, alSlot := some h2 }
    (fun t => (t.clRec, t.alSlot, t.out.cmds)) = some (none, some h2, []) := by decide
/-- V-CL-19. -/
theorem test_cl_poll : run (.clPoll h1) { base with clRec := client .connected h2 0 }
    (fun t => (t.clRec, t.out.cmds)) = some (client .connected h2 0, [.abort h1]) := by decide

/-! ## ServerLink (section 2.6) -/

/-- V-SL-1. -/
theorem test_setup : run .slSetup base (fun t => (t.slListening, t.out.cmds)) = some (true, [.listen ⟨2⟩ 29200]) := by decide
/-- V-SL-2 and V-SL-4. -/
theorem test_accept_refused : (refusal (exec (.slAccept h2) base),
    refusal (exec (.slAccept h9) { base with slListening := true, slRec := server .accepted h2 [] [] })) =
      (some .acceptWithoutListener, some .acceptWithRecord) := by decide
/-- V-SL-3. -/
theorem test_accept : run (.slAccept h2) { base with slListening := true, alSlot := some h1 }
    (fun t => (t.slRec, t.alSlot, t.out.cmds)) = some (server .accepted h2 [] [], some h2, []) := by decide
/-- V-SL-6: the chained buffer. -/
theorem test_sl_recv : run (.slRecv [0x00, 0x00, 0x00, 0x7B, 0x00])
      { base with slRec := server .received h2 [0x00] [], slListening := true }
    (fun t => (t.slRec, t.tx, t.out.cmds)) =
      some (server .received h2 [] [], queue4 1 0 [{ id := 123 }, {}, {}, {}], [.recved h2 6]) := by decide
/-- V-SL-8. -/
theorem test_sl_eos_pending : run .slEos { base with slRec := server .received h2 [] [1, 2, 3], env := { sndCap := [0] } }
    (fun t => (t.slRec, t.out.cmds, t.out.errors)) = some (server .closing h2 [] [1, 2, 3], [], [.peerClosed]) := by decide
/-- V-SL-7. -/
theorem test_sl_eos_close : run .slEos { base with slRec := server .received h2 [] [], alSlot := some h2 }
    (fun t => (t.slRec, t.alSlot, t.out.cmds)) = some (none, none, [.close h2]) := by decide
/-- V-SL-21. -/
theorem test_sl_error : run .slError { base with slRec := server .received h2 [] [], alSlot := some h1, slListening := true }
    (fun t => (t.slRec, t.alSlot, t.slListening, t.out.cmds)) = some (none, some h1, true, []) := by decide
/-- V-SL-10. -/
theorem test_enqueue : run (.slEnqueue [3, 4, 5]) { base with slRec := server .accepted h2 [] [1, 2] }
    (fun t => (t.slRec, t.out.cmds)) = some (server .accepted h2 [] [1, 2, 3, 4, 5], []) := by decide
/-- V-SL-11. -/
theorem test_send : run .slSend { base with slRec := server .accepted h2 [] [1, 2, 3, 4, 5],
                                            env := { sndCap := [2, 2], writeOk := [true, false] } }
    (fun t => (t.slRec, t.out.cmds, t.env.sndCap)) =
      some (server .accepted h2 [] [3, 4, 5], [.write h2 [1, 2]], []) := by decide
/-- V-SL-14. -/
theorem test_send_chunks : run .slSend { base with slRec := server .accepted h2 [] [1, 2, 3, 4, 5],
                                                   env := { sndCap := [2, 2, 2], writeOk := [true, true, true] } }
    (fun t => (t.slRec, t.out.cmds)) =
      some (server .accepted h2 [] [], [.write h2 [1, 2], .write h2 [3, 4], .write h2 [5]]) := by decide
/-- V-SL-16, both values of the parameter. -/
theorem test_sent_closing : (run .slSent { base with slRec := server .closing h2 [] [], alSlot := some h2 } (fun t => t.out.cmds),
    run .slSent { base with cfg := { cfg with slCloseOnSent := true }, slRec := server .closing h2 [] [], alSlot := some h2 }
      (fun t => t.out.cmds)) = (some [], some [.close h2]) := by decide
/-- V-SL-18: not closed in the same poll. -/
theorem test_sl_poll_flush : run (.slPoll h2)
      { base with slRec := server .closing h2 [] [7], env := { sndCap := [1], writeOk := [true] } }
    (fun t => (t.slRec, t.out.cmds)) = some (server .closing h2 [] [], [.write h2 [7]]) := by decide
/-- V-SL-17. -/
theorem test_sl_poll_close : run (.slPoll h2) { base with slRec := server .closing h2 [] [], alSlot := some h2 }
    (fun t => (t.slRec, t.alSlot, t.out.cmds)) = some (none, none, [.close h2]) := by decide

/-! ## ActiveLink (section 2.7) -/

/-- V-AL-3, V-AL-4, V-AL-5, V-AL-7. -/
theorem test_al_set : run (.alSet h2) { base with alSlot := some h1 } (fun t => (t.alSlot, t.out.cmds)) = some (some h2, []) := by
  decide
theorem test_al_clearif_other : run (.alClearif h1) { base with alSlot := some h2 } (fun t => t.alSlot) = some (some h2) := by
  decide
theorem test_al_clearif_own : run (.alClearif h2) { base with alSlot := some h2 } (fun t => t.alSlot) = some none := by decide
theorem test_al_get : run .alGet { base with alSlot := some h2 } (fun t => (t.alSlot, t.out.result)) =
    some (some h2, .handle (some h2)) := by decide

/-! ## Contexts and the step -/

/-- R217: nothing but BusIngress runs in interrupt context. -/
theorem test_context_breach : refusal (exec .neEgress { base with agent := .busIngress }) = some .contextBreach := by decide
theorem test_ingress_in_background : refusal (exec (.biIngress {}) base) = some .contextBreach := by decide
/-- A step fetches an invocation, enters its context, runs it and leaves the context. -/
theorem test_step_ingress : (after (step { base with inbox := [{ agent := .busIngress, format := .op8, bytes := encode (.biIngress { stdId := 3 }) }] })).map
    (fun t => (t.rx.head, t.pend, t.agent, t.inbox)) = some (1, true, .background, []) := by decide
/-- Nothing lined up: the block waits. -/
theorem test_step_waits : after (step base) = some base := by decide
/-- The first operation after reset: `withFetchWord` sets up exactly it. -/
theorem test_withFetchWord_setup : (after (step (State.reset.withFetchWord 8 0x60))).map (fun t => t.slListening) = some true := by
  decide
theorem test_withFetchWord_push : (after (step (State.reset.withFetchWord 8 0x10))).map (fun t => (t.rx.head, t.out.result)) =
    some (1, .bool true) := by decide

/-! ## Witnesses: for each statement with hypotheses, concrete values that meet all of them, for each of its clauses -/

/-- FQ(rx) or FQ(tx) with 4 slots: full (3 frames held), its head about to wrap. -/
def queueFull : FrameQueue := queue4 3 0 [frameA, frameB, frameA, {}]
/-- One frame held, at the last slot. -/
def queueLast : FrameQueue := queue4 0 3 [{}, {}, {}, frameA]

theorem witness_DecodeAfterEncodeIsIdentity : (Instr.wireFrame bytesA).encodable = true ∧
    (Instr.wireFrame [0x00]).encodable = true ∧ (Instr.clRecv [0xBB]).encodable = true ∧
    (Instr.fqPush .tx { dlc := 2, data := [1] }).encodable = true := by decide

theorem witness_UnassignedSelectorIsRefused :
    (0x12 : Byte).toNat ∉ [0x10, 0x11, 0x20, 0x21, 0x30, 0x31, 0x40, 0x50, 0x51, 0x52, 0x53, 0x54, 0x55, 0x56, 0x57, 0x60,
      0x61, 0x62, 0x63, 0x64, 0x65, 0x66, 0x67, 0x68, 0x70, 0x71, 0x72] ∧
    ({ base with inbox := [{ agent := .background, format := .op8, bytes := [0x12, 0xAA] }] } : State).inbox =
      { agent := .background, format := .op8, bytes := 0x12 :: [0xAA] } :: [] := by decide

theorem witness_StepRunsTheDecodedOperation :
    ({ base with inbox := [{ agent := .background, format := .op8, bytes := [0x60, 0x00] }] } : State).inbox =
      { agent := .background, format := .op8, bytes := [0x60, 0x00] } :: [] ∧
    (decode .op8 [0x60, 0x00]).toOption = some (.slSetup, [0x00]) ∧ Instr.slSetup.wf = true ∧ base.inbox = [] := by decide

/-- Both queues, full and not full, at the wrap; a push on FQ(rx) while a pop and an `NE.EGRESS` are in flight. -/
theorem witness_PushInsertsAtHeadUnlessFull :
    let s : State := { base with rx := queueFull, agent := .busIngress,
                                 inflight := { pop := { busy := true, t := 0, h := 3 }, egress := some { h := h1, pos := .n2 } } }
    let u : State := { base with tx := queue4 3 1 [{}, frameA, frameB, {}], agent := .linkReceive }
    frameA.inv = true ∧ s.agent = producerOf .rx ∧ s.inflight.push = {} ∧ (QSel.rx = .tx → s.inflight = {}) ∧
    (s.rx.head + 1) % s.cfg.nRx = s.rx.tail ∧
    u.agent = producerOf .tx ∧ u.inflight.push = {} ∧ u.inflight = {} ∧ (u.tx.head + 1) % u.cfg.nTx ≠ u.tx.tail := by decide

theorem witness_PopTakesFromTailUnlessEmpty :
    let s : State := { base with rx := queueLast, agent := .networkEgress }
    let u : State := { base with agent := .busEgress }
    s.agent = consumerOf .rx ∧ s.inflight = {} ∧ s.env.irq = [] ∧ s.rx.head ≠ s.rx.tail ∧
    u.agent = consumerOf .tx ∧ u.inflight = {} ∧ u.tx.head = u.tx.tail := by decide

theorem witness_PushFailsExactlyAtFullCount :
    let s : State := { base with rx := queueFull, agent := .busIngress }
    let u : State := { base with tx := queueAB, agent := .linkReceive }
    frameA.inv = true ∧ s.agent = producerOf .rx ∧ s.inflight = {} ∧ (s.queue .rx).wf (s.cap .rx) = true ∧
    (s.queue .rx).count (s.cap .rx) + 1 = s.cap .rx ∧
    u.agent = producerOf .tx ∧ u.inflight = {} ∧ (u.queue .tx).wf (u.cap .tx) = true ∧
    (u.queue .tx).count (u.cap .tx) + 1 < u.cap .tx := by decide

theorem witness_PushAppendsAndPopRemovesOldest :
    let s : State := { base with rx := queueLast }
    s.inflight = {} ∧ s.env.irq = [] ∧ (s.queue .rx).wf (s.cap .rx) = true ∧ frameB.inv = true := by decide

theorem witness_QueueIsFirstInFirstOut :
    base.inv = true ∧ (base.queue .tx).contents (base.cap .tx) = [] ∧ base.env.irq = [] ∧
    (∀ f, QueueOp.push f ∈ [.push frameA, .push frameB, .pop, .pop, .pop] → f.inv = true) ∧
    (queueRun .tx [.push frameA, .push frameB, .pop, .pop, .pop] base).map (fun r => (r.1, r.2.1)) =
      some ([frameA, frameB], [frameA, frameB]) :=
  ⟨by decide, by decide, by decide, fun f h => by simp at h; rcases h with rfl | rfl <;> decide, by decide⟩

/-- An empty queue and one with a frame, interrupts at all three boundaries; a script of one entry. -/
theorem witness_InterruptedPopLinearises :
    let s : State := { base with agent := .networkEgress, env := { irq := [[{ stdId := 1 }], [], [{ stdId := 2, dlc := 8 }]] } }
    let u : State := { s with rx := queueLast }
    let v : State := { u with env := { irq := [[{ stdId := 1 }]] } }
    s.inv = true ∧ s.agent = .networkEgress ∧ s.irqLegal = true ∧ s.rx.head = s.rx.tail ∧
    u.inv = true ∧ u.irqLegal = true ∧ u.rx.head ≠ u.rx.tail ∧ v.inv = true ∧ v.irqLegal = true := by decide

theorem witness_DisciplineBreachesAreRefused :
    base.agent ≠ producerOf .rx ∧ base.agent ≠ consumerOf .tx ∧ base.agent ≠ .busIngress ∧
    ({ base with agent := .busIngress } : State).agent = .busIngress ∧ (∀ p, Instr.neEgress ≠ .biIngress p) ∧
    (∀ q f, Instr.neEgress ≠ .fqPush q f) ∧ (∀ q, Instr.neEgress ≠ .fqPop q) := by
  refine ⟨by decide, by decide, by decide, by decide, ?_, ?_, ?_⟩ <;> intros <;> exact fun h => Instr.noConfusion h

theorem witness_OverlappingOperationsAreRefused :
    let s : State := { base with agent := .busEgress, inflight := { egress := some { h := h1, pos := .n2 } } }
    let u : State := { base with agent := .busIngress, inflight := { push := { busy := true } } }
    s.agent = agentOf .beEgress ∧ (agentOf .beEgress).context = .background ∧ s.inflight.busy = true ∧
    u.agent = agentOf (.biIngress {}) ∧ (agentOf (.biIngress {})).context = .interrupt ∧ u.inflight.push.busy = true := by
  decide

theorem witness_EncodeEmitsHeaderThenPayload : base.ready = true ∧ frameA.inv = true ∧
    ({ dlc := 8, data := [1, 2, 3, 4, 5, 6, 7, 8], id := 0xFFFFFFFF, ext := true, rtr := true } : BusFrame).inv = true ∧
    ({ dlc := 9, data := [1, 2, 3, 4, 5, 6, 7, 8, 9] } : BusFrame).inv = false := by decide

theorem witness_EncodingIsInjective : frameA.inv = true ∧ ({ id := 123, dlc := 2, data := [0xAA, 0xBB] } : BusFrame).inv = true ∧
    encodeFrame frameA = encodeFrame { id := 123, dlc := 2, data := [0xAA, 0xBB] } := by decide

theorem witness_DecodeRunsTheScan : base.ready = true ∧ (decodeBuffer (bytesA ++ bytesB ++ [0x02])).2 = 14 := by decide

/-- 5 bytes, 13 bytes with dlc 8, and exactly 14. -/
theorem witness_WireFrameReadsOneCandidate : base.ready = true ∧
    [1, 2, 3, 4, (5 : Byte)].length < 6 + min ([1, 2, 3, 4, (5 : Byte)].getD 5 0).toNat 8 ∧
    [0, 0, 0, 0, 1, 15, 1, 2, 3, 4, 5, 6, (7 : Byte)].length < 6 + min ([0, 0, 0, 0, 1, 15, 1, 2, 3, 4, 5, 6, (7 : Byte)].getD 5 0).toNat 8 ∧
    6 + min ([0, 0, 0, 0, 1, 15, 1, 2, 3, 4, 5, 6, 7, (8 : Byte)].getD 5 0).toNat 8 ≤ [0, 0, 0, 0, 1, 15, 1, 2, 3, 4, 5, 6, 7, (8 : Byte)].length := by
  decide

theorem witness_DecodeDefersPartialInput : base.ready = true ∧ [1, 2, 3, 4, (5 : Byte)].length < 6 ∧
    6 ≤ [0, 0, 0, 0, 1, 15, 1, 2, 3, 4, 5, 6, (7 : Byte)].length ∧
    [0, 0, 0, 0, 1, 15, 1, 2, 3, 4, 5, 6, (7 : Byte)].length < 6 + min ([0, 0, 0, 0, 1, 15, 1, 2, 3, 4, 5, 6, (7 : Byte)].getD 5 0).toNat 8 := by
  decide

theorem witness_DecodeClampsDlc : base.ready = true ∧
    9 ≤ ([0, 0, 0, 0, 1, 9, 1, 2, 3, 4, 5, 6, (7 : Byte)].getD 5 0).toNat ∧ [0, 0, 0, 0, 1, 9, 1, 2, 3, 4, 5, 6, (7 : Byte)].length < 14 ∧
    9 ≤ ([0, 0, 0, 0, 1, 255, 1, 2, 3, 4, 5, 6, 7, (8 : Byte)].getD 5 0).toNat ∧
    14 ≤ [0, 0, 0, 0, 1, 255, 1, 2, 3, 4, 5, 6, 7, (8 : Byte)].length := by decide

theorem witness_DecodeRejectsNothing : base.ready = true := by decide

/-- A whole candidate that encodes back to itself, and one that does not (flags bit 2). -/
theorem witness_CodecRoundTrip : base.ready = true ∧ frameA.inv = true ∧ decodeOne bytesA 0 = some (frameA, 8) ∧
    decodeOne [4, 0, 0, 0, 0, 0] 0 = some ({}, 6) := by decide

theorem witness_IngressQueuesTheFrameAndSetsPend :
    let s : State := { base with agent := .busIngress, rx := queueFull, inflight := { pop := { busy := true, h := 3 } } }
    let u : State := { base with agent := .busIngress, rx := queueLast }
    s.agent = .busIngress ∧ s.inflight.push = {} ∧ ({ dlc := 8 } : PFrame).dlc.toNat ≤ 8 ∧
    (s.rx.head + 1) % s.cfg.nRx = s.rx.tail ∧ u.agent = .busIngress ∧ u.inflight.push = {} ∧
    (u.rx.head + 1) % u.cfg.nRx ≠ u.rx.tail ∧ 8 < ({ dlc := 9 } : PFrame).dlc.toNat := by decide

/-- Inside a pop of an `NE.EGRESS` that has written already: with room in the queue, and with none. -/
theorem witness_InterruptRunsOneIngressAndReturns :
    let s : State := { base with
      agent := .networkEgress, out := { cmds := [.flush h1], errors := [.queueFull .rx] }
      inflight := { pop := { busy := true, h := 3, t := 1 }, egress := some { h := h1, pos := .n2 } } }
    let u : State := { s with rx := queueFull }
    s.inflight.push = {} ∧ ({ dlc := 8 } : PFrame).dlc.toNat ≤ 8 ∧ (s.rx.head + 1) % s.cfg.nRx ≠ s.rx.tail ∧
    u.inflight.push = {} ∧ (u.rx.head + 1) % u.cfg.nRx = u.rx.tail := by decide

theorem witness_BusEgressDrainsTheQueue :
    let s : State := { base with tx := queueFull, env := { txSlot := [true, false] } }
    s.ready = true ∧ s.tx.wf s.cfg.nTx = true ∧ (s.tx.contents s.cfg.nTx).length = 3 := by decide

theorem witness_NetworkEgressWaitsForLinkAndPend :
    let s : State := { base with rx := queueAB, pend := true }
    let u : State := { base with rx := queueAB, alSlot := some h1 }
    s.ready = true ∧ s.alSlot = none ∧ u.ready = true ∧ u.pend = false := by decide

theorem witness_NetworkEgressSendsEveryFrame :
    let s : State := { base with rx := queueAB, pend := true, alSlot := some h1 }
    s.ready = true ∧ s.cfg.legal ∧ s.rx.wf s.cfg.nRx = true ∧ s.alSlot = some h1 ∧ s.pend = true ∧ s.env.irq = [] := by decide

theorem witness_InterruptedNetworkEgressLosesNothing :
    let s : State := { base with rx := queueAB, pend := true, alSlot := some h1, env := { irq := [[], [{ stdId := 3 }, { stdId := 4 }]] } }
    s.inv = true ∧ s.ready = true ∧ s.irqLegal = true ∧ s.alSlot = some h1 ∧ s.pend = true := by decide

theorem witness_LateInterruptLeavesFrameWithoutPend :
    let s : State := { base with pend := true, alSlot := some h1, env := { irq := [[], [{ stdId := 3 }]] } }
    s.inv = true ∧ s.ready = true ∧ s.alSlot = some h1 ∧ s.pend = true ∧ s.rx.head = s.rx.tail ∧
    ({ stdId := 3 } : PFrame).dlc.toNat ≤ 8 ∧ s.env.irq = [[], [{ stdId := 3 }]] := by decide

theorem witness_InitiateStartsOneAttempt :
    let s : State := { base with env := { alloc := [some h1] } }
    let u : State := { base with env := { alloc := [none] } }
    base.ready = true ∧ ({ base with clRec := client .connected h1 0 } : State).clRec = client .connected h1 0 ∧
    s.ready = true ∧ s.clRec = none ∧ drawAlloc s = (some h1, { base with env := {} }) ∧
    u.clRec = none ∧ drawAlloc u = (none, { base with env := {} }) := by decide

/-- One past the limit, with a backoff and with none, the allocation answered and failing; exactly at the limit; another
state of the record. -/
theorem witness_TickAbortsOnlyAfterSynTimeout :
    let s : State := { base with clRec := client .connecting h1 0xFFFFFF00, env := { alloc := [some h2] } }
    let u : State := { s with cfg := { cfg with reconnectBackoff := 0 } }
    let v : State := { u with env := { alloc := [none] } }
    s.ready = true ∧ s.cfg.synTimeout.toNat < ((0xAB9 : Time).toNat + 2 ^ 32 - (0xFFFFFF00 : Time).toNat) % 2 ^ 32 ∧
    s.cfg.reconnectBackoff ≠ 0 ∧ u.ready = true ∧ u.cfg.reconnectBackoff = 0 ∧ drawAlloc u = (some h2, { u with env := {} }) ∧
    v.ready = true ∧ v.cfg.reconnectBackoff = 0 ∧ drawAlloc v = (none, { v with env := {} }) ∧
    ((0xAB8 : Time).toNat + 2 ^ 32 - (0xFFFFFF00 : Time).toNat) % 2 ^ 32 ≤ s.cfg.synTimeout.toNat ∧
    ClientState.connected ≠ .connecting := by decide

/-- Nothing tried yet, exactly at the backoff, one before it; an allocation that fails, in the first two. -/
theorem witness_TickReconnectsAfterBackoff :
    let s : State := { base with env := { alloc := [some h1] } }
    let u : State := { s with clRetryRef := some 1000 }
    let v : State := { base with env := { alloc := [none] } }
    let w : State := { v with clRetryRef := some 1000 }
    s.ready = true ∧ s.clRec = none ∧ drawAlloc s = (some h1, { base with env := {} }) ∧ s.clRetryRef = none ∧
    v.ready = true ∧ v.clRec = none ∧ v.clRetryRef = none ∧ drawAlloc v = (none, { v with env := {} }) ∧
    w.ready = true ∧ w.clRec = none ∧ w.clRetryRef = some 1000 ∧ drawAlloc w = (none, { w with env := {} }) ∧
    u.clRetryRef = some 1000 ∧ u.cfg.reconnectBackoff.toNat ≤ ((3000 : Time).toNat + 2 ^ 32 - (1000 : Time).toNat) % 2 ^ 32 ∧
    ((2999 : Time).toNat + 2 ^ 32 - (1000 : Time).toNat) % 2 ^ 32 < u.cfg.reconnectBackoff.toNat := by decide

/-- A time-out at 4001 and, after a poll, a reconnect at 6001, exactly the backoff later. -/
theorem witness_BackoffRunsFromTheAbort :
    let s : State := { base with clRec := client .connecting h1 0, clRetryRef := some 0, env := { alloc := [some h2] } }
    let t : State := { base with clRetryRef := some 4001, env := { alloc := [some h2] },
                                 out := { cmds := [.abort h1], errors := [.handshakeTimeout] } }
    let u : State := { t with out := { cmds := [.abort h9] } }
    let v : State := { base with clRec := client .connecting h2 6001, clRetryRef := some 6001,
                                 out := { cmds := [.connect h2 ⟨1⟩ 29200] } }
    execAs (.clTick 4001) s = .next t ∧ ErrorNote.handshakeTimeout ∈ t.out.errors ∧ t.connects = false ∧
    QuietRun t u ∧ execAs (.clTick 6001) u = .next v ∧ v.connects = true :=
  ⟨rfl, by decide, by decide, .op _ _ _ (.clPoll h9) (fun _ h => Instr.noConfusion h) rfl (by decide) (.done _), rfl, by decide⟩

theorem witness_ConnectedTakesTheLink :
    let s : State := { base with clRec := client .connecting h1 7 }
    let u : State := { base with clRec := client .connected h1 7 }
    s.ready = true ∧ s.clRec = client .connecting h1 7 ∧ u.ready = true ∧ (∀ r, u.clRec = some r → r.state ≠ .connecting) :=
  ⟨by decide, rfl, by decide, fun r h => by cases h; decide⟩

theorem witness_ConnectFailureDiscardsTheAttempt :
    let s : State := { base with clRec := client .connecting h1 7 }
    s.ready = true ∧ s.clRec = client .connecting h1 7 ∧ base.ready = true ∧ (∀ r, base.clRec = some r → r.state ≠ .connecting) :=
  ⟨by decide, rfl, by decide, fun r h => by cases h⟩

theorem witness_ClientReceiveDecodesIntoTheQueue :
    let s : State := { base with clRec := client .connected h1 0 [0x00, 0x00], tx := queueFull }
    let u : State := { base with clRec := client .connecting h1 0 }
    s.ready = true ∧ s.cfg.legal ∧ s.tx.wf s.cfg.nTx = true ∧ s.clRec = client .connected h1 0 [0x00, 0x00] ∧
    u.ready = true ∧ u.cfg.legal ∧ u.tx.wf u.cfg.nTx = true ∧ (∀ r, u.clRec = some r → r.state ≠ .connected) :=
  ⟨by decide, by decide, by decide, rfl, by decide, by decide, by decide, fun r h => by cases h; decide⟩

/-- Both values of `CL_CLEANUP`, the own handle and another one in the slot; and no record. -/
theorem witness_ClientEndOfStreamFinalizes :
    let s : State := { base with clRec := client .connected h1 0, alSlot := some h1 }
    let u : State := { base with clRec := client .connecting h1 0, alSlot := some h2, cfg := { cfg with clCleanup := .abort } }
    s.ready = true ∧ s.clRec = client .connected h1 0 ∧ u.ready = true ∧ u.clRec = client .connecting h1 0 ∧
    base.ready = true ∧ base.clRec = none := by decide

theorem witness_ClientErrorReleasesTheRecord :
    let s : State := { base with clRec := client .connected h1 0, alSlot := some h1 }
    s.ready = true ∧ s.clRec = client .connected h1 0 ∧ base.ready = true ∧ base.clRec = none := by decide

theorem witness_ClientPollAbortsUnownedTransport : ({ base with clRec := client .connected h2 0 } : State).ready = true := by
  decide

theorem witness_SetupListensOnce : base.ready = true ∧ base.slListening = false ∧
    ({ base with slListening := true } : State).ready = true := by decide

theorem witness_AcceptCreatesRecordAndTakesTheLink :
    let s : State := { base with slListening := true, alSlot := some h1 }
    let u : State := { s with slRec := server .accepted h2 [] [] }
    s.ready = true ∧ s.slListening = true ∧ s.slRec = none ∧ base.ready = true ∧ base.slListening = false ∧
    u.ready = true ∧ u.slListening = true ∧ u.slRec ≠ none := by decide

theorem witness_ServerReceiveDecodesIntoTheQueue :
    let s : State := { base with slRec := server .received h2 [0x00] [], slListening := true }
    let u : State := { base with slRec := server .closing h2 [] [1], slListening := true }
    s.ready = true ∧ s.cfg.legal ∧ s.tx.wf s.cfg.nTx = true ∧ s.slRec = server .received h2 [0x00] [] ∧
    u.ready = true ∧ (∀ r, u.slRec = some r → r.state = .closing) :=
  ⟨by decide, by decide, by decide, rfl, by decide, fun r h => by cases h; rfl⟩

theorem witness_ServerEndOfStreamFlushesThenCloses :
    let s : State := { base with slRec := server .received h2 [] [], alSlot := some h2 }
    let u : State := { base with slRec := server .received h2 [] [1, 2, 3], env := { sndCap := [2, 0], writeOk := [true] } }
    s.ready = true ∧ s.slRec = server .received h2 [] [] ∧ u.ready = true ∧ u.slRec = server .received h2 [] [1, 2, 3] ∧
    [1, 2, (3 : Byte)] ≠ [] ∧ base.ready = true ∧ base.slRec = none := by decide

theorem witness_ServerErrorReleasesTheRecord :
    let s : State := { base with slRec := server .received h2 [] [1], alSlot := some h2, slListening := true }
    s.ready = true ∧ s.slRec = server .received h2 [] [1] ∧ base.ready = true ∧ base.slRec = none := by decide

theorem witness_EnqueueAppendsPendingOutput :
    let s : State := { base with slRec := server .accepted h2 [] [1] }
    s.ready = true ∧ s.slRec = server .accepted h2 [] [1] ∧ base.ready = true ∧ base.slRec = none := by decide

/-- Pending bytes, a short capacity and a failing write; and no record. -/
theorem witness_SendRunsTheLoop :
    let s : State := { base with slRec := server .accepted h2 [] [1, 2, 3, 4, 5], env := { sndCap := [2, 2], writeOk := [true, false] } }
    s.ready = true ∧ s.slRec = server .accepted h2 [] [1, 2, 3, 4, 5] ∧ base.ready = true ∧ base.slRec = none := by decide

theorem witness_SendLosesNoByte :
    let s : State := { base with slRec := server .accepted h2 [] [1, 2, 3, 4, 5], env := { sndCap := [2, 2], writeOk := [true, false] } }
    s.ready = true ∧ s.slRec = server .accepted h2 [] [1, 2, 3, 4, 5] := by decide

/-- The run clause: bytes are appended, then sent in one chunk of two and a failing write. -/
theorem witness_SendLosesNoByte_run :
    let s : State := { base with slRec := server .accepted h2 [] [1], env := { sndCap := [2, 2], writeOk := [true, false] } }
    let t : State := { s with slRec := server .accepted h2 [] [1, 2, 3] }
    let u : State := { base with slRec := server .accepted h2 [] [3], out := { cmds := [.write h2 [1, 2]] } }
    execAs (.slEnqueue [2, 3]) s = .next t ∧ execAs .slSend t = .next u ∧ s.slRec = server .accepted h2 [] [1] ∧ ServerRun h2 s [2, 3] [1, 2] u := by
  intro s t u
  have run_t : ServerRun h2 t [] [1, 2] u := .op t u u .slSend [] [] rfl (by decide) (.done u)
  exact ⟨rfl, rfl, rfl, .op s t u (.slEnqueue [2, 3]) [] [1, 2] rfl (by decide) run_t⟩

theorem witness_SentRetriesPendingOutput :
    let s : State := { base with slRec := server .closing h2 [] [7], env := { sndCap := [1], writeOk := [true] } }
    let u : State := { base with slRec := server .closing h2 [] [], cfg := { cfg with slCloseOnSent := true } }
    let v : State := { base with slRec := server .closing h2 [] [] }
    s.ready = true ∧ s.slRec = server .closing h2 [] [7] ∧ u.ready = true ∧ u.slRec = server .closing h2 [] [] ∧
    u.cfg.slCloseOnSent = true ∧ v.ready = true ∧ v.slRec = server .closing h2 [] [] ∧ v.cfg.slCloseOnSent = false ∧
    base.ready = true ∧ base.slRec = none := by decide

theorem witness_ServerPollAbortsSendsOrCloses :
    let s : State := { base with slRec := server .closing h2 [] [7], env := { sndCap := [1], writeOk := [true] } }
    let u : State := { base with slRec := server .closing h2 [] [], alSlot := some h2 }
    let v : State := { base with slRec := server .received h2 [] [] }
    s.ready = true ∧ (∀ r, s.slRec = some r → r.handle ≠ h1) ∧ s.slRec = server .closing h2 [] [7] ∧
    u.ready = true ∧ u.slRec = server .closing h2 [] [] ∧ v.ready = true ∧ v.slRec = server .received h2 [] [] :=
  ⟨by decide, fun r h => by cases h; decide, rfl, by decide, rfl, by decide, rfl⟩

theorem witness_SlotOperations : base.ready = true ∧ ({ base with alSlot := some h1 } : State).ready = true := by decide

theorem witness_OnlyListedOperationsWriteTheSlot :
    let s : State := { base with clRec := client .connecting h1 0, alSlot := some h2 }
    (∀ h, Instr.clConnfail ≠ .alSet h) ∧ (∀ h, Instr.clConnfail ≠ .alClearif h) ∧ (∀ h, Instr.clConnfail ≠ .slAccept h) ∧
    (∀ h, Instr.clConnfail ≠ .slPoll h) ∧
    Instr.clConnfail ∉ [.clConnected, .clEos, .clError, .slEos, .slSent, .slError] ∧ ∃ t, exec .clConnfail s = .next t := by
  refine ⟨?_, ?_, ?_, ?_, by decide, _, rfl⟩ <;> exact fun _ h => Instr.noConfusion h

theorem witness_StaleEventsKeepTheLink :
    let s : State := { base with clRec := client .connected h1 0, alSlot := some h2 }
    let u : State := { base with slRec := server .closing h2 [] [], alSlot := some h2 }
    Instr.clEos ∈ [Instr.clEos, .clError] ∧ s.clRec = client .connected h1 0 ∧ s.alSlot = some h2 ∧
    (∃ t, exec .clEos s = .next t) ∧
    Instr.slPoll h2 ∈ [Instr.slEos, .slSent, .slPoll h2, .slError] ∧ u.slRec = server .closing h2 [] [] ∧ u.alSlot = some h2 ∧
    ∃ t, exec (.slPoll h2) u = .next t :=
  ⟨by decide, rfl, rfl, ⟨_, rfl⟩, by decide, rfl, rfl, _, rfl⟩

theorem witness_EveryStepKeepsTheInvariant :
    let s : State := { base with rx := queueAB, slListening := true, slRec := server .received h2 [0x00] [1],
                                 clRec := client .connected h1 0 [0x01, 0x02],
                                 inbox := [{ agent := .busIngress, format := .op8, bytes := encode (.biIngress { stdId := 3 }) }] }
    s.inv = true ∧ ∃ t, step s = .next t := ⟨by decide, _, rfl⟩

theorem witness_EveryOperationKeepsTheSlotInvariant :
    let s : State := { base with clRec := client .connected h1 0, alSlot := some h1 }
    (∀ h, Instr.clEos ≠ .alSet h) ∧ s.slotInv = true ∧ ∃ t, exec .clEos s = .next t :=
  ⟨fun _ h => Instr.noConfusion h, by decide, _, rfl⟩

/-- An accept with a fresh handle beside a connecting client; a time-out that reconnects with the handle it has just
given up; a tick that draws nothing, with a handle in use next in the script. -/
theorem witness_FreshHandlesKeepTransportsApart :
    let s : State := { base with clRec := client .connecting h1 0, slListening := true }
    (∀ h, Instr.slAccept h2 ≠ .alSet h) ∧ s.freshFor (.slAccept h2) = true ∧ s.handlesDistinct = true ∧
    s.connectingNotLinked = true ∧ (∃ t, exec (.slAccept h2) s = .next t) ∧
    ({ s with cfg := { cfg with reconnectBackoff := 0 }, env := { alloc := [some h1] } } : State).freshFor (.clTick 3001) = true ∧
    ({ s with env := { alloc := [some h1] } } : State).freshFor (.clTick 0) = true :=
  ⟨fun _ h => Instr.noConfusion h, by decide, by decide, by decide, ⟨_, rfl⟩, by decide, by decide⟩

theorem witness_NoStepFaults :
    ({ base with tx := queueFull, inbox := [{ agent := .busEgress, format := .op8, bytes := [0x31] }] } : State).inv = true := by
  decide

theorem witness_ConfigurationNeverChanges : ∃ t, step base = .next t := ⟨_, rfl⟩

end Sys2Proof.Tests
end

section
/-! SUPPORT. The laws of the invocation port and of a step (spec/00_scope.md R9, spec/10_state.md R45,
spec/60_exceptions.md R216), and the obligations they settle. -/

namespace Sys2Proof.Machine

/-! ## The invocation port -/

theorem fetchInvocation_nil {s : State} (h : s.inbox = []) : fetchInvocation s = none := by
  simp only [fetchInvocation, h]

theorem fetchInvocation_cons {s : State} {inv : Invocation} {later : List Invocation} (h : s.inbox = inv :: later) :
    fetchInvocation s = some (inv, s.setInbox later) := by
  simp only [fetchInvocation, h]

theorem decodeInvocation_ok {inv : Invocation} {i : Instr} {extra : List Byte}
    (h : decode inv.format inv.bytes = .ok (i, extra)) : decodeInvocation inv = .ok i := by
  simp only [decodeInvocation, h]

/-! ## The step -/

/-- The waiting step (log 22). -/
theorem step_of_inbox_nil {s : State} (h : s.inbox = []) : step s = .next s := by
  simp only [step, fetchInvocation_nil h]

/-- Every invocation that decodes runs, well-formed or not: `exec` itself refuses illegal operands. -/
theorem step_of_decode_ok {s : State} {inv : Invocation} {later : List Invocation} {i : Instr} {extra : List Byte}
    (hinbox : s.inbox = inv :: later) (hdecode : decode inv.format inv.bytes = .ok (i, extra)) :
    step s = andThen (exec i (enterContext inv.agent (s.setInbox later))) fun t => .next (leaveContext t) := by
  simp only [step, fetchInvocation_cons hinbox, decodeInvocation_ok hdecode]

/-- Settles O4: `step_of_decode_ok` names the run, and each of its three outcomes either leaves the context or is
passed on; the waiting step is `step_of_inbox_nil`. -/
theorem stepRunsTheDecodedOperation : Obligations.StepRunsTheDecodedOperation := by
  refine ⟨fun s inv later i extra hinbox hdecode _ => ?_, fun s h => step_of_inbox_nil h⟩
  have hcontext : enterContext inv.agent (s.setInbox later) = { s with inbox := later, agent := inv.agent } := rfl
  rw [step_of_decode_ok hinbox hdecode, hcontext]
  cases exec i { s with inbox := later, agent := inv.agent } with
  | next t => exact andThen_next t _
  | fault r => exact andThen_fault r _
  | refused r => exact andThen_refused r _

end Sys2Proof.Machine
end

section
/-! SUPPORT. The traffic half of the state: what pushes, pops, drains and interrupts can do (spec/40_frame_queue.md,
42_bus_ingress_egress.md, 43_network_egress.md). They move frames between well-formed queues and leave the links, the
configuration and, between operations, the hidden state of R41 alone. -/

namespace Sys2Proof.Machine

/-! ## The half of the state that the links own -/

/-- The active link slot, the two records and the listener bit (R28, R30, R31). -/
structure Links where
  slot : Option Handle
  client : Option ClientRec
  listening : Bool
  server : Option ServerRec

def State.links (s : State) : Links :=
  { slot := s.alSlot, client := s.clRec, listening := s.slListening, server := s.slRec }

/-! ## Traffic -/

/-- A piece of an operation that moves frames only: the links and the configuration are unchanged, and a queue that had
its form (R21, R23) still has it. -/
structure Traffic (s t : State) : Prop where
  links : t.links = s.links
  cfg : t.cfg = s.cfg
  rx : s.rx.wf s.cfg.nRx = true → t.rx.wf s.cfg.nRx = true
  tx : s.tx.wf s.cfg.nTx = true → t.tx.wf s.cfg.nTx = true

/-- Traffic that also leaves the operations under way as they are (R41). -/
structure CalmTraffic (s t : State) : Prop extends Traffic s t where
  inflight : t.inflight = s.inflight

theorem Traffic.refl (s : State) : Traffic s s := ⟨rfl, rfl, id, id⟩

theorem Traffic.trans {s t u : State} (h : Traffic s t) (h' : Traffic t u) : Traffic s u where
  links := h'.links.trans h.links
  cfg := h'.cfg.trans h.cfg
  rx hw := h.cfg ▸ h'.rx (h.cfg.symm ▸ h.rx hw)
  tx hw := h.cfg ▸ h'.tx (h.cfg.symm ▸ h.tx hw)

theorem CalmTraffic.refl (s : State) : CalmTraffic s s := ⟨.refl s, rfl⟩

theorem CalmTraffic.trans {s t u : State} (h : CalmTraffic s t) (h' : CalmTraffic t u) : CalmTraffic s u :=
  ⟨h.toTraffic.trans h'.toTraffic, h'.inflight.trans h.inflight⟩

/-- A write to a queue is traffic if the new queue has the form whenever the old one had it. -/
theorem CalmTraffic.setQueue {q : QSel} {s : State} {Q : FrameQueue}
    (h : (s.queue q).wf (s.cap q) = true → Q.wf (s.cap q) = true) : CalmTraffic s (s.setQueue q Q) := by
  cases q with
  | rx => exact ⟨⟨rfl, rfl, h, id⟩, rfl⟩
  | tx => exact ⟨⟨rfl, rfl, id, h⟩, rfl⟩

/-! ### The atomic transitions and the receive paths -/

theorem pushFrame_calm (q : QSel) {f : BusFrame} (s : State) (hf : f.inv = true) :
    CalmTraffic s (pushFrame q f s).2 := by
  rcases pushFrame_cases q f s with ⟨-, e⟩ | ⟨-, e⟩ <;> rw [e]
  · exact ⟨⟨rfl, rfl, id, id⟩, rfl⟩
  · exact .setQueue fun hw => FrameQueue.pushed_wf hw hf

theorem popFrame_calm (q : QSel) (s : State) : CalmTraffic s (popFrame q s).2 := by
  rcases popFrame_cases q s with ⟨-, e⟩ | ⟨-, e⟩ <;> rw [e]
  · exact .refl s
  · exact .setQueue FrameQueue.popped_wf

theorem pushAll_calm (q : QSel) (fs : List BusFrame) (s : State) (hf : ∀ f ∈ fs, f.inv = true) :
    CalmTraffic s (pushAll q fs s) := by
  induction fs generalizing s with
  | nil => exact .refl s
  | cons f fs ih =>
    obtain ⟨hf, hfs⟩ := List.forall_mem_cons.mp hf
    exact (pushFrame_calm q s hf).trans (ih _ hfs)

/-- A receive path offers to FQ(tx) only frames that keep the frame invariant (R127, R129). -/
theorem ingest_calm (buf : List Byte) (s : State) : CalmTraffic s (ingest buf s) :=
  have note : CalmTraffic s (s.noteIncomplete (scanIncomplete buf)) := ⟨⟨rfl, rfl, id, id⟩, rfl⟩
  note.trans (pushAll_calm .tx _ _ (decodeBuffer_spec buf).2.1)

theorem submitOrDrop_calm (f : BusFrame) (s : State) : CalmTraffic s (submitOrDrop f s) := by
  unfold submitOrDrop
  rw [drawTxSlot_state]
  split <;> exact ⟨⟨rfl, rfl, id, id⟩, rfl⟩

theorem drainTx_calm {k : Nat} {s t : State} (h : drainTx k s = .next t) : CalmTraffic s t := by
  induction k generalizing s with
  | zero => cases h
  | succ k ih =>
    have hpop := popFrame_calm .tx s
    unfold drainTx at h
    generalize popFrame .tx s = x at h hpop
    obtain ⟨_ | f, s'⟩ := x
    · cases h; exact hpop
    · exact (hpop.trans (submitOrDrop_calm f s')).trans (ih h)

/-! ### Interrupts -/

theorem ingress_calm {p : PFrame} {s t : State} (h : ingress p s = .next t) : CalmTraffic s t := by
  unfold ingress at h
  split at h
  · rename_i hl
    cases h
    have hp := pushFrame_calm .rx s (frameOfPFrame_inv hl)
    exact hp.trans ⟨⟨rfl, rfl, id, id⟩, rfl⟩
  · cases h

/-- Entry and return change nothing but the context (R219, R220). -/
theorem takeInterrupt_calm {p : PFrame} {s t : State} (h : takeInterrupt p s = .next t) : CalmTraffic s t := by
  obtain ⟨u, hu, h⟩ := (andThen_eq_next _ _ _).mp h
  cases h
  obtain ⟨⟨hlinks, hcfg, hrx, htx⟩, hflight⟩ := ingress_calm hu
  exact ⟨⟨hlinks, hcfg, hrx, htx⟩, hflight⟩

theorem takeInterrupts_calm {ps : List PFrame} {s t : State} (h : takeInterrupts ps s = .next t) : CalmTraffic s t := by
  induction ps generalizing s with
  | nil => cases h; exact .refl _
  | cons p ps ih =>
    obtain ⟨u, hu, h⟩ := (andThen_eq_next _ _ _).mp h
    exact (takeInterrupt_calm hu).trans (ih h)

theorem preempt_calm {s t : State} (h : preempt s = .next t) : CalmTraffic s t := by
  cases hi : s.env.irq with
  | nil => rw [preempt_none hi] at h; cases h; exact .refl s
  | cons ps rest =>
    rw [preempt_some hi] at h
    have script : CalmTraffic s (s.setEnv { s.env with irq := rest }) := ⟨⟨rfl, rfl, id, id⟩, rfl⟩
    exact script.trans (takeInterrupts_calm h)

theorem popBoundary_calm {q : QSel} {s t : State} (h : popBoundary q s = .next t) : CalmTraffic s t := by
  cases q with
  | rx => exact preempt_calm h
  | tx => cases h; exact .refl s

/-! ### The micro-steps (R104, R105, R152) -/

theorem pushP3_traffic (q : QSel) {f : BusFrame} (s : State) (hf : f.inv = true) : Traffic s (pushP3 q f s) :=
  (CalmTraffic.setQueue fun hw => by
    obtain ⟨hm, hh, ht⟩ := (FrameQueue.wf_iff _ _).mp hw
    exact (FrameQueue.wf_iff _ _).mpr ⟨Memory.write_wf hm hf, hh, ht⟩).toTraffic

theorem pushP4_traffic (q : QSel) (s : State) : Traffic s (pushP4 q s) :=
  (CalmTraffic.setQueue fun hw => by
    obtain ⟨hm, hh, ht⟩ := (FrameQueue.wf_iff _ _).mp hw
    exact (FrameQueue.wf_iff _ _).mpr ⟨hm, nextIndex_lt (by omega), ht⟩).toTraffic

theorem popC4_traffic (q : QSel) (s : State) : Traffic s (popC4 q s) :=
  (CalmTraffic.setQueue fun hw => by
    obtain ⟨hm, hh, ht⟩ := (FrameQueue.wf_iff _ _).mp hw
    exact (FrameQueue.wf_iff _ _).mpr ⟨hm, hh, nextIndex_lt (by omega)⟩).toTraffic

theorem setPush_traffic (s : State) (p : PushRegs) : Traffic s (s.setPush p) := ⟨rfl, rfl, id, id⟩

theorem setPop_traffic (s : State) (p : PopRegs) : Traffic s (s.setPop p) := ⟨rfl, rfl, id, id⟩

/-- A whole push is traffic, and its registers are clear again at its end. -/
theorem pushMicro_traffic (q : QSel) {f : BusFrame} (s : State) (hf : f.inv = true) :
    Traffic s (pushMicro q f s).2 ∧ (pushMicro q f s).2.inflight = { s.inflight with push := {} } := by
  have p1 : Traffic s (pushP1 q s) := setPush_traffic s _
  unfold pushMicro
  split
  · exact ⟨p1.trans ⟨rfl, rfl, id, id⟩, rfl⟩
  · refine ⟨?_, by simp [pushEnd, pushP4, pushP3, pushP1]⟩
    exact ((p1.trans (pushP3_traffic q _ hf)).trans (pushP4_traffic q _)).trans (setPush_traffic _ _)

/-- A whole pop, interrupts included, is traffic, and its registers are clear again at its end. -/
theorem popMicro_traffic {q : QSel} {s t : State} {r : Option BusFrame} (h : popMicro q s = .next (r, t)) :
    Traffic s t ∧ t.inflight = { s.inflight with pop := {} } := by
  have c1 : Traffic s (popC1 q s) := setPop_traffic s _
  obtain ⟨s1, h1, h⟩ := (andThen_eq_next _ _ _).mp h
  have b1 := popBoundary_calm h1
  split at h
  · cases h
    refine ⟨(c1.trans b1.toTraffic).trans (setPop_traffic _ _), ?_⟩
    simp [popEnd, b1.inflight, popC1]
  · obtain ⟨s2, h2, h⟩ := (andThen_eq_next _ _ _).mp h
    obtain ⟨s3, h3, h⟩ := (andThen_eq_next _ _ _).mp h
    cases h
    have b2 := popBoundary_calm h2
    have b3 := popBoundary_calm h3
    have c3 : Traffic s2 (popC3 q s2) := setPop_traffic s2 _
    constructor
    · have upToC3 := ((c1.trans b1.toTraffic).trans b2.toTraffic).trans c3
      exact ((upToC3.trans b3.toTraffic).trans (popC4_traffic q s3)).trans (setPop_traffic _ _)
    · simp [popEnd, popC4, b3.inflight, popC3, b2.inflight, b1.inflight, popC1]

/-- N2 of an `NE.EGRESS` is traffic; no pop is in flight at its end. -/
theorem egressN2_traffic {h : Handle} {s t : State} (hn : egressN2 h s = .next t) :
    Traffic s t ∧ t.inflight.push = s.inflight.push ∧ t.inflight.pop = {} := by
  obtain ⟨⟨r, u⟩, hu, hn⟩ := (andThen_eq_next _ _ _).mp hn
  cases hn
  obtain ⟨hpop, hflight⟩ := popMicro_traffic hu
  exact ⟨hpop.trans ⟨rfl, rfl, id, id⟩, by simp [hflight]⟩

/-- N3 writes to the transport; it touches no queue. -/
theorem egressN3_traffic {h : Handle} {f : BusFrame} {s t : State} (hn : egressN3 h f s = .next t) :
    Traffic s t ∧ t.inflight.push = s.inflight.push ∧ t.inflight.pop = s.inflight.pop := by
  obtain ⟨u, hu, hn⟩ := (andThen_eq_next _ _ _).mp hn
  cases hn
  unfold sendFrame at hu
  split at hu
  · cases hu; exact ⟨⟨rfl, rfl, id, id⟩, rfl, rfl⟩
  · cases hu

/-- The rest of an `NE.EGRESS` is traffic; when it answers, it is no longer in flight, nor has it left a pop there. -/
theorem egressRun_traffic {k : Nat} {s t : State} (h : egressRun k s = .next t) :
    Traffic s t ∧ (s.inflight.pop = {} → t.inflight = { push := s.inflight.push }) := by
  induction k generalizing s with
  | zero => cases h
  | succ k ih =>
    obtain ⟨s1, h1, h⟩ := (andThen_eq_next _ _ _).mp h
    obtain ⟨b, hflight⟩ := preempt_calm h1
    rw [← hflight]
    split at h
    · rename_i hidle
      cases h
      exact ⟨b, fun hpop => by rw [← hpop, ← hidle]⟩
    · split at h
      · obtain ⟨s2, h2, h⟩ := (andThen_eq_next _ _ _).mp h
        obtain ⟨n2, hpush2, hpop2⟩ := egressN2_traffic h2
        obtain ⟨rest, hrest⟩ := ih h
        exact ⟨(b.trans n2).trans rest, fun _ => hpush2 ▸ hrest hpop2⟩
      · obtain ⟨s2, h2, h⟩ := (andThen_eq_next _ _ _).mp h
        obtain ⟨n3, hpush3, hpop3⟩ := egressN3_traffic h2
        obtain ⟨rest, hrest⟩ := ih h
        exact ⟨(b.trans n3).trans rest, fun hpop => hpush3 ▸ hrest (hpop3.trans hpop)⟩
      · cases h
        exact ⟨b.trans ⟨rfl, rfl, id, id⟩, fun hpop => by rw [← hpop]; rfl⟩

end Sys2Proof.Machine
end

section
/-! SUPPORT. What an operation can do to the state, said once: traffic on well-formed queues, and moves of the links from
a short list (spec/44_client_link.md, 45_server_link.md, 46_active_link.md). The invariants of spec/10_state.md are read
off this list below. -/

namespace Sys2Proof.Machine

/-! ## The moves of the links -/

/-- The slot after `AL.CLEARIF h` (R201). -/
def Links.unlink (l : Links) (h : Handle) : Links := { l with slot := if l.slot = some h then none else l.slot }

/-- `h` differs from the handle of every record and from the slot's (HANDLE_FRESH, R38). -/
def Links.Fresh (l : Links) (h : Handle) : Prop :=
  (∀ r, l.client = some r → r.handle ≠ h) ∧ (∀ v, l.server = some v → v.handle ≠ h) ∧ l.slot ≠ some h

theorem freshHandle_iff (s : State) (h : Handle) : s.freshHandle h = true ↔ s.links.Fresh h := by
  simp [State.freshHandle, State.liveHandles, Links.Fresh, State.links]

theorem links_clearLinkIf (s : State) (h : Handle) : (s.clearLinkIf h).links = s.links.unlink h := by
  rw [clearLinkIf_eq]; rfl

/-- One move of the links in operation `i` under configuration `c`. A handle that enters is fresh if `fresh` holds. -/
inductive LinkMove (c : Config) (i : Instr) (fresh : Prop) (l : Links) : Links → Prop
  /-- a new attempt (R160) -/
  | clientStart (h : Handle) (now : Time) : l.client = none → (fresh → l.Fresh h) →
      LinkMove c i fresh l { l with
        client := some { state := .connecting, handle := h, attemptStart := now, rxTail := [] } }
  /-- the attempt succeeds and becomes the active link (R162) -/
  | clientConnected (r : ClientRec) : l.client = some r → r.state = .connecting →
      LinkMove c i fresh l { l with client := some { r with state := .connected }, slot := some r.handle }
  /-- the client receives and keeps an incomplete candidate (R165) -/
  | clientTail (r : ClientRec) (tail : List Byte) : l.client = some r → r.state = .connected →
      decodeOne tail 0 = none → (tail = [] ∨ c.clRetainTail = true) →
      LinkMove c i fresh l { l with client := some { r with rxTail := tail } }
  /-- the attempt fails or times out (R163, R161) -/
  | clientDrop (r : ClientRec) : l.client = some r → r.state = .connecting →
      LinkMove c i fresh l { l with client := none }
  /-- the client's record is released with its hold on the slot (R164, R167) -/
  | clientRelease (r : ClientRec) : l.client = some r →
      LinkMove c i fresh l { l.unlink r.handle with client := none }
  /-- the server listens (R180) -/
  | listen : LinkMove c i fresh l { l with listening := true }
  /-- the server accepts and takes the slot (R181) -/
  | serverAccept (h : Handle) : l.listening = true → (fresh → l.Fresh h) →
      LinkMove c i fresh l { l with
        server := some { state := .accepted, handle := h, rxPending := [], txPending := [], retries := 0 },
        slot := some h }
  /-- the server receives and keeps an incomplete candidate (R183) -/
  | serverTail (v : ServerRec) (rest : List Byte) : l.server = some v → decodeOne rest 0 = none →
      LinkMove c i fresh l { l with server := some { v with state := .received, rxPending := rest } }
  /-- the pending output grows or is sent; a successful chunk resets the retry counter (R186, R187, R192) -/
  | serverOutput (v : ServerRec) (pending : List Byte) (n : Nat) : l.server = some v → (n = 0 ∨ n = v.retries) →
      LinkMove c i fresh l { l with server := some { v with txPending := pending, retries := n } }
  /-- the server begins to close (R184) -/
  | serverClosing (v : ServerRec) : l.server = some v →
      LinkMove c i fresh l { l with server := some { v with state := .closing } }
  /-- the server's record is released with its hold on the slot (R182, R185) -/
  | serverRelease (v : ServerRec) : l.server = some v →
      LinkMove c i fresh l { l.unlink v.handle with server := none }
  /-- the slot is cleared for a handle (R201) -/
  | unlink (h : Handle) : LinkMove c i fresh l (l.unlink h)
  /-- a direct `AL.SET` (R200) -/
  | setLink (h : Handle) : i = .alSet h → LinkMove c i fresh l { l with slot := some h }

/-- What operation `i` can leave of `s`: the configuration, queues that keep their form, nothing in flight if nothing was,
and the links after moves of the list. -/
structure Effect (i : Instr) (fresh : Prop) (s t : State) : Prop where
  cfg : t.cfg = s.cfg
  rx : s.rx.wf s.cfg.nRx = true → t.rx.wf s.cfg.nRx = true
  tx : s.tx.wf s.cfg.nTx = true → t.tx.wf s.cfg.nTx = true
  idle : s.inflight = {} → t.inflight = {}
  moves : Relation.ReflTransGen (LinkMove s.cfg i fresh) s.links t.links

section
variable {i : Instr} {fresh : Prop} {s t u : State}

theorem Effect.of_traffic (h : Traffic s t) (hidle : s.inflight = {} → t.inflight = {}) : Effect i fresh s t :=
  ⟨h.cfg, h.rx, h.tx, hidle, h.links ▸ .refl⟩

theorem Effect.of_calm (h : CalmTraffic s t) : Effect i fresh s t := .of_traffic h.toTraffic h.inflight.trans

/-- The output is all that may change. -/
theorem Effect.of_output (o : Output) : Effect i fresh s (s.setOut o) := .of_calm ⟨⟨rfl, rfl, id, id⟩, rfl⟩

theorem Effect.trans (h : Effect i fresh s t) (h' : Effect i fresh t u) : Effect i fresh s u where
  cfg := h'.cfg.trans h.cfg
  rx hw := h.cfg ▸ h'.rx (h.cfg.symm ▸ h.rx hw)
  tx hw := h.cfg ▸ h'.tx (h.cfg.symm ▸ h.tx hw)
  idle hs := h'.idle (h.idle hs)
  moves := h.moves.trans (h.cfg ▸ h'.moves)

/-- An update of the links alone, beside the retry reference, the answers and the output, is an effect if it is a move. -/
theorem Effect.of_move {a : Option Handle} {r : Option ClientRec} {ref : Option Time} {b : Bool} {v : Option ServerRec}
    {e : Env} {o : Output}
    (h : LinkMove s.cfg i fresh s.links { slot := a, client := r, listening := b, server := v }) :
    Effect i fresh s { s with
      alSlot := a, clRec := r, clRetryRef := ref, slListening := b, slRec := v, env := e, out := o } :=
  ⟨rfl, id, id, id, .single h⟩

/-- A background operation has the effect of its body, which starts with an empty output. -/
theorem inBackground_effect {body : State → Answer} (h : inBackground s body = .next t)
    (hbody : body s.fresh = .next t → Effect i fresh s.fresh t) : Effect i fresh s t :=
  (Effect.of_output {}).trans (hbody (inBackground_eq_next h).2.2)

/-! ## The operations on the queues -/

theorem execFqPush_effect {q : QSel} {f : BusFrame} (h : execFqPush q f s = .next t) : Effect i fresh s t := by
  obtain ⟨-, -, -, h⟩ := atProducerPort_eq_next h
  split at h
  · rename_i hf
    cases h
    obtain ⟨htraffic, hflight⟩ := pushMicro_traffic q s.fresh hf
    exact .of_traffic ⟨htraffic.links, htraffic.cfg, htraffic.rx, htraffic.tx⟩ fun hs => by simp [hflight, hs]
  · cases h

theorem execFqPop_effect {q : QSel} (h : execFqPop q s = .next t) : Effect i fresh s t := by
  obtain ⟨-, -, h⟩ := atConsumerPort_eq_next h
  obtain ⟨⟨r, u⟩, hu, h⟩ := (andThen_eq_next _ _ _).mp h
  cases h
  obtain ⟨htraffic, hflight⟩ := popMicro_traffic hu
  exact .of_traffic ⟨htraffic.links, htraffic.cfg, htraffic.rx, htraffic.tx⟩ fun hs => by simp [hflight, hs]

theorem execBiIngress_effect {p : PFrame} (h : execBiIngress p s = .next t) : Effect i fresh s t := by
  obtain ⟨-, -, h⟩ := inInterrupt_eq_next h
  exact (Effect.of_output {}).trans (.of_calm (ingress_calm h))

theorem execBeEgress_effect (h : execBeEgress s = .next t) : Effect i fresh s t :=
  inBackground_effect h fun h => .of_calm (drainTx_calm h)

theorem execNeEgress_effect (h : execNeEgress s = .next t) : Effect i fresh s t := by
  refine inBackground_effect h fun h => ?_
  split at h
  · cases h; exact .of_calm (.refl _)
  · rename_i a _
    split at h
    · have n1 : Traffic s.fresh (egressN1 a s.fresh) := ⟨rfl, rfl, id, id⟩
      obtain ⟨hrun, hflight⟩ := egressRun_traffic h
      refine .of_traffic (n1.trans hrun) fun hs => ?_
      rw [hflight (congrArg InFlight.pop hs)]
      exact congrArg (fun x : InFlight => ({ push := x.push } : InFlight)) hs
    · cases h; exact .of_calm (.refl _)

/-! ## The client's operations -/

theorem initiate_effect {now : Time} (h : initiate now s = .next t) (hfresh : fresh → s.freshForInitiate = true) :
    Effect i fresh s t := by
  rcases initiate_cases now s with ⟨-, e⟩ | ⟨-, -, e⟩ | ⟨a, hnone, ha, e⟩ <;> rw [e] at h <;> cases h
  · exact .of_calm (.refl _)
  · refine .of_move (.clientStart a now hnone fun hf => ?_)
    have hall := hfresh hf
    rw [State.freshForInitiate, hnone, ha] at hall
    exact (freshHandle_iff s a).mp hall

/-- The output of the last operation plays no part in whether the next handle is fresh. -/
theorem freshForInitiate_setOut (s : State) (o : Output) : (s.setOut o).freshForInitiate = s.freshForInitiate := by
  have hdraw : (drawAlloc (s.setOut o)).1 = (drawAlloc s).1 := by
    cases ha : s.env.alloc <;> simp [drawAlloc, ha]
  unfold State.freshForInitiate
  rw [hdraw]; rfl

theorem freshForReconnect_setOut (now : Time) (s : State) (o : Output) :
    (s.setOut o).freshForReconnect now = s.freshForReconnect now := by
  unfold State.freshForReconnect
  rw [freshForInitiate_setOut]; rfl

/-- A time-out does not look at the output of the last operation. -/
theorem tickTimeout_fresh (now : Time) (s : State) : ∃ o, tickTimeout now s.fresh = (tickTimeout now s).setOut o := by
  have hsame : handshakeTimedOut now s.fresh = handshakeTimedOut now s := rfl
  unfold tickTimeout
  rw [hsame]
  cases handshakeTimedOut now s with
  | none => exact ⟨{}, rfl⟩
  | some r => exact ⟨_, rfl⟩

theorem tickTimeout_effect (now : Time) (s : State) : Effect i fresh s (tickTimeout now s) := by
  rcases tickTimeout_cases now s with ⟨r, hc, hstate, -, e⟩ | ⟨-, e⟩ <;> rw [e]
  · exact .of_move (.clientDrop r hc hstate)
  · exact .of_calm (.refl s)

theorem tickReconnect_effect {now : Time} (h : tickReconnect now s = .next t)
    (hfresh : fresh → s.freshForReconnect now = true) : Effect i fresh s t := by
  unfold tickReconnect at h
  split at h
  · rename_i hdue
    obtain ⟨-, hover⟩ := Bool.and_eq_true_iff.mp hdue
    refine initiate_effect h fun hf => ?_
    have := hfresh hf
    rwa [State.freshForReconnect, hover] at this
  · cases h; exact .of_calm (.refl _)

theorem execClInitiate_effect {now : Time} (h : execClInitiate now s = .next t)
    (hfresh : fresh → s.freshForInitiate = true) : Effect i fresh s t :=
  inBackground_effect h fun h => initiate_effect h fun hf => (freshForInitiate_setOut s {}).trans (hfresh hf)

theorem execClTick_effect {now : Time} (h : execClTick now s = .next t)
    (hfresh : fresh → (tickTimeout now s).freshForReconnect now = true) : Effect i fresh s t :=
  inBackground_effect h fun h => (tickTimeout_effect now s.fresh).trans <| tickReconnect_effect h fun hf => by
    obtain ⟨o, e⟩ := tickTimeout_fresh now s
    rw [e, freshForReconnect_setOut]
    exact hfresh hf

theorem execClConnected_effect (h : execClConnected s = .next t) : Effect i fresh s t := by
  refine inBackground_effect h fun h => ?_
  split at h
  · cases h; exact .of_calm (.refl _)
  · rename_i r hc
    split at h <;> cases h
    · exact .of_move (.clientConnected r hc ‹_›)
    · exact .of_calm (.refl _)

theorem execClConnfail_effect (h : execClConnfail s = .next t) : Effect i fresh s t := by
  refine inBackground_effect h fun h => ?_
  split at h
  · cases h; exact .of_calm (.refl _)
  · rename_i r hc
    split at h <;> cases h
    · exact .of_move (.clientDrop r hc ‹_›)
    · exact .of_calm (.refl _)

/-- What the client retains is nothing or, if it retains at all, an incomplete candidate (R165, D17). -/
theorem retainedTail_spec (s : State) (buf : List Byte) :
    decodeOne (retainedTail s buf) 0 = none ∧ (retainedTail s buf = [] ∨ s.cfg.clRetainTail = true) := by
  unfold retainedTail
  split
  · exact ⟨(decodeBuffer_spec buf).2.2, .inr ‹_›⟩
  · exact ⟨rfl, .inl rfl⟩

theorem execClRecv_effect {bytes : List Byte} (h : execClRecv bytes s = .next t) : Effect i fresh s t := by
  refine inBackground_effect h fun h => ?_
  split at h
  · cases h; exact .of_calm (.refl _)
  · rename_i r hc
    split at h <;> cases h
    · have hin := ingest_calm (r.rxTail ++ bytes) s.fresh
      obtain ⟨hinc, hret⟩ := retainedTail_spec s.fresh (r.rxTail ++ bytes)
      refine (Effect.of_calm hin).trans (.of_move (.clientTail r _ ?_ ‹_› hinc (hin.cfg ▸ hret)))
      rw [hin.links]; exact hc
    · exact .of_calm (.refl _)

theorem execClEos_effect (h : execClEos s = .next t) : Effect i fresh s t := by
  refine inBackground_effect h fun h => ?_
  split at h
  · cases h; exact .of_calm (.refl _)
  · rename_i r hc
    cases h
    rw [clFinalize_eq]
    exact .of_move (.clientRelease r hc)

theorem execClError_effect (h : execClError s = .next t) : Effect i fresh s t := by
  refine inBackground_effect h fun h => ?_
  split at h
  · cases h; exact .of_calm (.refl _)
  · rename_i r hc
    cases h
    rw [clearLinkIf_eq]
    exact .of_move (.clientRelease r hc)

theorem execClPoll_effect {a : Handle} (h : execClPoll a s = .next t) : Effect i fresh s t := by
  refine inBackground_effect h fun h => ?_
  split at h
  · cases h; exact .of_output _
  · split at h <;> cases h
    · exact .of_calm (.refl _)
    · exact .of_output _

/-! ## The server's operations -/

/-- A send changes the pending output and the retry counter of the record, nothing else of the links (R187). -/
theorem sendPending_effect (s : State) : Effect i fresh s (sendPending s) := by
  cases hv : s.slRec with
  | none =>
    have e : sendPending s = s := by simp only [sendPending, hv]
    rw [e]; exact .of_calm (.refl s)
  | some v =>
    obtain ⟨rest, n, hrec, hn⟩ := sendPending_slRec hv
    rw [sendPending_frame s, hrec]
    exact .of_move (.serverOutput v rest n hv hn)

theorem slFinalize_effect {v : ServerRec} (hv : s.slRec = some v) : Effect i fresh s (slFinalize v s) := by
  rw [slFinalize_eq]; exact .of_move (.serverRelease v hv)

theorem execSlSetup_effect (h : execSlSetup s = .next t) : Effect i fresh s t := by
  refine inBackground_effect h fun h => ?_
  split at h <;> cases h
  exact .of_move .listen

theorem execSlAccept_effect {a : Handle} (h : execSlAccept a s = .next t) (hfresh : fresh → s.freshHandle a = true) :
    Effect i fresh s t := by
  refine inBackground_effect h fun h => ?_
  split at h
  · cases h
  · rename_i hl
    split at h <;> cases h
    exact .of_move (.serverAccept a (Bool.not_eq_false _ ▸ hl) fun hf => (freshHandle_iff s a).mp (hfresh hf))

theorem execSlRecv_effect {bytes : List Byte} (h : execSlRecv bytes s = .next t) : Effect i fresh s t := by
  refine inBackground_effect h fun h => ?_
  split at h
  · cases h; exact .of_calm (.refl _)
  · rename_i v hv
    split at h <;> cases h
    · exact .of_calm (.refl _)
    · have hin := ingest_calm (v.rxPending ++ bytes) s.fresh
      refine (Effect.of_calm hin).trans (.of_move (.serverTail v _ ?_ (decodeBuffer_spec _).2.2))
      rw [hin.links]; exact hv

theorem execSlEos_effect (h : execSlEos s = .next t) : Effect i fresh s t := by
  refine inBackground_effect h fun h => ?_
  split at h
  · cases h; exact .of_calm (.refl _)
  · rename_i v hv
    have noted : Effect i fresh s.fresh (s.fresh.raise .peerClosed) := .of_output _
    split at h <;> cases h
    · exact noted.trans (slFinalize_effect hv)
    · have closing : Effect i fresh s.fresh
          ((s.fresh.raise .peerClosed).setSlRec (some { v with state := .closing })) := .of_move (.serverClosing v hv)
      exact closing.trans (sendPending_effect _)

theorem execSlError_effect (h : execSlError s = .next t) : Effect i fresh s t := by
  refine inBackground_effect h fun h => ?_
  split at h
  · cases h; exact .of_calm (.refl _)
  · rename_i v hv
    cases h
    rw [clearLinkIf_eq]
    exact .of_move (.serverRelease v hv)

theorem execSlEnqueue_effect {bytes : List Byte} (h : execSlEnqueue bytes s = .next t) : Effect i fresh s t := by
  refine inBackground_effect h fun h => ?_
  split at h <;> cases h
  · exact .of_calm (.refl _)
  · rename_i v hv
    exact .of_move (.serverOutput v _ v.retries hv (.inr rfl))

theorem execSlSend_effect (h : execSlSend s = .next t) : Effect i fresh s t :=
  inBackground_effect h fun h => by cases h; exact sendPending_effect _

theorem execSlSent_effect (h : execSlSent s = .next t) : Effect i fresh s t := by
  refine inBackground_effect h fun h => ?_
  split at h
  · cases h; exact .of_calm (.refl _)
  · rename_i v hv
    split at h
    · cases h; exact sendPending_effect _
    · split at h <;> cases h
      · exact slFinalize_effect hv
      · exact .of_calm (.refl _)

theorem execSlPoll_effect {a : Handle} (h : execSlPoll a s = .next t) : Effect i fresh s t := by
  refine inBackground_effect h fun h => ?_
  split at h
  · cases h; exact .of_output _
  · rename_i v hv
    split at h
    · cases h; exact .of_output _
    · split at h
      · cases h; exact sendPending_effect _
      · split at h <;> cases h
        · exact slFinalize_effect hv
        · exact .of_calm (.refl _)

/-! ## The active link and the codec -/

theorem execAlSet_effect {a : Handle} (h : execAlSet a s = .next t) (hi : i = .alSet a) : Effect i fresh s t :=
  inBackground_effect h fun h => by cases h; exact .of_move (.setLink a hi)

theorem execAlClearif_effect {a : Handle} (h : execAlClearif a s = .next t) : Effect i fresh s t :=
  inBackground_effect h fun h => by
    cases h
    rw [clearLinkIf_eq]
    exact .of_move (.unlink a)

theorem execAlGet_effect (h : execAlGet s = .next t) : Effect i fresh s t :=
  inBackground_effect h fun h => by cases h; exact .of_output _

theorem execFcEncode_effect {f : BusFrame} (h : execFcEncode f s = .next t) : Effect i fresh s t := by
  refine inBackground_effect h fun h => ?_
  split at h <;> cases h
  exact .of_output _

theorem execFcDecode_effect {buf : List Byte} (h : execFcDecode buf s = .next t) : Effect i fresh s t :=
  inBackground_effect h fun h => by cases h; exact .of_output _

theorem execWireFrame_effect {buf : List Byte} (h : execWireFrame buf s = .next t) : Effect i fresh s t :=
  inBackground_effect h fun h => by cases h; exact .of_output _

end

/-- What every operation can do. A handle that enters is fresh under HANDLE_FRESH for the operation (R38). -/
theorem exec_effect {i : Instr} {s t : State} (h : exec i s = .next t) : Effect i (s.freshFor i = true) s t := by
  cases i with
  | fqPush => exact execFqPush_effect h
  | fqPop => exact execFqPop_effect h
  | fcEncode => exact execFcEncode_effect h
  | fcDecode => exact execFcDecode_effect h
  | biIngress => exact execBiIngress_effect h
  | beEgress => exact execBeEgress_effect h
  | neEgress => exact execNeEgress_effect h
  | clInitiate => exact execClInitiate_effect h id
  | clTick => exact execClTick_effect h id
  | clConnected => exact execClConnected_effect h
  | clConnfail => exact execClConnfail_effect h
  | clRecv => exact execClRecv_effect h
  | clEos => exact execClEos_effect h
  | clError => exact execClError_effect h
  | clPoll => exact execClPoll_effect h
  | slSetup => exact execSlSetup_effect h
  | slAccept => exact execSlAccept_effect h id
  | slRecv => exact execSlRecv_effect h
  | slEos => exact execSlEos_effect h
  | slError => exact execSlError_effect h
  | slEnqueue => exact execSlEnqueue_effect h
  | slSend => exact execSlSend_effect h
  | slSent => exact execSlSent_effect h
  | slPoll => exact execSlPoll_effect h
  | alSet => exact execAlSet_effect h rfl
  | alClearif => exact execAlClearif_effect h
  | alGet => exact execAlGet_effect h
  | wireFrame => exact execWireFrame_effect h

end Sys2Proof.Machine
end

section
/-! SUPPORT. The invariants of spec/10_state.md (R21, R23, R33, R38): each is a statement about the queues or the links
that every move of `LinkMove` keeps, and so every operation; and the obligations they settle. -/

namespace Sys2Proof.Machine

/-! ## Invariants of the links -/

/-- What every move keeps, every chain of moves keeps. -/
theorem moves_keep {c : Config} {i : Instr} {fresh : Prop} {P : Links → Prop}
    (hmove : ∀ l l', LinkMove c i fresh l l' → P l → P l') {l l' : Links}
    (h : Relation.ReflTransGen (LinkMove c i fresh) l l') (hl : P l) : P l' := by
  induction h with
  | refl => exact hl
  | tail _ hm ih => exact hmove _ _ hm ih

theorem Links.unlink_slot {l : Links} {h g : Handle} : (l.unlink h).slot = some g ↔ l.slot = some g ∧ g ≠ h := by
  unfold Links.unlink
  split
  · rename_i hs; simp [hs, eq_comm]
  · rename_i hs
    exact ⟨fun e => ⟨e, fun hg => hs (hg ▸ e)⟩, And.left⟩

/-! ### The records (R30, R31, R165, R183, R192) -/

theorem clientOk_some (c : Config) (r : ClientRec) : clientOk c (some r) = true ↔
    decodeOne r.rxTail 0 = none ∧ (r.rxTail = [] ∨ c.clRetainTail = true ∧ r.state ≠ .connecting) := by
  simp [clientOk]

theorem serverOk_some (listening : Bool) (v : ServerRec) : serverOk listening (some v) = true ↔
    listening = true ∧ decodeOne v.rxPending 0 = none ∧ (v.rxPending = [] ∨ v.state ≠ .accepted) ∧ v.retries = 0 := by
  simp [serverOk, and_assoc]

/-- Both records are as the invariant says. -/
def Links.RecordsOk (c : Config) (l : Links) : Prop :=
  clientOk c l.client = true ∧ serverOk l.listening l.server = true

theorem LinkMove.recordsOk {c : Config} {i : Instr} {fresh : Prop} {l l' : Links} (hm : LinkMove c i fresh l l')
    (h : l.RecordsOk c) : l'.RecordsOk c := by
  obtain ⟨hclient, hserver⟩ := h
  cases hm with
  | clientStart a now hnone hfresh => exact ⟨rfl, hserver⟩
  | clientConnected r hr hstate =>
    obtain ⟨hinc, hempty | ⟨-, hne⟩⟩ := (clientOk_some c r).mp (hr ▸ hclient)
    · exact ⟨(clientOk_some _ _).mpr ⟨hinc, .inl hempty⟩, hserver⟩
    · exact absurd hstate hne
  | clientTail r tail hr hstate hinc hret =>
    exact ⟨(clientOk_some _ _).mpr ⟨hinc, hret.imp_right fun hc => ⟨hc, by simp [hstate]⟩⟩, hserver⟩
  | clientDrop r hr hstate => exact ⟨rfl, hserver⟩
  | clientRelease r hr => exact ⟨rfl, hserver⟩
  | listen =>
    refine ⟨hclient, ?_⟩
    cases hv : l.server with
    | none => rfl
    | some v => exact (serverOk_some _ _).mpr ⟨rfl, ((serverOk_some _ v).mp (hv ▸ hserver)).2⟩
  | serverAccept a hl hfresh => exact ⟨hclient, (serverOk_some _ _).mpr ⟨hl, rfl, .inl rfl, rfl⟩⟩
  | serverTail v rest hv hinc =>
    obtain ⟨hl, -, -, hretries⟩ := (serverOk_some _ v).mp (hv ▸ hserver)
    exact ⟨hclient, (serverOk_some _ _).mpr ⟨hl, hinc, .inr (by simp), hretries⟩⟩
  | serverOutput v pending n hv hn =>
    obtain ⟨hl, hinc, hpending, hretries⟩ := (serverOk_some _ v).mp (hv ▸ hserver)
    exact ⟨hclient, (serverOk_some _ _).mpr ⟨hl, hinc, hpending, hn.elim id (·.trans hretries)⟩⟩
  | serverClosing v hv =>
    obtain ⟨hl, hinc, -, hretries⟩ := (serverOk_some _ v).mp (hv ▸ hserver)
    exact ⟨hclient, (serverOk_some _ _).mpr ⟨hl, hinc, .inr (by simp), hretries⟩⟩
  | serverRelease v hv => exact ⟨hclient, rfl⟩
  | unlink a => exact ⟨hclient, hserver⟩
  | setLink a hi => exact ⟨hclient, hserver⟩

/-! ### The slot (R33) -/

/-- `h` is the handle of a Connected client's record. -/
def Links.ClientHolds (l : Links) (h : Handle) : Prop :=
  ∃ r, l.client = some r ∧ r.handle = h ∧ r.state = .connected

/-- `h` is the handle of the server's record. -/
def Links.ServerHolds (l : Links) (h : Handle) : Prop := ∃ v, l.server = some v ∧ v.handle = h

/-- The slot invariant on the links. -/
def Links.SlotHeld (l : Links) : Prop := ∀ h, l.slot = some h → l.ClientHolds h ∨ l.ServerHolds h

theorem Links.clientHolds_some {l : Links} {r : ClientRec} (hr : l.client = some r) (h : Handle) :
    l.ClientHolds h ↔ r.handle = h ∧ r.state = .connected := by
  simp [ClientHolds, hr]

theorem Links.serverHolds_some {l : Links} {v : ServerRec} (hv : l.server = some v) (h : Handle) :
    l.ServerHolds h ↔ v.handle = h := by
  simp [ServerHolds, hv]

theorem clientHolds_iff (s : State) (h : Handle) : s.clientHolds h = true ↔ s.links.ClientHolds h := by
  unfold State.clientHolds Links.ClientHolds State.links
  cases s.clRec <;> simp

theorem serverHolds_iff (s : State) (h : Handle) : s.serverHolds h = true ↔ s.links.ServerHolds h := by
  unfold State.serverHolds Links.ServerHolds State.links
  cases s.slRec <;> simp

theorem slotInv_iff (s : State) : s.slotInv = true ↔ s.links.SlotHeld := by
  unfold State.slotInv Links.SlotHeld
  simp only [← clientHolds_iff, ← serverHolds_iff]
  cases ha : s.alSlot <;> simp [State.links, ha]

/-- A release of one record clears the slot for its handle; a slot that stays is held by the other record. -/
theorem LinkMove.slotHeld {c : Config} {i : Instr} {fresh : Prop} {l l' : Links} (hi : ∀ h, i ≠ .alSet h)
    (hm : LinkMove c i fresh l l') (hl : l.SlotHeld) : l'.SlotHeld := by
  intro g hg
  cases hm with
  | clientStart a now hnone hfresh =>
    refine (hl g hg).imp_left fun ⟨r, hr, _⟩ => ?_
    rw [hnone] at hr; cases hr
  | clientConnected r hr hstate =>
    cases hg
    exact .inl ⟨_, rfl, rfl, rfl⟩
  | clientTail r tail hr hstate hinc hret =>
    exact (hl g hg).imp_left fun h => ⟨_, rfl, (Links.clientHolds_some hr g).mp h⟩
  | clientDrop r hr hstate =>
    refine (hl g hg).imp_left fun h => ?_
    have hconnected := ((Links.clientHolds_some hr g).mp h).2
    rw [hstate] at hconnected; cases hconnected
  | clientRelease r hr =>
    obtain ⟨hslot, hne⟩ := Links.unlink_slot.mp hg
    exact (hl g hslot).imp_left fun h => absurd ((Links.clientHolds_some hr g).mp h).1.symm hne
  | listen => exact hl g hg
  | serverAccept a hlisten hfresh =>
    cases hg
    exact .inr ⟨_, rfl, rfl⟩
  | serverTail v rest hv hinc =>
    exact (hl g hg).imp_right fun h => ⟨_, rfl, (Links.serverHolds_some hv g).mp h⟩
  | serverOutput v pending n hv hn =>
    exact (hl g hg).imp_right fun h => ⟨_, rfl, (Links.serverHolds_some hv g).mp h⟩
  | serverClosing v hv =>
    exact (hl g hg).imp_right fun h => ⟨_, rfl, (Links.serverHolds_some hv g).mp h⟩
  | serverRelease v hv =>
    obtain ⟨hslot, hne⟩ := Links.unlink_slot.mp hg
    exact (hl g hslot).imp_right fun h => absurd ((Links.serverHolds_some hv g).mp h).symm hne
  | unlink a => exact hl g (Links.unlink_slot.mp hg).1
  | setLink a ha => exact absurd ha (hi a)

/-! ### The transports (R38) -/

/-- The two records have different handles. -/
def Links.Distinct (l : Links) : Prop := ∀ r v, l.client = some r → l.server = some v → r.handle ≠ v.handle

/-- A connecting client's handle is not in the slot. -/
def Links.ConnectingNotLinked (l : Links) : Prop :=
  ∀ r, l.client = some r → r.state = .connecting → l.slot ≠ some r.handle

theorem handlesDistinct_iff (s : State) : s.handlesDistinct = true ↔ s.links.Distinct := by
  unfold State.handlesDistinct Links.Distinct State.links
  cases s.clRec <;> cases s.slRec <;> simp

theorem connectingNotLinked_iff (s : State) : s.connectingNotLinked = true ↔ s.links.ConnectingNotLinked := by
  unfold State.connectingNotLinked Links.ConnectingNotLinked State.links
  cases s.clRec with
  | none => simp
  | some r => simpa using imp_iff_not_or.symm

/-- Only the two moves by which a handle enters need it fresh; every other move keeps or drops the handles there are. -/
theorem LinkMove.distinct {c : Config} {i : Instr} {fresh : Prop} {l l' : Links} (hf : fresh)
    (hm : LinkMove c i fresh l l') (hl : l.Distinct) : l'.Distinct := by
  intro r' v' hr' hv'
  cases hm with
  | clientStart a now hnone hfresh =>
    cases hr'
    exact ((hfresh hf).2.1 v' hv').symm
  | clientConnected r hr hstate => cases hr'; exact hl r v' hr hv'
  | clientTail r tail hr hstate hinc hret => cases hr'; exact hl r v' hr hv'
  | clientDrop r hr hstate => cases hr'
  | clientRelease r hr => cases hr'
  | listen => exact hl r' v' hr' hv'
  | serverAccept a hlisten hfresh => cases hv'; exact (hfresh hf).1 r' hr'
  | serverTail v rest hv hinc => cases hv'; exact hl r' v hr' hv
  | serverOutput v pending n hv hn => cases hv'; exact hl r' v hr' hv
  | serverClosing v hv => cases hv'; exact hl r' v hr' hv
  | serverRelease v hv => cases hv'
  | unlink a => exact hl r' v' hr' hv'
  | setLink a ha => exact hl r' v' hr' hv'

theorem LinkMove.connectingNotLinked {c : Config} {i : Instr} {fresh : Prop} {l l' : Links} (hi : ∀ h, i ≠ .alSet h)
    (hf : fresh) (hm : LinkMove c i fresh l l') (hl : l.ConnectingNotLinked) : l'.ConnectingNotLinked := by
  intro r' hr' hs' hslot
  cases hm with
  | clientStart a now hnone hfresh => cases hr'; exact (hfresh hf).2.2 hslot
  | clientConnected r hr hstate => cases hr'; cases hs'
  | clientTail r tail hr hstate hinc hret => cases hr'; exact hl r hr hs' hslot
  | clientDrop r hr hstate => cases hr'
  | clientRelease r hr => cases hr'
  | listen => exact hl r' hr' hs' hslot
  | serverAccept a hlisten hfresh => exact (hfresh hf).1 r' hr' (Option.some.inj hslot).symm
  | serverTail v rest hv hinc => exact hl r' hr' hs' hslot
  | serverOutput v pending n hv hn => exact hl r' hr' hs' hslot
  | serverClosing v hv => exact hl r' hr' hs' hslot
  | serverRelease v hv => exact hl r' hr' hs' (Links.unlink_slot.mp hslot).1
  | unlink a => exact hl r' hr' hs' (Links.unlink_slot.mp hslot).1
  | setLink a ha => exact absurd ha (hi a)

/-! ## The invariant of the machine -/

theorem State.inv_iff (s : State) : s.inv = true ↔
    s.cfg.legal ∧ s.rx.wf s.cfg.nRx = true ∧ s.tx.wf s.cfg.nTx = true ∧ s.inflight = {} ∧ s.links.RecordsOk s.cfg := by
  simp only [State.inv, Bool.and_eq_true, decide_eq_true_eq, and_assoc]; rfl

theorem Effect.keeps_inv {i : Instr} {fresh : Prop} {s t : State} (h : Effect i fresh s t) (hs : s.inv = true) :
    t.inv = true := by
  obtain ⟨hlegal, hrx, htx, hidle, hrec⟩ := (State.inv_iff s).mp hs
  rw [State.inv_iff, h.cfg]
  exact ⟨hlegal, h.rx hrx, h.tx htx, h.idle hidle, moves_keep (fun _ _ => LinkMove.recordsOk) h.moves hrec⟩

/-- The invariant does not look at the invocations to come, nor at who runs. -/
theorem inv_enterContext_setInbox (a : Agent) (later : List Invocation) (s : State) :
    (enterContext a (s.setInbox later)).inv = s.inv := rfl

theorem inv_leaveContext (s : State) : (leaveContext s).inv = s.inv := rfl

/-- A step that answers is the waiting step or one operation between entering and leaving its context. -/
theorem step_eq_next {s t : State} (h : step s = .next t) :
    t = s ∨ ∃ a later i u, exec i (enterContext a (s.setInbox later)) = .next u ∧ t = leaveContext u := by
  cases hin : s.inbox with
  | nil =>
    rw [step_of_inbox_nil hin] at h
    cases h; exact .inl rfl
  | cons inv later =>
    simp only [step, fetchInvocation_cons hin] at h
    split at h
    · cases h
    · rename_i i _
      obtain ⟨u, hu, hleave⟩ := (andThen_eq_next _ _ _).mp h
      cases hleave
      exact .inr ⟨inv.agent, later, i, u, hu, rfl⟩

/-! ## The obligations -/

/-- Settles O56: a step is one operation between two changes of context, and an operation's `Effect` keeps each part of
the invariant. -/
theorem everyStepKeepsTheInvariant : Obligations.EveryStepKeepsTheInvariant := by
  intro s t hs hstep
  obtain rfl | ⟨a, later, i, u, hexec, rfl⟩ := step_eq_next hstep
  · exact hs
  · rw [inv_leaveContext]
    exact (exec_effect hexec).keeps_inv (inv_enterContext_setInbox a later s ▸ hs)

/-- Settles O57: every move of the links but a direct AL.SET keeps the slot held. -/
theorem everyOperationKeepsTheSlotInvariant : Obligations.EveryOperationKeepsTheSlotInvariant := by
  intro i s t hi hs hexec
  rw [slotInv_iff] at hs ⊢
  exact moves_keep (fun _ _ => LinkMove.slotHeld hi) (exec_effect hexec).moves hs

/-- Settles O58: a handle enters the links by two moves only, and there HANDLE_FRESH keeps it apart from the others. -/
theorem freshHandlesKeepTransportsApart : Obligations.FreshHandlesKeepTransportsApart := by
  intro i s t hi hfresh hdistinct hlinked hexec
  rw [handlesDistinct_iff] at hdistinct ⊢
  rw [connectingNotLinked_iff] at hlinked ⊢
  have hmoves := (exec_effect hexec).moves
  exact ⟨moves_keep (fun _ _ => LinkMove.distinct hfresh) hmoves hdistinct,
    moves_keep (fun _ _ => LinkMove.connectingNotLinked hi hfresh) hmoves hlinked⟩

/-- Settles O55: at reset both queues are empty, nothing is in flight, and there is neither a record nor a link. -/
theorem invariantHoldsAtReset : Obligations.InvariantHoldsAtReset := by
  have hlegal : State.reset.cfg.legal := by decide
  have hrx : State.reset.rx.wf State.reset.cfg.nRx = true := emptyQueue_wf (by decide)
  have htx : State.reset.tx.wf State.reset.cfg.nTx = true := emptyQueue_wf (by decide)
  have hnoRecords : State.reset.links.RecordsOk State.reset.cfg := ⟨rfl, rfl⟩
  have hnoLink : State.reset.links.SlotHeld := fun h hslot => by cases hslot
  exact ⟨(State.inv_iff _).mpr ⟨hlegal, hrx, htx, rfl, hnoRecords⟩, (slotInv_iff _).mpr hnoLink⟩

end Sys2Proof.Machine
end

section
/-! SUPPORT. The decoder on the encoder's bytes and on a selector without a row (spec/30_encoding.md R89 to R91; the
byte form of the operands is the model's, log 2), and the obligations they settle. -/

namespace Sys2Proof

/-! ## Reading an encoded operation -/

/-- An operation with one operand: its parser gives back what the operand's own parser read. -/
theorem parseThen_done {α β : Type} {p : Parse α} {bs rest : List Byte} {a : α} (h : p bs = .ok (a, rest))
    (mk : α → β) : parseThen p (fun a => parseDone (mk a)) bs = .ok (mk a, rest) :=
  parseThen_eq p _ bs a rest h

/-- The operand form is self-delimiting: the operation is read back and exactly its own bytes are taken, whatever bytes
follow (log 24). -/
theorem decodeOp8_encode {i : Instr} (hform : i.format = .op8) (henc : i.encodable = true) (rest : List Byte) :
    decodeOp8 (encode i ++ rest) = .ok (i, rest) := by
  cases i with
  | wireFrame buf => cases hform
  | beEgress | neEgress | clConnected | clConnfail | clEos | clError | slSetup | slEos | slError | slSend | slSent
  | alGet => rfl
  | fqPop q => exact parseThen_done (parseQueue_encode q rest) _
  | fqPush q f =>
    calc decodeOp8 (encode (.fqPush q f) ++ rest)
      _ = parseThen parseQueue (fun q => parseThen parseFrame fun f => parseDone (.fqPush q f))
            (encodeQueue q ++ (encodeFrameOperand f ++ rest)) := by rw [← List.append_assoc]; rfl
      _ = parseThen parseFrame (fun f => parseDone (.fqPush q f)) (encodeFrameOperand f ++ rest) :=
        parseThen_eq _ _ _ _ _ (parseQueue_encode q _)
      _ = .ok (.fqPush q f, rest) := parseThen_done (parseFrame_encode f rest) _
  | fcEncode f => exact parseThen_done (parseFrame_encode f rest) _
  | biIngress p => exact parseThen_done (parsePFrame_encode p rest) _
  | fcDecode bs | slEnqueue bs => exact parseThen_done (parseBytes_encode bs rest) _
  | clRecv bs | slRecv bs => exact parseThen_done (parseBytes1_encode (bne_iff_ne.mp henc) rest) _
  | clInitiate now | clTick now => exact parseThen_done (parseWord32_encode now rest) _
  | clPoll h | slAccept h | slPoll h | alSet h | alClearif h => exact parseThen_done (parseHandle_encode h rest) _

theorem Instr.format_eq_wire {i : Instr} (h : i.format = .wire) : ∃ buf, i = .wireFrame buf := by
  cases i with
  | wireFrame buf => exact ⟨buf, rfl⟩
  | _ => cases h

/-- Settles O1: an OP8 operation is read back with nothing after it, and the wire form is read as it stands. -/
theorem decodeAfterEncodeIsIdentity : Obligations.DecodeAfterEncodeIsIdentity := by
  intro i henc
  cases hform : i.format with
  | op8 =>
    have hread := decodeOp8_encode hform henc []
    rwa [List.append_nil] at hread
  | wire =>
    obtain ⟨buf, rfl⟩ := Instr.format_eq_wire hform
    exact decodeWire_encodable henc

/-! ## Fixed selector words -/

/-- Settles O2: OP8 words by evaluation, `CL.INITIATE` as the encoding of 1000 ms, and X1's frame as a whole candidate. -/
theorem selectorWordsDecodeToTheirOperations : Obligations.SelectorWordsDecodeToTheirOperations := by
  have hinitiate : decode .op8 [0x50, 0x00, 0x00, 0x03, 0xE8] = .ok (.clInitiate 1000, []) :=
    decodeAfterEncodeIsIdentity (.clInitiate 1000) rfl
  have hframe : decode .wire [0x00, 0x00, 0x00, 0x00, 0x7B, 0x02, 0xAA, 0xBB] =
      .ok (.wireFrame [0x00, 0x00, 0x00, 0x00, 0x7B, 0x02, 0xAA, 0xBB], []) :=
    decodeAfterEncodeIsIdentity (.wireFrame _) (by decide)
  exact ⟨rfl, rfl, rfl, rfl, rfl, rfl, rfl, hinitiate, hframe⟩

/-! ## A selector without a row -/

/-- Every other branch of the parser is a row of R90; only the last one is left, and it names the byte. -/
theorem parseOperation_unassigned {sel : Byte}
    (h : sel.toNat ∉ [0x10, 0x11, 0x20, 0x21, 0x30, 0x31, 0x40, 0x50, 0x51, 0x52, 0x53, 0x54, 0x55, 0x56, 0x57, 0x60, 0x61,
      0x62, 0x63, 0x64, 0x65, 0x66, 0x67, 0x68, 0x70, 0x71, 0x72]) :
    parseOperation sel = fun _ => .error (.unassignedSelector sel) := by
  unfold parseOperation
  split
  case h_28 => rfl
  all_goals exact absurd (by simp [*]) h

end Sys2Proof

namespace Sys2Proof.Machine

theorem decodeInvocation_error {inv : Invocation} {e : DecodeError} (h : decode inv.format inv.bytes = .error e) :
    decodeInvocation inv = .error e := by
  simp only [decodeInvocation, h]

/-- Bytes that are no operation refuse the step by the decoder's own reason; nothing runs. -/
theorem step_of_decode_error {s : State} {inv : Invocation} {later : List Invocation} {e : DecodeError}
    (hinbox : s.inbox = inv :: later) (hdecode : decode inv.format inv.bytes = .error e) :
    step s = .refused (.undecodable e) := by
  simp only [step, fetchInvocation_cons hinbox, decodeInvocation_error hdecode]

/-- Settles O3: the parser of the selector has no branch for it, and its error refuses the step. -/
theorem unassignedSelectorIsRefused : Obligations.UnassignedSelectorIsRefused := by
  intro s a sel operands later hsel hinbox
  exact step_of_decode_error hinbox (congrFun (parseOperation_unassigned hsel) operands)

end Sys2Proof.Machine
end

section
/-! SUPPORT. FQ.PUSH and FQ.POP with nothing in between (spec/40_frame_queue.md): kept to the discipline of R108, they are
the atomic transitions of R100 and R101, and these act on the contents as on a list (R109 to R111). -/

namespace Sys2Proof.Machine

/-! ## The ports to the agent they belong to -/

/-- The producer's port is open: nothing in flight that the push may not pre-empt (R108, R218). -/
theorem atProducerPort_open {q : QSel} {s : State} (ha : s.agent = producerOf q) (hpush : s.inflight.push = {})
    (htx : q = .tx → s.inflight = {}) (body : State → Answer) : atProducerPort q s body = body s.fresh := by
  rw [atProducerPort, if_pos ha]
  cases q with
  | rx => rw [if_pos rfl, inInterrupt, if_pos (by rw [ha]; rfl), hpush, if_neg (by decide)]
  | tx => rw [if_neg (by decide), inBackground_of_ready ((ready_iff s).mpr ⟨by rw [ha]; rfl, htx rfl⟩)]

theorem consumerOf_context (q : QSel) : (consumerOf q).context = .background := by
  cases q <;> rfl

theorem atConsumerPort_open {q : QSel} {s : State} (ha : s.agent = consumerOf q) (hidle : s.inflight = {})
    (body : State → Answer) : atConsumerPort q s body = body s.fresh := by
  have hready : s.ready = true := (ready_iff s).mpr ⟨ha ▸ consumerOf_context q, hidle⟩
  rw [atConsumerPort, if_pos ha, inBackground_of_ready hready]

/-! ## The operations as atomic transitions -/

/-- A push in flight is over before anything else runs, so FQ.PUSH is the transition of R100. -/
theorem exec_fqPush_eq {q : QSel} {f : BusFrame} {s : State} (hf : f.inv = true) (ha : s.agent = producerOf q)
    (hpush : s.inflight.push = {}) (htx : q = .tx → s.inflight = {}) :
    exec (.fqPush q f) s =
      .next ((pushFrame q f s.fresh).2.answer (.bool (pushFrame q f s.fresh).1)) := by
  have hmicro : pushMicro q f s.fresh = pushFrame q f s.fresh := pushMicro_eq q f hpush
  show execFqPush q f s = _
  rw [execFqPush, atProducerPort_open ha hpush htx, if_pos hf, hmicro]

theorem exec_fqPop_eq_popMicro {q : QSel} {s : State} (ha : s.agent = consumerOf q) (hidle : s.inflight = {}) :
    exec (.fqPop q) s = andThen (popMicro q s.fresh) fun r => .next (r.2.answer (.frame r.1)) :=
  atConsumerPort_open ha hidle _

/-- C1 to C4 with nothing in between are the transition of R101. -/
theorem popMicro_eq {q : QSel} {s : State} (hpop : s.inflight.pop = {}) (hirq : q = .rx → s.env.irq = []) :
    popMicro q s = .next (popFrame q s) := by
  cases q with
  | rx => exact popMicro_rx hpop (hirq rfl)
  | tx => exact popMicro_tx hpop

theorem exec_fqPop_eq {q : QSel} {s : State} (ha : s.agent = consumerOf q) (hidle : s.inflight = {})
    (hirq : q = .rx → s.env.irq = []) :
    exec (.fqPop q) s = .next ((popFrame q s.fresh).2.answer (.frame (popFrame q s.fresh).1)) := by
  have hpop : s.fresh.inflight.pop = {} := congrArg InFlight.pop hidle
  rw [exec_fqPop_eq_popMicro ha hidle, popMicro_eq hpop hirq, andThen_next]

/-! ## What the transitions do to the contents (R24, R111) -/

theorem pushFrame_contents {q : QSel} {s : State} (f : BusFrame) (hw : (s.queue q).wf (s.cap q) = true) :
    ((pushFrame q f s).2.queue q).contents (s.cap q) =
      (s.queue q).contents (s.cap q) ++ if (pushFrame q f s).1 then [f] else [] := by
  rcases pushFrame_cases q f s with ⟨-, e⟩ | ⟨hroom, e⟩
  · simp [e]
  · simp [e, FrameQueue.contents_pushed f hw hroom]

theorem popFrame_contents {q : QSel} {s : State} (hw : (s.queue q).wf (s.cap q) = true) :
    (popFrame q s).1 = ((s.queue q).contents (s.cap q)).head? ∧
      ((popFrame q s).2.queue q).contents (s.cap q) = ((s.queue q).contents (s.cap q)).tail := by
  obtain ⟨-, hh, ht⟩ := (FrameQueue.wf_iff _ _).mp hw
  rcases popFrame_cases q s with ⟨hempty, e⟩ | ⟨hheld, e⟩
  · simp [e, FrameQueue.contents_empty hh ht hempty]
  · simp [e, FrameQueue.contents_popped hw hheld]

theorem pushFrame_env (q : QSel) (f : BusFrame) (s : State) : (pushFrame q f s).2.env = s.env := by
  rcases pushFrame_cases q f s with ⟨-, e⟩ | ⟨-, e⟩ <;> simp [e]

theorem popFrame_env (q : QSel) (s : State) : (popFrame q s).2.env = s.env := by
  rcases popFrame_cases q s with ⟨-, e⟩ | ⟨-, e⟩ <;> simp [e]

/-! ## Uses of one queue with nothing in between -/

/-- Queue `q` has its form, nothing is in flight, and no interrupt will cut a pop from it. -/
structure QuietQueue (q : QSel) (s : State) : Prop where
  idle : s.inflight = {}
  irq : q = .rx → s.env.irq = []
  wf : (s.queue q).wf (s.cap q) = true

theorem CalmTraffic.cap {s t : State} (h : CalmTraffic s t) (q : QSel) : t.cap q = s.cap q := by
  cases q <;> simp [h.cfg]

theorem CalmTraffic.queue_wf {s t : State} (h : CalmTraffic s t) (q : QSel) (hw : (s.queue q).wf (s.cap q) = true) :
    (t.queue q).wf (t.cap q) = true := by
  rw [h.cap]
  cases q with
  | rx => exact h.rx hw
  | tx => exact h.tx hw

theorem QuietQueue.of_calm {q : QSel} {s t : State} (hs : QuietQueue q s) (h : CalmTraffic s t) (henv : t.env = s.env) :
    QuietQueue q t :=
  ⟨h.inflight.trans hs.idle, fun hq => henv ▸ hs.irq hq, h.queue_wf q hs.wf⟩

/-- A push by its own agent (R111): it completes, and `contents(Q)` grows by its frame exactly if it answers true. -/
theorem execAs_fqPush_spec {q : QSel} {s : State} {f : BusFrame} (hs : QuietQueue q s) (hf : f.inv = true) :
    ∃ t b, execAs (.fqPush q f) s = .next t ∧ t.out.result = .bool b ∧
      (t.queue q).contents (s.cap q) = (s.queue q).contents (s.cap q) ++ (if b then [f] else []) ∧
      QuietQueue q t ∧ t.cap q = s.cap q := by
  let u := (s.setAgent (agentOf (.fqPush q f))).fresh
  have hcalm : CalmTraffic s ((pushFrame q f u).2.answer (.bool (pushFrame q f u).1)) :=
    have enter : CalmTraffic s u := ⟨⟨rfl, rfl, id, id⟩, rfl⟩
    (enter.trans (pushFrame_calm q u hf)).trans ⟨⟨rfl, rfl, id, id⟩, rfl⟩
  refine ⟨_, (pushFrame q f u).1, exec_fqPush_eq hf rfl ?_ fun _ => hs.idle, rfl, ?_,
    hs.of_calm hcalm (pushFrame_env q f u), hcalm.cap q⟩
  · exact congrArg InFlight.push hs.idle
  · simpa [u] using pushFrame_contents (s := u) f (by simpa [u] using hs.wf)

/-- A pop by its own agent (R111): it completes, answers the oldest frame and leaves the others. -/
theorem execAs_fqPop_spec {q : QSel} {s : State} (hs : QuietQueue q s) :
    ∃ t, execAs (.fqPop q) s = .next t ∧ t.out.result = .frame ((s.queue q).contents (s.cap q)).head? ∧
      (t.queue q).contents (s.cap q) = ((s.queue q).contents (s.cap q)).tail ∧
      QuietQueue q t ∧ t.cap q = s.cap q := by
  let u := (s.setAgent (agentOf (.fqPop q))).fresh
  have hcalm : CalmTraffic s ((popFrame q u).2.answer (.frame (popFrame q u).1)) :=
    have enter : CalmTraffic s u := ⟨⟨rfl, rfl, id, id⟩, rfl⟩
    (enter.trans (popFrame_calm q u)).trans ⟨⟨rfl, rfl, id, id⟩, rfl⟩
  obtain ⟨hanswer, hcontents⟩ := popFrame_contents (s := u) (q := q) (by simpa [u] using hs.wf)
  refine ⟨_, exec_fqPop_eq rfl hs.idle hs.irq, ?_, ?_, hs.of_calm hcalm (popFrame_env q u), hcalm.cap q⟩
  · simpa [u] using hanswer
  · simpa [u] using hcontents

/-- One use of a queue: what was held, then what it accepted, is what it gave out, then what is held (R109). -/
theorem execAs_queueOp_spec {q : QSel} {s : State} (o : QueueOp) (hs : QuietQueue q s)
    (hf : ∀ f, o = .push f → f.inv = true) :
    ∃ t, execAs (o.instr q) s = .next t ∧ QuietQueue q t ∧ t.cap q = s.cap q ∧
      (s.queue q).contents (s.cap q) ++ acceptedBy o t.out.result =
        poppedBy o t.out.result ++ (t.queue q).contents (t.cap q) := by
  cases o with
  | push f =>
    obtain ⟨t, b, hexec, hresult, hcontents, ht, hcap⟩ := execAs_fqPush_spec hs (hf f rfl)
    refine ⟨t, hexec, ht, hcap, ?_⟩
    rw [hcap, hcontents, hresult]
    cases b <;> rfl
  | pop =>
    obtain ⟨t, hexec, hresult, hcontents, ht, hcap⟩ := execAs_fqPop_spec hs
    refine ⟨t, hexec, ht, hcap, ?_⟩
    rw [hcap, hcontents, hresult]
    cases (s.queue q).contents (s.cap q) <;> simp [acceptedBy, poppedBy]

/-- R109 from any contents: a run of uses keeps the order of the frames. -/
theorem queueRun_spec {q : QSel} {s : State} (ops : List QueueOp) (hs : QuietQueue q s)
    (hf : ∀ f, QueueOp.push f ∈ ops → f.inv = true) :
    ∃ accepted popped t, queueRun q ops s = some (accepted, popped, t) ∧
      (s.queue q).contents (s.cap q) ++ accepted = popped ++ (t.queue q).contents (t.cap q) ∧ t.cap q = s.cap q := by
  induction ops generalizing s with
  | nil => exact ⟨[], [], s, rfl, by simp, rfl⟩
  | cons o ops ih =>
    obtain ⟨t, hexec, ht, hcap, hfirst⟩ := execAs_queueOp_spec o hs fun f hfo => hf f (by simp [hfo])
    obtain ⟨accepted, popped, u, hrun, hrest, hcap'⟩ := ih ht fun f hfm => hf f (List.mem_cons_of_mem _ hfm)
    refine ⟨acceptedBy o t.out.result ++ accepted, poppedBy o t.out.result ++ popped, u, ?_, ?_, hcap'.trans hcap⟩
    · rw [queueRun, hexec]; simp only [hrun]
    · rw [← List.append_assoc, hfirst, List.append_assoc, hrest, List.append_assoc]

/-! ## The obligations -/

/-- Settles O5: the two cases of the atomic push, with the test for full written out. -/
theorem pushInsertsAtHeadUnlessFull : Obligations.PushInsertsAtHeadUnlessFull := by
  intro q f s hf ha hpush htx
  rw [exec_fqPush_eq hf ha hpush htx]
  rcases pushFrame_cases q f s.fresh with ⟨hfull, e⟩ | ⟨hroom, e⟩ <;> rw [e]
  · have hfull' : ((s.queue q).head + 1) % s.cap q = (s.queue q).tail := by
      simpa [FrameQueue.isFull, nextIndex] using hfull
    rw [if_pos hfull']; rfl
  · have hroom' : ((s.queue q).head + 1) % s.cap q ≠ (s.queue q).tail := by
      simpa [FrameQueue.isFull, nextIndex] using hroom
    rw [if_neg hroom']; cases q <;> rfl

/-- Settles O6: the two cases of the atomic pop, with the test for empty written out. -/
theorem popTakesFromTailUnlessEmpty : Obligations.PopTakesFromTailUnlessEmpty := by
  intro q s ha hidle hirq
  rw [exec_fqPop_eq ha hidle hirq]
  rcases popFrame_cases q s.fresh with ⟨hempty, e⟩ | ⟨hheld, e⟩ <;> rw [e]
  · have hempty' : (s.queue q).head = (s.queue q).tail := by simpa [FrameQueue.isEmpty] using hempty
    rw [if_pos hempty']; rfl
  · have hheld' : (s.queue q).head ≠ (s.queue q).tail := by simpa [FrameQueue.isEmpty] using hheld
    rw [if_neg hheld']; cases q <;> rfl

/-- Settles O7: the queue is full exactly when it holds N-1 frames, and a push that succeeds adds one. -/
theorem pushFailsExactlyAtFullCount : Obligations.PushFailsExactlyAtFullCount := by
  intro q f s hf ha hidle hw
  obtain ⟨-, hh, ht⟩ := (FrameQueue.wf_iff _ _).mp hw
  have hiff := FrameQueue.isFull_iff_count hh ht
  refine ⟨_, exec_fqPush_eq hf ha (congrArg InFlight.push hidle) fun _ => hidle, fun hN => ?_, fun hlt => ?_⟩
  · have hfull : (s.fresh.queue q).isFull (s.fresh.cap q) = true := by simpa using hiff.mpr hN
    rw [pushFrame, if_pos hfull]
    exact ⟨rfl, by simp⟩
  · have hroom : (s.queue q).isFull (s.cap q) = false := Bool.eq_false_iff.mpr fun h => hlt.ne (hiff.mp h)
    rcases pushFrame_cases q f s.fresh with ⟨hfull, -⟩ | ⟨-, e⟩
    · rw [State.fresh_queue, State.fresh_cap, hroom] at hfull; cases hfull
    · rw [e]
      exact ⟨rfl, by simpa using FrameQueue.count_pushed f hh ht hroom⟩

/-- Settles O8: with nothing in between, the operations are the atomic transitions, and these act on the contents as on
a list. -/
theorem pushAppendsAndPopRemovesOldest : Obligations.PushAppendsAndPopRemovesOldest := by
  intro q s hidle hirq hw
  have hs : QuietQueue q s := ⟨hidle, hirq, hw⟩
  obtain ⟨-, hh, -⟩ := (FrameQueue.wf_iff _ _).mp hw
  refine ⟨FrameQueue.count_lt (by omega), fun f hf => ?_, ?_⟩
  · obtain ⟨t, b, hexec, hresult, hcontents, -, -⟩ := execAs_fqPush_spec hs hf
    exact ⟨t, b, hexec, hresult, hcontents⟩
  · obtain ⟨t, hexec, hresult, hcontents, -, -⟩ := execAs_fqPop_spec hs
    exact ⟨t, hexec, hresult, hcontents⟩

/-- Settles O9, by induction on the uses, from any contents at the start. -/
theorem queueIsFirstInFirstOut : Obligations.QueueIsFirstInFirstOut := by
  intro q ops s hinv hempty hirq hf
  obtain ⟨-, hrx, htx, hidle, -⟩ := (State.inv_iff s).mp hinv
  have hs : QuietQueue q s := ⟨hidle, fun _ => hirq, by cases q <;> assumption⟩
  obtain ⟨accepted, popped, t, hrun, horder, hcap⟩ := queueRun_spec ops hs hf
  rw [hempty, List.nil_append, hcap] at horder
  exact ⟨accepted, popped, t, hrun, horder⟩

end Sys2Proof.Machine
end

section
/-! SUPPORT. A pop from FQ(rx) cut by interrupts at C1|C2, C2|C3 and C3|C4 (spec/40_frame_queue.md R105 to R107): which
of the operations takes effect first. -/

namespace Sys2Proof.Machine

/-! ## The interrupts of several boundaries -/

/-- The interrupts that the script places at the next `k` boundaries, one after another (R143, log 8). -/
def interruptsOf (k : Nat) (s : State) : Answer :=
  takeInterrupts (s.env.irq.take k).flatten (s.setEnv { s.env with irq := s.env.irq.drop k })

theorem preempt_eq_interruptsOf (s : State) : preempt s = interruptsOf 1 s := by
  unfold interruptsOf
  cases hi : s.env.irq with
  | nil => rw [preempt_none hi]; exact congrArg (fun l => Host.Outcome.next (s.setEnv { s.env with irq := l })) hi
  | cons ps rest => rw [preempt_some hi]; simp

/-- A run of interrupts consumes no answers of the environment. -/
theorem takeInterrupts_env {ps : List PFrame} {s t : State} (h : takeInterrupts ps s = .next t) : t.env = s.env := by
  have hset : takeInterrupts ps s = andThen (takeInterrupts ps s) fun t => .next (t.setEnv s.env) :=
    takeInterrupts_setEnv ps s.env s
  rw [h, andThen_next] at hset
  have heq : t = t.setEnv s.env := Host.Outcome.next.inj hset
  exact (congrArg State.env heq :)

/-- The boundary after the first `k` is the next entry of the script. -/
theorem interruptsOf_succ {k : Nat} {s t : State} (h : interruptsOf k s = .next t) :
    interruptsOf (k + 1) s = preempt t := by
  have henv : t.env = { s.env with irq := s.env.irq.drop k } := takeInterrupts_env h
  have hmore : ∀ v, takeInterrupts (s.env.irq.take k).flatten (s.setEnv v) = .next (t.setEnv v) := fun v => by
    have := takeInterrupts_setEnv (s.env.irq.take k).flatten v (s.setEnv { s.env with irq := s.env.irq.drop k })
    rwa [show takeInterrupts _ _ = .next t from h, andThen_next] at this
  rw [preempt_eq_interruptsOf, interruptsOf, interruptsOf, flatten_take_add, takeInterrupts_append, hmore, andThen_next,
    henv, List.drop_drop]

/-- What interrupts keep of the state a pop under way relies on: its registers, the tail, and the frames held. -/
structure KeepsHeld (s t : State) : Prop where
  cfg : t.cfg = s.cfg
  inflight : t.inflight = s.inflight
  wf : t.rx.wf s.cfg.nRx = true
  tail : t.rx.tail = s.rx.tail
  held : s.rx.contents s.cfg.nRx <+: t.rx.contents s.cfg.nRx

theorem interruptsOf_spec (k : Nat) {s : State} (hl : s.irqLegal = true) (hw : s.rx.wf s.cfg.nRx = true) :
    ∃ t, interruptsOf k s = .next t ∧ KeepsHeld s t := by
  have hlegal : ((s.env.irq.take k).flatten).all PFrame.legal = true := by
    simp only [State.irqLegal, List.all_eq_true, List.mem_flatten] at hl ⊢
    rintro p ⟨ps, hps, hp⟩
    exact hl ps (List.mem_of_mem_take hps) p hp
  obtain ⟨Q, fs, d, hrun, hwf, htail, hcontents, -⟩ :=
    takeInterrupts_spec _ (s.setEnv { s.env with irq := s.env.irq.drop k }) hlegal hw
  exact ⟨_, hrun, rfl, rfl, hwf, htail, ⟨fs, hcontents.symm⟩⟩

/-- The oldest frame stays where it is while frames are only added behind it (R106). -/
theorem KeepsHeld.oldest {s t : State} (h : KeepsHeld s t) (hw : s.rx.wf s.cfg.nRx = true) (hne : s.rx.isEmpty = false) :
    t.rx.isEmpty = false ∧ Memory.read t.rx.slot s.rx.tail = Memory.read s.rx.slot s.rx.tail := by
  obtain ⟨fs, hfs⟩ := h.held
  rw [FrameQueue.contents_popped hw hne, List.cons_append] at hfs
  have hne' : t.rx.isEmpty = false := FrameQueue.isEmpty_false_of_contents h.wf (by simp [← hfs])
  rw [FrameQueue.contents_popped h.wf hne', h.tail] at hfs
  exact ⟨hne', (List.cons.inj hfs).1.symm⟩

/-- A boundary inside a pop leaves the pop's registers alone (R219). -/
theorem preempt_setPop (r : PopRegs) (s : State) :
    preempt (s.setPop r) = andThen (preempt s) fun t => .next (t.setPop r) := by
  rw [preempt_eq_interruptsOf, preempt_eq_interruptsOf]
  exact takeInterrupts_setPop _ r (s.setEnv { s.env with irq := s.env.irq.drop 1 })

/-- A pop that finds the queue empty in C1 is a failed pop and then the interrupts of C1|C2 (R106). -/
theorem popMicro_rx_of_empty {s t : State} (hpop : s.inflight.pop = {}) (he : s.rx.isEmpty = true)
    (h : interruptsOf 1 s = .next t) (ht : t.inflight = s.inflight) : popMicro .rx s = .next (none, t) := by
  let r : PopRegs := { busy := true, t := s.rx.tail, h := s.rx.head }
  have hb : preempt (popC1 .rx s) = .next (t.setPop r) := by
    rw [popC1, preempt_setPop, preempt_eq_interruptsOf, h]; rfl
  have hsee : popSeesEmpty (t.setPop r) = true := he
  have hend : popEnd t = t := popEnd_eq (ht ▸ hpop)
  rw [popMicro, popBoundary, hb, andThen_next, if_pos hsee]
  exact congrArg (fun u => Host.Outcome.next (none, u)) hend

/-- A pop that finds a frame in C1, as its micro-steps leave it: the frame is read after C2|C3, and the new tail, reckoned
from the copy made in C1, is published after C3|C4 (R105). -/
theorem popMicro_rx_of_boundaries {s s1 s2 s3 : State} (hne : s.rx.isEmpty = false) (h1 : preempt s = .next s1)
    (h2 : preempt s1 = .next s2) (h3 : preempt s2 = .next s3) :
    popMicro .rx s = .next (some (Memory.read s2.rx.slot s.rx.tail),
      popEnd (s3.setQueue .rx { s3.rx with tail := nextIndex s3.cfg.nRx s.rx.tail })) := by
  let r : PopRegs := { busy := true, t := s.rx.tail, h := s.rx.head }
  let r' : PopRegs := { r with f := Memory.read s2.rx.slot s.rx.tail }
  have hb1 : preempt (popC1 .rx s) = .next (s1.setPop r) := by rw [popC1, preempt_setPop, h1]; rfl
  have hb2 : preempt (s1.setPop r) = .next (s2.setPop r) := by rw [preempt_setPop, h2]; rfl
  have hb3 : preempt (popC3 .rx (s2.setPop r)) = .next (s3.setPop r') := by
    show preempt (s2.setPop r') = _
    rw [preempt_setPop, h3]; rfl
  have hsee : popSeesEmpty (s1.setPop r) = false := hne
  simp only [popMicro, popBoundary, hb1, hb2, hb3, hsee, andThen_next, Bool.false_eq_true, if_false]
  rfl

/-- A pop that finds a frame in C1 is the interrupts of all three boundaries and then the atomic pop: it takes effect at
C4 (R106). -/
theorem popMicro_rx_of_held {s : State} (hpop : s.inflight.pop = {}) (hl : s.irqLegal = true)
    (hw : s.rx.wf s.cfg.nRx = true) (hne : s.rx.isEmpty = false) :
    ∃ t, interruptsOf 3 s = .next t ∧ t.rx.isEmpty = false ∧ popMicro .rx s = .next (popFrame .rx t) := by
  obtain ⟨s1, h1, -⟩ := interruptsOf_spec 1 hl hw
  obtain ⟨s2, h2, k2⟩ := interruptsOf_spec 2 hl hw
  obtain ⟨s3, h3, k3⟩ := interruptsOf_spec 3 hl hw
  obtain ⟨-, hread2⟩ := k2.oldest hw hne
  obtain ⟨hne3, hread3⟩ := k3.oldest hw hne
  have hmicro := popMicro_rx_of_boundaries hne ((preempt_eq_interruptsOf s).trans h1)
    ((interruptsOf_succ h1).symm.trans h2) ((interruptsOf_succ h2).symm.trans h3)
  refine ⟨s3, h3, hne3, ?_⟩
  rw [hmicro, hread2, ← hread3, ← k3.tail, popEnd_eq (k3.inflight ▸ hpop), popFrame, State.queue_rx, hne3]
  rfl

/-! ## The obligation -/

/-- Settles O10: the copy of `head` that C1 reads decides which of the two it is; interrupts add frames behind the oldest
one and leave the pop's registers alone. -/
theorem interruptedPopLinearises : Obligations.InterruptedPopLinearises := by
  intro s hinv ha hl
  obtain ⟨-, hw, -, hidle, -⟩ := (State.inv_iff s).mp hinv
  have hpop : s.fresh.inflight.pop = {} := congrArg InFlight.pop hidle
  rw [exec_fqPop_eq_popMicro (q := .rx) ha hidle]
  split
  · rename_i hempty
    obtain ⟨t, hrun, hkeeps⟩ := interruptsOf_spec 1 (s := s.fresh) hl hw
    have he : s.fresh.rx.isEmpty = true := beq_iff_eq.mpr hempty
    refine ⟨t, hrun, ?_⟩
    rw [popMicro_rx_of_empty hpop he hrun hkeeps.inflight]; rfl
  · rename_i hheld
    have hne : s.fresh.rx.isEmpty = false := beq_eq_false_iff_ne.mpr hheld
    obtain ⟨t, hrun, hne', hmicro⟩ := popMicro_rx_of_held hpop hl hw hne
    refine ⟨t, hrun, ?_⟩
    rw [hmicro, popFrame, State.queue_rx, hne']; rfl

end Sys2Proof.Machine
end

section
/-! SUPPORT. What is refused (spec/40_frame_queue.md R108, spec/60_exceptions.md R216 to R218): every operation is its body
under the guard of a context, behind the port of a queue or not. -/

namespace Sys2Proof.Machine

/-! ## The guards -/

theorem inBackground_in_interrupt {s : State} (h : s.agent.context = .interrupt) (body : State → Answer) :
    inBackground s body = .refused .contextBreach := if_pos h

theorem inBackground_of_busy {s : State} (h : s.agent.context = .background) (hbusy : s.inflight.busy = true)
    (body : State → Answer) : inBackground s body = .refused .overlap := by
  rw [inBackground, if_neg (by rw [h]; decide), if_pos hbusy]

theorem inInterrupt_of_busy {s : State} (h : s.agent.context = .interrupt) (hbusy : s.inflight.push.busy = true)
    (body : State → Answer) : inInterrupt s body = .refused .overlap := by
  rw [inInterrupt, if_pos h, if_pos hbusy]

/-- BusIngress alone runs in interrupt context (R216). -/
theorem context_eq_interrupt_iff (a : Agent) : a.context = .interrupt ↔ a = .busIngress := by
  cases a <;> decide

/-! ## Each operation under its guard -/

/-- All but the operations at the two ports of a queue and `BI.INGRESS` are background operations whoever invokes them. -/
theorem exec_eq_inBackground_of_ne {i : Instr} (hbi : ∀ p, i ≠ .biIngress p) (hpush : ∀ q f, i ≠ .fqPush q f)
    (hpop : ∀ q, i ≠ .fqPop q) (s : State) : ∃ body, exec i s = inBackground s body := by
  cases i with
  | fqPush q f => exact absurd rfl (hpush q f)
  | fqPop q => exact absurd rfl (hpop q)
  | biIngress p => exact absurd rfl (hbi p)
  | _ => unfold exec; exact ⟨_, rfl⟩

/-- An operation of background context, invoked by its own agent, is its body under the guard of that context. -/
theorem exec_eq_inBackground {i : Instr} {s : State} (ha : s.agent = agentOf i)
    (hc : (agentOf i).context = .background) : ∃ body, exec i s = inBackground s body := by
  cases i with
  | fqPush q f =>
    cases q with
    | rx => cases hc
    | tx => exact ⟨_, (if_pos ha).trans (if_neg (by decide))⟩
  | fqPop q => exact ⟨_, if_pos ha⟩
  | biIngress p => cases hc
  | _ => apply exec_eq_inBackground_of_ne <;> simp

/-- Of interrupt context there are two: `BI.INGRESS` and a push to FQ(rx). -/
theorem exec_eq_inInterrupt {i : Instr} {s : State} (ha : s.agent = agentOf i)
    (hc : (agentOf i).context = .interrupt) : ∃ body, exec i s = inInterrupt s body := by
  cases i with
  | fqPush q f =>
    cases q with
    | rx => exact ⟨_, (if_pos ha).trans (if_pos rfl)⟩
    | tx => cases hc
  | fqPop q => cases (consumerOf_context q).symm.trans hc
  | biIngress p => exact ⟨_, rfl⟩
  | _ => cases hc

/-! ## The obligations -/

/-- Settles O11: the ports ask for their agent first, and every other operation is guarded by its context. -/
theorem disciplineBreachesAreRefused : Obligations.DisciplineBreachesAreRefused := by
  refine ⟨fun q f s ha => if_neg ha, fun q s ha => if_neg ha, fun p s ha => ?_, fun i s ha hbi hpush hpop => ?_⟩
  · exact if_neg ((context_eq_interrupt_iff _).not.mpr ha)
  · have hc : s.agent.context = .interrupt := (context_eq_interrupt_iff _).mpr ha
    obtain ⟨body, e⟩ := exec_eq_inBackground_of_ne hbi hpush hpop s
    rw [e, inBackground_in_interrupt hc]

/-- Settles O12: each operation runs under the guard of its own context, which looks at what is in flight. -/
theorem overlappingOperationsAreRefused : Obligations.OverlappingOperationsAreRefused := by
  constructor
  · intro i s ha hc hbusy
    obtain ⟨body, e⟩ := exec_eq_inBackground ha hc
    rw [e, inBackground_of_busy (ha ▸ hc) hbusy]
  · intro i s ha hc hbusy
    obtain ⟨body, e⟩ := exec_eq_inInterrupt ha hc
    rw [e, inInterrupt_of_busy (ha ▸ hc) hbusy]

end Sys2Proof.Machine
end

section
/-! SUPPORT. The frame codec (spec/41_frame_codec.md R120 to R130): each of its three operations answers what the functions
on bytes give; one candidate, read byte by byte; encoder and decoder as inverses; a scan cut into chunks. -/

namespace Sys2Proof.Machine

/-! ## The operations on a ready state -/

theorem exec_fcEncode_eq {s : State} (f : BusFrame) (hs : s.ready = true) :
    exec (.fcEncode f) s = if f.inv then .next { s with out := { result := .bytes (encodeFrame f) } }
      else .refused .frameInvariant := by
  rw [exec, execFcEncode, inBackground_of_ready hs]
  rfl

theorem exec_fcDecode_eq {s : State} (buf : List Byte) (hs : s.ready = true) :
    exec (.fcDecode buf) s = .next
      { s with out := { result := .decoded (decodeBuffer buf).1 (decodeBuffer buf).2, incomplete := true } } := by
  rw [exec, execFcDecode, inBackground_of_ready hs, scanIncomplete_eq]
  rfl

theorem exec_wireFrame_eq {s : State} (buf : List Byte) (hs : s.ready = true) :
    exec (.wireFrame buf) s = .next
      { s with out := { result := .candidate (decodeOne buf 0), incomplete := (decodeOne buf 0).isNone } } := by
  rw [exec, execWireFrame, inBackground_of_ready hs]
  rfl

/-! ## The bytes of the encoder -/

theorem flagsByte_eq_ofNat (e r : Bool) : flagsByte e r = BitVec.ofNat 8 (2 * r.toNat + e.toNat) := by
  cases e <;> cases r <;> rfl

theorem idByte_eq_ofNat (v : BitVec 32) (k : Nat) : idByte v k = BitVec.ofNat 8 (v.toNat / 2 ^ k) :=
  BitVec.eq_of_toNat_eq (by rw [idByte_toNat, BitVec.toNat_ofNat])

/-- In the encoder's domain the payload is written whole. -/
theorem encodeFrame_of_inv {f : BusFrame} (hf : f.inv = true) :
    encodeFrame f = [flagsByte f.ext f.rtr, idByte f.id 24, idByte f.id 16, idByte f.id 8, idByte f.id 0,
      f.dlc.setWidth 8] ++ f.data := by
  obtain ⟨_, hlen⟩ := (BusFrame_inv_iff f).mp hf
  rw [encodeFrame, List.take_of_length_le hlen.le]

theorem encodeFrame_length {f : BusFrame} (hf : f.inv = true) : (encodeFrame f).length = 6 + f.dlc.toNat := by
  obtain ⟨_, hlen⟩ := (BusFrame_inv_iff f).mp hf
  rw [encodeFrame_of_inv hf, List.length_append, hlen]
  rfl

/-! ## The clamped dlc (R84, R126) -/

theorem clampDlc_of_le {b : Byte} (h : b.toNat ≤ 8) : clampDlc b = b.toNat := Nat.min_eq_left h

theorem clampDlc_of_ge {b : Byte} (h : 8 ≤ b.toNat) : clampDlc b = 8 := Nat.min_eq_right h

theorem clampDlc_dlc_toNat (b : Byte) : (BitVec.ofNat 4 (clampDlc b)).toNat = clampDlc b := by
  have := clampDlc_le b
  rw [BitVec.toNat_ofNat]
  omega

/-- The encoder gives a declared dlc byte back exactly when the decoder has not clamped it. -/
theorem dlcByte_clampDlc (b : Byte) : (BitVec.ofNat 4 (clampDlc b)).setWidth 8 = b ↔ b.toNat ≤ 8 := by
  have hc := clampDlc_le b
  rw [← BitVec.toNat_inj, BitVec.toNat_setWidth, clampDlc_dlc_toNat, Nat.mod_eq_of_lt (by omega)]
  constructor
  · intro h
    omega
  · exact clampDlc_of_le

/-! ## One candidate -/

/-- The frame that `decode_one` reads at the start of a buffer that is long enough (R122). -/
def candidateFrame (buf : List Byte) : BusFrame where
  ext := (bufByte buf 0).getLsbD 0
  rtr := (bufByte buf 0).getLsbD 1
  id := assembleId (bufByte buf 1) (bufByte buf 2) (bufByte buf 3) (bufByte buf 4)
  dlc := BitVec.ofNat 4 (clampDlc (bufByte buf 5))
  data := (buf.drop 6).take (clampDlc (bufByte buf 5))

theorem decodeOne_of_long {buf : List Byte} (h : 6 + clampDlc (bufByte buf 5) ≤ buf.length) :
    decodeOne buf 0 = some (candidateFrame buf, 6 + clampDlc (bufByte buf 5)) := by
  simp only [decodeOne, headerLen, Nat.zero_add, Nat.sub_zero]
  rw [if_neg (by omega), if_neg (by omega)]
  rfl

theorem decodeOne_of_short {buf : List Byte} (h : buf.length < 6 + clampDlc (bufByte buf 5)) :
    decodeOne buf 0 = none :=
  (decodeOne_none_iff buf).mpr (.inr h)

/-- The candidate at the start of a buffer, in one equation. -/
theorem decodeOne_eq (buf : List Byte) : decodeOne buf 0 =
    if 6 + clampDlc (bufByte buf 5) ≤ buf.length then some (candidateFrame buf, 6 + clampDlc (bufByte buf 5))
    else none := by
  split
  · next h => exact decodeOne_of_long h
  · next h => exact decodeOne_of_short (by omega)

theorem decodeOne_eq_some_iff {buf : List Byte} {f : BusFrame} {n : Nat} : decodeOne buf 0 = some (f, n) ↔
    6 + clampDlc (bufByte buf 5) ≤ buf.length ∧ candidateFrame buf = f ∧ 6 + clampDlc (bufByte buf 5) = n := by
  rw [decodeOne_eq]
  split <;> simp [*]

/-! ## Encoder and decoder (R121, R128) -/

/-- A frame of the encoder's domain is read back from its encoding, which is one whole candidate. -/
theorem decodeOne_encodeFrame {f : BusFrame} (hf : f.inv = true) :
    decodeOne (encodeFrame f) 0 = some (f, 6 + f.dlc.toNat) := by
  obtain ⟨hdlc, hlen⟩ := (BusFrame_inv_iff f).mp hf
  have hbyte : (f.dlc.setWidth 8).toNat = f.dlc.toNat := by
    rw [BitVec.toNat_setWidth]
    omega
  have hclamp : clampDlc (bufByte (encodeFrame f) 5) = f.dlc.toNat :=
    (clampDlc_of_le (hbyte.trans_le hdlc)).trans hbyte
  have hframe : candidateFrame (encodeFrame f) = f := by
    obtain ⟨hext, hrtr⟩ : (bufByte (encodeFrame f) 0).getLsbD 0 = f.ext ∧
        (bufByte (encodeFrame f) 0).getLsbD 1 = f.rtr :=
      flagsByte_bits f.ext f.rtr
    have hid : assembleId (bufByte (encodeFrame f) 1) (bufByte (encodeFrame f) 2) (bufByte (encodeFrame f) 3)
        (bufByte (encodeFrame f) 4) = f.id := assembleId_idByte f.id
    have hdata : ((encodeFrame f).drop 6).take f.dlc.toNat = f.data := by
      rw [encodeFrame_of_inv hf, ← hlen]
      exact List.take_length
    rw [candidateFrame, hext, hrtr, hid, hclamp, hdata, BitVec.ofNat_toNat, BitVec.setWidth_eq]
  exact decodeOne_eq_some_iff.mpr ⟨by rw [hclamp, encodeFrame_length hf], hframe, by rw [hclamp]⟩

theorem encodeFrame_injective {f g : BusFrame} (hf : f.inv = true) (hg : g.inv = true)
    (h : encodeFrame f = encodeFrame g) : f = g := by
  have := decodeOne_encodeFrame hf
  rw [h, decodeOne_encodeFrame hg] at this
  cases this
  rfl

theorem decodeBuffer_encodeFrame {f : BusFrame} (hf : f.inv = true) :
    decodeBuffer (encodeFrame f) = ([f], 6 + f.dlc.toNat) := by
  have hrest : (encodeFrame f).drop (6 + f.dlc.toNat) = [] :=
    List.drop_of_length_le (encodeFrame_length hf).le
  rw [decodeBuffer_some (decodeOne_encodeFrame hf), hrest, decodeBuffer_none (buf := []) rfl]
  rfl

/-- A header with at least its six bytes, byte by byte. -/
theorem exists_header {w : List Byte} (h : 6 ≤ w.length) :
    ∃ b0 b1 b2 b3 b4 b5 rest, w = b0 :: b1 :: b2 :: b3 :: b4 :: b5 :: rest := by
  match w, h with
  | b0 :: b1 :: b2 :: b3 :: b4 :: b5 :: rest, _ => exact ⟨b0, b1, b2, b3, b4, b5, rest, rfl⟩

/-- The identifier and the payload always come back from a decoded candidate, so only the flags byte and the dlc byte
can differ. -/
theorem encodeFrame_candidateFrame (b0 b1 b2 b3 b4 b5 : Byte) (rest : List Byte) :
    encodeFrame (candidateFrame (b0 :: b1 :: b2 :: b3 :: b4 :: b5 :: rest)) =
      [flagsByte (b0.getLsbD 0) (b0.getLsbD 1), b1, b2, b3, b4, (BitVec.ofNat 4 (clampDlc b5)).setWidth 8]
        ++ rest.take (clampDlc b5) := by
  obtain ⟨h1, h2, h3, h4⟩ := idByte_assembleId b1 b2 b3 b4
  simp only [encodeFrame, candidateFrame, bufByte, List.getD_cons_zero, List.getD_cons_succ, List.drop_succ_cons,
    List.drop_zero, clampDlc_dlc_toNat, List.take_take, min_self, h1, h2, h3, h4]

theorem encodeFrame_eq_take_iff {w : List Byte} {f : BusFrame} {n : Nat} (h : decodeOne w 0 = some (f, n)) :
    encodeFrame f = w.take n ↔ (w.getD 0 0).toNat < 4 ∧ (w.getD 5 0).toNat ≤ 8 := by
  obtain ⟨hlen, rfl, rfl⟩ := decodeOne_eq_some_iff.mp h
  obtain ⟨b0, b1, b2, b3, b4, b5, rest, rfl⟩ := exists_header (w := w) (by omega)
  have htake : (b0 :: b1 :: b2 :: b3 :: b4 :: b5 :: rest).take (6 + clampDlc b5) =
      [b0, b1, b2, b3, b4, b5] ++ rest.take (clampDlc b5) :=
    List.take_length_add_append (l₁ := [b0, b1, b2, b3, b4, b5]) (clampDlc b5)
  rw [encodeFrame_candidateFrame, ← flagsByte_of_small, ← dlcByte_clampDlc]
  simp [bufByte, htake]

/-! ## The clamp in the scan (R126) -/

/-- A candidate shows its declared dlc only through the clamped value. -/
theorem decodeOne_set_dlc {buf : List Byte} {b : Byte} (h : clampDlc b = clampDlc (bufByte buf 5)) :
    decodeOne (buf.set 5 b) 0 = decodeOne buf 0 := by
  by_cases h6 : 6 ≤ buf.length
  · obtain ⟨b0, b1, b2, b3, b4, b5, rest, rfl⟩ := exists_header h6
    have hb : clampDlc b = clampDlc b5 := h
    simp [decodeOne_eq, candidateFrame, bufByte, hb]
  · rw [List.set_eq_of_length_le (by omega)]

theorem decodeBuffer_set_dlc {buf : List Byte} {b : Byte} (h : clampDlc b = clampDlc (bufByte buf 5)) :
    decodeBuffer (buf.set 5 b) = decodeBuffer buf := by
  have hset := decodeOne_set_dlc h
  cases hd : decodeOne buf 0 with
  | none => rw [decodeBuffer_none hd, decodeBuffer_none (hset.trans hd)]
  | some x =>
    obtain ⟨f, n⟩ := x
    obtain ⟨_, _, h6, _⟩ := decodeOne_some hd
    rw [decodeBuffer_some hd, decodeBuffer_some (hset.trans hd), List.drop_set_of_lt (by omega)]

/-! ## A stream cut into chunks (R130) -/

/-- A scan of a longer stream is the scan of its beginning, then the scan of what that left and the rest. -/
theorem Scan_append {buf more : List Byte} {off c c' : Nat} {fs fs' : List BusFrame} (h : Scan buf off fs c)
    (hoff : off ≤ buf.length) (h' : Scan (buf.drop c ++ more) 0 fs' c') :
    Scan (buf ++ more) off (fs ++ fs') (c + c') := by
  induction h with
  | stop off hd =>
    rw [← List.drop_append_of_le_length hoff] at h'
    exact Scan_drop off h'
  | more off n c f fs hd _ ih =>
    obtain ⟨_, _, _, _, hl, _⟩ := decodeOne_some hd
    refine .more off n _ f _ ?_ (ih hl h')
    rw [decodeOne_drop] at hd
    rw [decodeOne_drop, List.drop_append_of_le_length hoff]
    exact decodeOne_append hd more

theorem decodeBuffer_append (buf more : List Byte) : decodeBuffer (buf ++ more) =
    ((decodeBuffer buf).1 ++ (decodeBuffer (undecodedTail buf ++ more)).1,
      (decodeBuffer buf).2 + (decodeBuffer (undecodedTail buf ++ more)).2) :=
  decodeBuffer_of_scan (Scan_append (decodeBuffer_scan buf) (Nat.zero_le _) (decodeBuffer_scan _))

theorem undecodedTail_append (buf more : List Byte) :
    undecodedTail (buf ++ more) = undecodedTail (undecodedTail buf ++ more) := by
  obtain ⟨hle, _, _⟩ := decodeBuffer_spec buf
  simp only [undecodedTail, decodeBuffer_append buf more]
  rw [← List.drop_drop, List.drop_append_of_le_length hle]

theorem undecodedTail_of_none {buf : List Byte} (h : decodeOne buf 0 = none) : undecodedTail buf = buf := by
  rw [undecodedTail, decodeBuffer_none h, List.drop_zero]

/-- R130 with an incomplete candidate already held, which is what every chunk leaves. -/
theorem decodeChunks_of_none {tail : List Byte} (chunks : List (List Byte)) (h : decodeOne tail 0 = none) :
    decodeChunks tail chunks = ((decodeBuffer (tail ++ chunks.flatten)).1, undecodedTail (tail ++ chunks.flatten)) := by
  induction chunks generalizing tail with
  | nil => simp [decodeChunks, decodeBuffer_none h, undecodedTail_of_none h]
  | cons c cs ih =>
    obtain ⟨_, _, hnone⟩ := decodeBuffer_spec (tail ++ c)
    rw [decodeChunks, ih hnone, List.flatten_cons, ← List.append_assoc, decodeBuffer_append (tail ++ c),
      undecodedTail_append (tail ++ c)]

/-! ## The obligations -/

/-- Settles O13: the bytes of the model's encoder in arithmetic are `encodeFrame_of_inv` with each byte as a number. -/
theorem encodeEmitsHeaderThenPayload : Obligations.EncodeEmitsHeaderThenPayload := by
  constructor
  · intro f s bytes hs hf hbytes
    have hencode : encodeFrame f = bytes := by
      rw [encodeFrame_of_inv hf, hbytes]
      simp only [flagsByte_eq_ofNat, idByte_eq_ofNat, BitVec.ofNat_toNat, Nat.pow_zero, Nat.div_one]
    rw [exec_fcEncode_eq f hs, if_pos hf, hencode]
  · intro f s hs hf
    rw [exec_fcEncode_eq f hs, if_neg (by simp [hf])]

/-- Settles O14: the decoder is a left inverse of the encoder on its domain. -/
theorem encodingIsInjective : Obligations.EncodingIsInjective := by
  refine ⟨fun f hf => ?_, fun f g hf hg h => encodeFrame_injective hf hg h⟩
  obtain ⟨hdlc, _⟩ := (BusFrame_inv_iff f).mp hf
  rw [encodeFrame_length hf]
  omega

/-- Settles O15: the bounded scan is the rule's loop, and the loop never passes the end of the buffer. -/
theorem decodeRunsTheScan : Obligations.DecodeRunsTheScan := by
  intro buf s hs
  obtain ⟨hle, _, _⟩ := decodeBuffer_spec buf
  exact ⟨_, _, true, decodeBuffer_scan buf, hle, exec_fcDecode_eq buf hs⟩

/-- Settles O16: the two cases are those of `decodeOne_eq`, and `candidateFrame` is read field by field. -/
theorem wireFrameReadsOneCandidate : Obligations.WireFrameReadsOneCandidate := by
  intro buf s hs
  constructor
  · intro hshort
    rw [exec_wireFrame_eq buf hs, decodeOne_of_short hshort]
    rfl
  · intro hlong
    refine ⟨candidateFrame buf, ?_, byte_getLsbD_zero _, byte_getLsbD_one _, assembleId_toNat _ _ _ _,
      clampDlc_dlc_toNat _, rfl⟩
    rw [exec_wireFrame_eq buf hs, decodeOne_of_long hlong]
    rfl

/-- Settles O17: in both cases the first candidate is incomplete, so the scan ends where it begins. -/
theorem decodeDefersPartialInput : Obligations.DecodeDefersPartialInput := by
  intro buf s hs hpartial
  have hnone : decodeOne buf 0 = none := (decodeOne_none_iff buf).mpr (hpartial.imp_right And.right)
  refine ⟨true, ?_⟩
  rw [exec_fcDecode_eq buf hs, decodeBuffer_none hnone]

/-- Settles O18: the first declared dlc is seen through its clamp, which is 8 for every byte from 8 on. -/
theorem decodeClampsDlc : Obligations.DecodeClampsDlc := by
  intro buf s hs h9
  have hclamp : clampDlc (bufByte buf 5) = 8 := clampDlc_of_ge (b := bufByte buf 5) (Nat.le_of_succ_le h9)
  refine ⟨?_, fun hshort => ?_, fun hlong => ?_⟩
  · rw [exec_fcDecode_eq _ hs, exec_fcDecode_eq _ hs, decodeBuffer_set_dlc (b := 8) hclamp.symm]
  · have hnone : decodeOne buf 0 = none := decodeOne_of_short (by omega)
    exact ⟨_, exec_fcDecode_eq buf hs, by rw [decodeBuffer_none hnone]⟩
  · have hfirst : decodeOne buf 0 = some (candidateFrame buf, 14) :=
      decodeOne_eq_some_iff.mpr ⟨by omega, rfl, by omega⟩
    refine ⟨_, candidateFrame buf, _, _, exec_fcDecode_eq buf hs, by rw [decodeBuffer_some hfirst], ?_, ?_,
      Scan_drop 14 (decodeBuffer_scan (buf.drop 14))⟩
    · rw [candidateFrame, hclamp]
      rfl
    · rw [candidateFrame, hclamp]

/-- Settles O19: every frame of a scan keeps the invariant, and what is left is an incomplete candidate. -/
theorem decodeRejectsNothing : Obligations.DecodeRejectsNothing := by
  intro buf s hs
  obtain ⟨hle, hinv, hnone⟩ := decodeBuffer_spec buf
  have htail : (undecodedTail buf).length ≤ 13 := decodeOne_none_length hnone
  rw [undecodedTail, List.length_drop] at htail
  exact ⟨_, _, _, exec_fcDecode_eq buf hs, rfl, hinv, hle, htail⟩

/-- Settles O20: one direction is the scan of a single whole candidate, the other compares the bytes of the header. -/
theorem codecRoundTrip : Obligations.CodecRoundTrip := by
  refine ⟨fun f s hs hf => ?_, fun w f n h => encodeFrame_eq_take_iff h⟩
  rw [exec_fcDecode_eq _ hs, decodeBuffer_encodeFrame hf]

/-- Settles O21: the receiver begins with no byte held, which is an incomplete candidate. -/
theorem reassemblyIsIndependentOfChunking : Obligations.ReassemblyIsIndependentOfChunking :=
  fun chunks => decodeChunks_of_none chunks rfl

end Sys2Proof.Machine
end

section
/-! SUPPORT. The two agents at the bus (spec/42_bus_ingress_egress.md): BI.INGRESS as the translation and the atomic push
of R100, BE.EGRESS as the pops of R101 until FQ(tx) is empty, with one answer of the peripheral for each frame. -/

namespace Sys2Proof.Machine

/-! ## BI.INGRESS (R140) -/

/-- The interrupt may pre-empt everything but a push (R218). -/
theorem inInterrupt_open {s : State} (ha : s.agent = .busIngress) (hpush : s.inflight.push = {})
    (body : State → Answer) : inInterrupt s body = body s.fresh := by
  rw [inInterrupt, if_pos (by rw [ha]; rfl), hpush, if_neg (by decide)]

theorem exec_biIngress_eq {p : PFrame} {s : State} (ha : s.agent = .busIngress) (hpush : s.inflight.push = {}) :
    exec (.biIngress p) s = ingress p s.fresh :=
  inInterrupt_open ha hpush (ingress p)

/-- The identifier that `ide` selects is in the range of its format: it is held at the peripheral's own width. -/
theorem frameOfPFrame_idInRange (p : PFrame) : (frameOfPFrame p).idInRange = true := by
  have hext : (p.extId.setWidth 32).toNat < 2 ^ 29 := by
    rw [BitVec.toNat_setWidth]
    exact (Nat.mod_le _ _).trans_lt p.extId.isLt
  have hstd : (p.stdId.setWidth 32).toNat < 2 ^ 11 := by
    rw [BitVec.toNat_setWidth]
    exact (Nat.mod_le _ _).trans_lt p.stdId.isLt
  cases hide : p.ide
  · simpa [BusFrame.idInRange, frameOfPFrame, hide] using hstd
  · simpa [BusFrame.idInRange, frameOfPFrame, hide] using hext

theorem frameOfPFrame_wf {p : PFrame} (h : p.legal = true) : (frameOfPFrame p).wf = true := by
  rw [BusFrame.wf, frameOfPFrame_inv h, frameOfPFrame_idInRange]; rfl

/-! ## The answers of `env.tx_slot_free()` (R48) -/

/-- The answers `as` come from `script` as long as it lasts (log 4). -/
def FollowsScript (script as : List Bool) : Prop := as.take script.length = script.take as.length

theorem FollowsScript.nil (script : List Bool) : FollowsScript script [] := List.take_nil

theorem FollowsScript.cons {script as : List Bool} {a : Bool} (hhead : ∀ b ∈ script.head?, a = b)
    (htail : FollowsScript script.tail as) : FollowsScript script (a :: as) := by
  cases script with
  | nil => rfl
  | cons b script => exact congrArg₂ List.cons (hhead b rfl) htail

/-- One answer is drawn: the script's next one, or a free one. -/
theorem drawTxSlot_spec (s : State) : ∃ (a : Bool) (k : Nat), (∀ b ∈ s.env.txSlot.head?, a = b) ∧
    drawTxSlot s = (a, s.setEnv { s.env with txSlot := s.env.txSlot.tail, count := k }) := by
  unfold drawTxSlot
  split
  · next a rest hscript => exact ⟨a, s.env.count, by simp [hscript], by rw [hscript, List.tail_cons]⟩
  · next hscript =>
    exact ⟨Config.freeTxSlot s.env.count, s.env.count + 1, by simp [hscript], by rw [hscript, List.tail_nil, ← hscript]⟩

/-! ## BE.EGRESS (R141) -/

/-- The commands for the frames with a free slot, in pop order. -/
def submissions (xs : List (BusFrame × Bool)) : List Command := (xs.filter fun x => x.2).map fun x => .submit x.1

/-- The notes for the frames without one, in pop order. -/
def slotDrops (xs : List (BusFrame × Bool)) : List ErrorNote :=
  (xs.filter fun x => !x.2).map fun x => .transmitSlotUnavailable x.1

theorem submissions_cons (x : BusFrame × Bool) (xs : List (BusFrame × Bool)) :
    submissions (x :: xs) = submissions [x] ++ submissions xs := by
  rw [← List.singleton_append, submissions, List.filter_append, List.map_append]; rfl

theorem slotDrops_cons (x : BusFrame × Bool) (xs : List (BusFrame × Bool)) :
    slotDrops (x :: xs) = slotDrops [x] ++ slotDrops xs := by
  rw [← List.singleton_append, slotDrops, List.filter_append, List.map_append]; rfl

/-- What frames of FQ(tx), each with its answer, leave in the environment and in the output. -/
def State.egressed (s : State) (xs : List (BusFrame × Bool)) (k : Nat) : State :=
  (s.setEnv { s.env with txSlot := s.env.txSlot.drop xs.length, count := k }).setOut
    { s.out with cmds := s.out.cmds ++ submissions xs, errors := s.out.errors ++ slotDrops xs }

theorem State.egressed_nil (s : State) : s.egressed [] s.env.count = s := by
  simp [State.egressed, submissions, slotDrops, State.setEnv, State.setOut]

theorem State.egressed_cons (s : State) (x : BusFrame × Bool) (xs : List (BusFrame × Bool)) (j k : Nat) :
    (s.egressed [x] j).egressed xs k = s.egressed (x :: xs) k := by
  simp [State.egressed, submissions_cons x xs, slotDrops_cons x xs, State.setEnv, State.setOut]

/-- One popped frame: one answer, then the command or the note. -/
theorem submitOrDrop_spec (f : BusFrame) (s : State) : ∃ (a : Bool) (k : Nat), (∀ b ∈ s.env.txSlot.head?, a = b) ∧
    submitOrDrop f s = s.egressed [(f, a)] k := by
  obtain ⟨a, k, hhead, hdraw⟩ := drawTxSlot_spec s
  refine ⟨a, k, hhead, ?_⟩
  rw [submitOrDrop, hdraw]
  cases a <;> simp [State.egressed, submissions, slotDrops, State.emit, State.raise, State.setEnv, State.setOut]

theorem drainTx_of_empty {s : State} (k : Nat) (h : s.tx.isEmpty = true) : drainTx (k + 1) s = .next s := by
  rw [drainTx, popFrame, State.queue_tx, if_pos h]

theorem drainTx_of_held {s : State} (k : Nat) (h : s.tx.isEmpty = false) : drainTx (k + 1) s =
    drainTx k (submitOrDrop (Memory.read s.tx.slot s.tx.tail) (s.setQueue .tx (s.tx.popped s.cfg.nTx))) := by
  rw [drainTx, popFrame, State.queue_tx, if_neg (by rw [h]; decide)]
  rfl

/-- With enough passes for the frames held, the loop empties FQ(tx). -/
theorem drainTx_spec {k : Nat} {s : State} (hw : s.tx.wf s.cfg.nTx = true) (hk : s.tx.count s.cfg.nTx < k) :
    ∃ (answers : List Bool) (c : Nat), answers.length = (s.tx.contents s.cfg.nTx).length ∧
      FollowsScript s.env.txSlot answers ∧
      drainTx k s = .next ((s.setQueue .tx { s.tx with tail := s.tx.head }).egressed
        ((s.tx.contents s.cfg.nTx).zip answers) c) := by
  induction k generalizing s with
  | zero => omega
  | succ k ih =>
    obtain ⟨-, hh, ht⟩ := (FrameQueue.wf_iff _ _).mp hw
    cases hempty : s.tx.isEmpty with
    | true =>
      have htail : s.tx.head = s.tx.tail := beq_iff_eq.mp hempty
      refine ⟨[], s.env.count, by rw [FrameQueue.contents_empty hh ht hempty]; rfl, .nil _, ?_⟩
      rw [drainTx_of_empty k hempty, List.zip_nil_right, htail]
      exact congrArg _ (State.egressed_nil s).symm
    | false =>
      obtain ⟨a, j, hhead, hsubmit⟩ := submitOrDrop_spec (Memory.read s.tx.slot s.tx.tail)
        (s.setQueue .tx (s.tx.popped s.cfg.nTx))
      have hcount : (s.tx.popped s.cfg.nTx).count s.cfg.nTx < k := by
        have := FrameQueue.count_popped hh ht hempty
        omega
      obtain ⟨answers, c, hlen, hscript, hdrain⟩ :=
        ih (s := (s.setQueue .tx (s.tx.popped s.cfg.nTx)).egressed [(Memory.read s.tx.slot s.tx.tail, a)] j)
          (FrameQueue.popped_wf hw) hcount
      refine ⟨a :: answers, c, ?_, .cons hhead (List.drop_one ▸ hscript), ?_⟩
      · rw [FrameQueue.contents_popped hw hempty]
        exact congrArg (· + 1) hlen
      · rw [drainTx_of_held k hempty, hsubmit, hdrain, FrameQueue.contents_popped hw hempty, List.zip_cons_cons]
        exact congrArg _ (State.egressed_cons (s.setQueue .tx { s.tx with tail := s.tx.head }) _ _ j c)

/-! ## The obligations -/

/-- Settles O22: the guard is open, and the rest is the translation of the frame and the two cases of the atomic push. -/
theorem ingressQueuesTheFrameAndSetsPend : Obligations.IngressQueuesTheFrameAndSetsPend := by
  refine ⟨fun p s ha hpush hdlc => ?_, fun p s ha hpush hdlc => ?_, fun p hdlc =>
    frameOfPFrame_wf ((PFrame_legal_iff p).mpr hdlc)⟩
  · rw [exec_biIngress_eq ha hpush]
    rcases ingress_cases p s.fresh with ⟨hl, -⟩ | ⟨-, hfull, e⟩ | ⟨-, hroom, e⟩
    · rw [(PFrame_legal_iff p).mpr hdlc] at hl; cases hl
    · have hfull' : (s.rx.head + 1) % s.cfg.nRx = s.rx.tail := by
        simpa [FrameQueue.isFull, nextIndex] using hfull
      rw [e, if_pos hfull']; rfl
    · have hroom' : (s.rx.head + 1) % s.cfg.nRx ≠ s.rx.tail := by
        simpa [FrameQueue.isFull, nextIndex] using hroom
      rw [e, if_neg hroom']
      simp only [BitVec.ofNat_toNat]
      rfl
  · rw [exec_biIngress_eq ha hpush, ingress, (PFrame_legal_false_iff p).mpr hdlc]
    rfl

/-- Settles O24: `drainTx_spec` with the bound that `BE.EGRESS` gives its loop. -/
theorem busEgressDrainsTheQueue : Obligations.BusEgressDrainsTheQueue := by
  intro s hs hw
  obtain ⟨answers, k, hlen, hscript, hdrain⟩ := drainTx_spec (s := s.fresh) hw (Nat.lt_succ_self _)
  refine ⟨answers, _, k, hlen, hscript, rfl, ?_⟩
  have hzip : ((s.tx.contents s.cfg.nTx).zip answers).length = answers.length := by
    rw [List.length_zip, hlen]
    exact Nat.min_self _
  rw [exec, execBeEgress, inBackground_of_ready hs, hdrain, ← hzip]
  rfl

end Sys2Proof.Machine
end

section
/-! SUPPORT. NE.EGRESS (spec/43_network_egress.md): what each of its micro-steps does to FQ(rx) and to the output, with the
interrupts of the boundary before it, and the whole drain as those passes put one after another (R150, R152). -/

namespace Sys2Proof.Machine

theorem FrameQueue.tail_eq_head_of_contents {n : Nat} {Q : FrameQueue} (hw : Q.wf n = true) (h : Q.contents n = []) :
    Q.tail = Q.head := by
  have hempty : Q.isEmpty = true := Bool.eq_true_of_not_eq_false fun he => FrameQueue.contents_ne_nil hw he h
  exact (beq_iff_eq.mp hempty).symm

/-! ## What a stretch of an NE.EGRESS does -/

/-- The commands for the frames sent to `h`: each is written and flushed (R150). -/
def sendCommands (h : Handle) (fs : List BusFrame) : List Command :=
  fs.flatMap fun f => [.write h (encodeFrame f), .flush h]

/-- `t` is `s` after a stretch of an `NE.EGRESS` that took the frames `taken` out of FQ(rx) and gave the commands `cmds`,
while the interrupts of `k` script entries queued the frames `arrived` and dropped `d`. The
position may have changed. -/
structure EgressProgress (s t : State) (taken : List BusFrame) (cmds : List Command) (arrived : List BusFrame)
    (d k : Nat) : Prop where
  frame : t = { s with rx := t.rx, pend := t.pend, inflight := t.inflight,
                       env := { s.env with irq := s.env.irq.drop k },
                       out := { s.out with cmds := s.out.cmds ++ cmds,
                                           errors := s.out.errors ++ List.replicate d (.queueFull .rx) } }
  contents : taken ++ t.rx.contents s.cfg.nRx = s.rx.contents s.cfg.nRx ++ arrived
  arrivals : Arrivals s.cfg.nRx (s.rx.contents s.cfg.nRx).length (s.env.irq.take k).flatten arrived d
  calm : s.env.irq = [] → t.rx = { s.rx with tail := t.rx.tail }

/-- The frames an `NE.EGRESS` from `s` can still have to send: those held and those that interrupts will offer. -/
def State.rxLoad (s : State) : Nat := s.rx.count s.cfg.nRx + (s.env.irq.map List.length).sum

section
variable {s t u : State} {xs ys fs gs : List BusFrame} {cs ds : List Command} {d e k l : Nat}

theorem EgressProgress.cfg (a : EgressProgress s t xs cs fs d k) : t.cfg = s.cfg := by rw [a.frame]

theorem EgressProgress.irq (a : EgressProgress s t xs cs fs d k) : t.env.irq = s.env.irq.drop k := by rw [a.frame]

/-- Stretches one after another. -/
theorem EgressProgress.trans (a : EgressProgress s t xs cs fs d k) (b : EgressProgress t u ys ds gs e l) :
    EgressProgress s u (xs ++ ys) (cs ++ ds) (fs ++ gs) (d + e) (k + l) := by
  have hcontents := b.contents
  have harrivals := b.arrivals
  rw [a.cfg] at hcontents harrivals
  rw [a.irq] at harrivals
  refine ⟨?_, ?_, ?_, fun hi => ?_⟩
  · rw [b.frame, a.frame]
    simp only [List.drop_drop, ← List.replicate_append_replicate, List.append_assoc]
  · rw [List.append_assoc, hcontents, ← List.append_assoc, a.contents, List.append_assoc]
  · have hheld := congrArg List.length a.contents
    rw [List.length_append, List.length_append] at hheld
    rw [flatten_take_add]
    exact a.arrivals.append harrivals (by omega)
  · rw [b.calm (by rw [a.irq, hi, List.drop_nil]), a.calm hi]

/-- Each frame taken out lessens what is still to be sent, whatever interrupts bring. -/
theorem EgressProgress.rxLoad_add_le (a : EgressProgress s t xs cs fs d k) : t.rxLoad + xs.length ≤ s.rxLoad := by
  have hcontents := congrArg List.length a.contents
  have htotal := a.arrivals.total
  have hscript := congrArg List.length (congrArg List.flatten (List.take_append_drop k s.env.irq))
  simp only [List.flatten_append, List.length_append] at hcontents hscript
  rw [State.rxLoad, State.rxLoad, a.cfg, a.irq, ← FrameQueue.contents_length, ← FrameQueue.contents_length,
    ← List.length_flatten, ← List.length_flatten]
  omega

/-- The frames held come out first: if all held after the stretch do, so do all held before it. -/
theorem EgressProgress.held_prefix (a : EgressProgress s t xs cs fs d k) (h : t.rx.contents s.cfg.nRx <+: ys) :
    s.rx.contents s.cfg.nRx <+: xs ++ ys := by
  refine (List.prefix_append _ fs).trans ?_
  rw [← a.contents]
  exact (List.prefix_append_right_inj xs).mpr h

end

/-! ## The micro-steps -/

/-- FQ(rx) and the script are in order, and of the operations under way there is the `NE.EGRESS` that `e` says, if any. -/
structure State.EgressAt (e : Option EgressRegs) (s : State) : Prop where
  legal : s.irqLegal = true
  wf : s.rx.wf s.cfg.nRx = true
  inflight : s.inflight = { egress := e }

/-- The interrupts of a boundary leave the operation where it is (R219). -/
theorem preempt_progress {s : State} {e : Option EgressRegs} (hs : s.EgressAt e) :
    ∃ t fs d, preempt s = .next t ∧ t.EgressAt e ∧ EgressProgress s t [] [] fs d 1 := by
  obtain ⟨t, fs, d, hrun, b⟩ := preempt_spec s hs.legal hs.wf
  refine ⟨t, fs, d, hrun, ⟨b.legal, b.cfg ▸ b.wf, b.inflight.trans hs.inflight⟩, ?_, b.contents, b.arrivals, fun hi => ?_⟩
  · conv_lhs => rw [b.frame]
    rw [b.inflight, List.append_nil]
  · rw [preempt_none hi] at hrun
    cases hrun; rfl

/-- N2 finds FQ(rx) empty, and N4 is next, or pops a frame, and N3 is next with it (R152). -/
theorem egressN2_progress {s : State} {h : Handle} {p : EgressPos} (hs : s.EgressAt (some { h := h, pos := p })) :
    (∃ t fs d, egressN2 h s = .next t ∧ t.EgressAt (some { h := h, pos := .n4 }) ∧ s.rx.contents s.cfg.nRx = [] ∧
      EgressProgress s t [] [] fs d 1) ∨
    (∃ f t fs d, egressN2 h s = .next t ∧ t.EgressAt (some { h := h, pos := .n3 f }) ∧ f.inv = true ∧
      EgressProgress s t [f] [] fs d 3) := by
  have hidle : s.inflight.pop = {} := by rw [hs.inflight]
  obtain ⟨r, t, fs, d, k, hpop, hframe, hlegal, hwf, harrivals, hcase⟩ := popMicro_rx_spec s hidle hs.legal hs.wf
  have hcfg : t.cfg = s.cfg := by rw [hframe]
  have hflight : t.inflight = s.inflight := by rw [hframe]
  have hrun : egressN2 h s = .next (t.setEgress (some { h := h, pos := afterPop r })) := by rw [egressN2, hpop]; rfl
  have hat : (t.setEgress (some { h := h, pos := afterPop r })).EgressAt (some { h := h, pos := afterPop r }) :=
    ⟨hlegal, by rw [← hcfg] at hwf; exact hwf, by rw [State.setEgress_inflight, hflight, hs.inflight]⟩
  have hprogress : r.toList ++ t.rx.contents s.cfg.nRx = s.rx.contents s.cfg.nRx ++ fs →
      EgressProgress s (t.setEgress (some { h := h, pos := afterPop r })) r.toList [] fs d k := fun hc => by
    refine ⟨?_, hc, harrivals, fun hi => ?_⟩
    · conv_lhs => rw [hframe]
      rw [State.setEgress_inflight t, hflight, List.append_nil]
      rfl
    · rw [popMicro_rx hidle hi] at hpop
      rcases popFrame_cases .rx s with ⟨-, e⟩ | ⟨-, e⟩ <;> rw [e] at hpop <;> cases hpop <;> rfl
  rcases hcase with ⟨rfl, rfl, hempty, hc⟩ | ⟨f, rfl, rfl, hf, -, hc⟩
  · obtain ⟨-, hh, ht⟩ := (FrameQueue.wf_iff _ _).mp hs.wf
    exact .inl ⟨_, fs, d, hrun, hat, FrameQueue.contents_empty hh ht hempty, hprogress hc⟩
  · exact .inr ⟨f, _, fs, d, hrun, hat, hf, hprogress hc⟩

/-- N3 writes the popped frame and flushes; N2 is next (R152). -/
theorem egressN3_progress {s : State} {h : Handle} {f : BusFrame} {p : EgressPos} (hf : f.inv = true)
    (hs : s.EgressAt (some { h := h, pos := p })) :
    ∃ t, egressN3 h f s = .next t ∧ t.EgressAt (some { h := h, pos := .n2 }) ∧
      EgressProgress s t [] (sendCommands h [f]) [] 0 0 := by
  refine ⟨((s.emit (.write h (encodeFrame f))).emit (.flush h)).setEgress (some { h := h, pos := .n2 }), ?_,
    ⟨hs.legal, hs.wf, by simp [hs.inflight]⟩, ?_, by simp, .nil _ _, fun _ => rfl⟩
  · rw [egressN3, sendFrame, if_pos hf, andThen_next]
  · simp [State.emit, State.setOut, State.setEgress, sendCommands]

/-- N4 ends the operation with PEND clear, whatever FQ(rx) holds (R152, R154). -/
theorem egressN4_progress {s : State} {e : Option EgressRegs} (hs : s.EgressAt e) :
    (egressN4 s).EgressAt none ∧ (egressN4 s).pend = false ∧ EgressProgress s (egressN4 s) [] [] [] 0 0 := by
  refine ⟨⟨hs.legal, hs.wf, by simp [egressN4, hs.inflight]⟩, rfl, ?_, by simp [egressN4], .nil _ _, fun _ => rfl⟩
  simp [egressN4, State.setPend, State.setEgress]

/-! ## One pass of the run: a boundary, then the micro-step at the position -/

theorem egressRun_pops {s : State} {h : Handle} (k : Nat) (hs : s.EgressAt (some { h := h, pos := .n2 })) :
    (∃ t fs d, egressRun (k + 1) s = egressRun k t ∧ t.EgressAt (some { h := h, pos := .n4 }) ∧
      s.rx.contents s.cfg.nRx = [] ∧ EgressProgress s t [] [] fs d 2) ∨
    (∃ f t fs d, egressRun (k + 1) s = egressRun k t ∧ t.EgressAt (some { h := h, pos := .n3 f }) ∧ f.inv = true ∧
      EgressProgress s t [f] [] fs d 4) := by
  obtain ⟨s1, f1, d1, hpre, at1, b⟩ := preempt_progress hs
  have hpass := egressRun_n2 (k := k) hpre (congrArg InFlight.egress at1.inflight)
  rcases egressN2_progress at1 with ⟨t, f2, d2, hrun, ht, hempty, hp⟩ | ⟨f, t, f2, d2, hrun, ht, hf, hp⟩
  · rw [hrun] at hpass
    have hheld := b.contents
    rw [← b.cfg, hempty] at hheld
    refine .inl ⟨t, _, _, hpass, ht, ?_, b.trans hp⟩
    rw [← b.cfg]
    exact (List.append_eq_nil_iff.mp hheld.symm).1
  · rw [hrun] at hpass
    exact .inr ⟨f, t, _, _, hpass, ht, hf, b.trans hp⟩

theorem egressRun_sends {s : State} {h : Handle} {f : BusFrame} (k : Nat) (hf : f.inv = true)
    (hs : s.EgressAt (some { h := h, pos := .n3 f })) :
    ∃ t fs d, egressRun (k + 1) s = egressRun k t ∧ t.EgressAt (some { h := h, pos := .n2 }) ∧
      EgressProgress s t [] (sendCommands h [f]) fs d 1 := by
  obtain ⟨s1, fs, d, hpre, at1, b⟩ := preempt_progress hs
  obtain ⟨t, hrun, ht, hp⟩ := egressN3_progress hf at1
  refine ⟨t, fs ++ [], d + 0, ?_, ht, b.trans hp⟩
  rw [egressRun_n3 hpre (congrArg InFlight.egress at1.inflight), hrun, andThen_next]

theorem egressRun_ends {s : State} {h : Handle} (k : Nat) (hs : s.EgressAt (some { h := h, pos := .n4 })) :
    ∃ t fs d, egressRun (k + 1) s = .next t ∧ t.EgressAt none ∧ t.pend = false ∧ EgressProgress s t [] [] fs d 1 := by
  obtain ⟨s1, fs, d, hpre, at1, b⟩ := preempt_progress hs
  obtain ⟨ht, hpend, hp⟩ := egressN4_progress at1
  exact ⟨_, fs ++ [], d + 0, egressRun_n4 hpre (congrArg InFlight.egress at1.inflight), ht, hpend, b.trans hp⟩

/-! ## The whole run -/

/-- From N2, with two passes for each frame that can still have to be sent and two for the end, the run completes: it uses
five script entries for each frame sent and three at the end. -/
theorem egressRun_spec {n : Nat} {s : State} {h : Handle} (hs : s.EgressAt (some { h := h, pos := .n2 }))
    (hn : s.rxLoad ≤ n) :
    ∃ t sent arrived d, egressRun (2 * n + 2) s = .next t ∧ t.EgressAt none ∧ t.pend = false ∧
      s.rx.contents s.cfg.nRx <+: sent ∧
      EgressProgress s t sent (sendCommands h sent) arrived d (5 * sent.length + 3) := by
  induction n using Nat.strong_induction_on generalizing s with
  | h n ih =>
    rcases egressRun_pops (2 * n + 1) hs with ⟨s2, f2, d2, hpop, at2, hempty, p2⟩ | ⟨f, s2, f2, d2, hpop, at2, hf, p2⟩
    · obtain ⟨t, f3, d3, hend, at3, hpend, p3⟩ := egressRun_ends (2 * n) at2
      exact ⟨t, [], f2 ++ f3, d2 + d3, hpop.trans hend, at3, hpend, hempty ▸ List.nil_prefix, p2.trans p3⟩
    · obtain ⟨m, rfl⟩ : ∃ m, n = m + 1 := ⟨n - 1, by have : s2.rxLoad + 1 ≤ s.rxLoad := p2.rxLoad_add_le; omega⟩
      obtain ⟨s3, f3, d3, hsend, at3, p3⟩ := egressRun_sends (2 * m + 2) hf at2
      have p := p2.trans p3
      have hload : s3.rxLoad ≤ m := by have : s3.rxLoad + 1 ≤ s.rxLoad := p.rxLoad_add_le; omega
      obtain ⟨t, sent, arrived, d, hrest, ht, hpend, hheld, pt⟩ := ih m (Nat.lt_succ_self m) at3 hload
      refine ⟨t, f :: sent, f2 ++ f3 ++ arrived, d2 + d3 + d, (hpop.trans hsend).trans hrest, ht, hpend,
        p.held_prefix (p.cfg ▸ hheld), ?_⟩
      rw [List.length_cons, show 5 * (sent.length + 1) + 3 = 4 + 1 + (5 * sent.length + 3) by omega]
      exact p.trans pt

/-! ## The operation -/

/-- Without a link or with PEND clear the frames wait (R150, R151). -/
theorem exec_neEgress_waits {s : State} (hs : s.ready = true) (h : s.alSlot = none ∨ s.pend = false) :
    exec .neEgress s = .next s.fresh := by
  rw [exec, execNeEgress, inBackground_of_ready hs]
  rcases h with hslot | hpend
  · simp [hslot]
  · cases hslot : s.alSlot <;> simp [hslot, hpend]

theorem exec_neEgress_runs {s : State} {h : Handle} (hs : s.ready = true) (hslot : s.alSlot = some h)
    (hpend : s.pend = true) : exec .neEgress s = egressRun (egressBound s.fresh) (egressN1 h s.fresh) := by
  rw [exec, execNeEgress, inBackground_of_ready hs]
  simp [hslot, hpend]

/-- `NE.EGRESS` with a link and PEND set, under any legal interrupt script. -/
theorem exec_neEgress_spec {s : State} {h : Handle} (hs : s.ready = true) (hw : s.rx.wf s.cfg.nRx = true)
    (hl : s.irqLegal = true) (hslot : s.alSlot = some h) (hpend : s.pend = true) :
    ∃ t sent arrived d, exec .neEgress s = .next t ∧ t.EgressAt none ∧ t.pend = false ∧
      s.rx.contents s.cfg.nRx <+: sent ∧
      EgressProgress s.fresh t sent (sendCommands h sent) arrived d (5 * sent.length + 3) := by
  obtain ⟨-, hidle⟩ := (ready_iff s).mp hs
  have hstart : (egressN1 h s.fresh).EgressAt (some { h := h, pos := .n2 }) := ⟨hl, hw, by simp [egressN1, hidle]⟩
  obtain ⟨t, sent, arrived, d, hrun, ht, hclear, hheld, p⟩ := egressRun_spec hstart (Nat.le_refl _)
  refine ⟨t, sent, arrived, d, ?_, ht, hclear, hheld, p.frame, p.contents, p.arrivals, p.calm⟩
  rw [exec_neEgress_runs hs hslot hpend]
  exact hrun

/-- The state an `NE.EGRESS` leaves, field by field. -/
theorem EgressProgress.result {s t : State} {xs fs : List BusFrame} {cs : List Command} {d k : Nat}
    (p : EgressProgress s.fresh t xs cs fs d k) (ht : t.EgressAt none) (hpend : t.pend = false) (hs : s.ready = true) :
    t = { s with rx := t.rx, pend := false, env := { s.env with irq := s.env.irq.drop k },
                 out := { cmds := cs, errors := List.replicate d (.queueFull .rx) } } := by
  obtain ⟨-, hidle⟩ := (ready_iff s).mp hs
  conv_lhs => rw [p.frame]
  rw [ht.inflight, hpend, ← hidle]
  rfl

/-! ## The obligations -/

/-- Settles O25: past the guard, the slot and PEND are looked at before N1. -/
theorem networkEgressWaitsForLinkAndPend : Obligations.NetworkEgressWaitsForLinkAndPend :=
  fun _ hs h => exec_neEgress_waits hs h

/-- Settles O26: without a script nothing arrives, so what is sent is what was held and the queue ends empty. -/
theorem networkEgressSendsEveryFrame : Obligations.NetworkEgressSendsEveryFrame := by
  intro s h hs _ hw hslot hpend hirq
  have hl : s.irqLegal = true := by rw [State.irqLegal, hirq]; rfl
  obtain ⟨t, sent, arrived, d, hrun, ht, hclear, hheld, p⟩ := exec_neEgress_spec hs hw hl hslot hpend
  have hcalm : s.fresh.env.irq = [] := hirq
  have htotal := p.arrivals.total
  rw [hcalm, List.take_nil, List.flatten_nil, List.length_nil] at htotal
  obtain ⟨rfl, rfl⟩ : arrived = [] ∧ d = 0 := ⟨List.length_eq_zero_iff.mp (by omega), by omega⟩
  have hsent : sent ++ t.rx.contents s.cfg.nRx = s.rx.contents s.cfg.nRx := by simpa using p.contents
  obtain rfl : s.rx.contents s.cfg.nRx = sent :=
    hheld.eq_of_length_le (hsent ▸ List.prefix_append sent (t.rx.contents s.cfg.nRx)).length_le
  have hnone : t.rx.contents s.cfg.nRx = [] := by simpa using hsent
  have hrx : t.rx = { s.rx with tail := t.rx.tail } := p.calm hcalm
  have hhead : t.rx.head = s.rx.head := by rw [hrx]
  have htail : t.rx.tail = s.rx.head :=
    (FrameQueue.tail_eq_head_of_contents ht.wf (p.cfg ▸ hnone)).trans hhead
  rw [hrun, p.result ht hclear hs, hrx, htail, hirq, List.drop_nil, ← hirq]
  rfl

/-- Settles O27: `exec_neEgress_spec`, with the queue it leaves, the frames sent and arrived, and the frames dropped. -/
theorem interruptedNetworkEgressLosesNothing : Obligations.InterruptedNetworkEgressLosesNothing := by
  intro s h hinv hs hl hslot hpend
  obtain ⟨-, hw, -⟩ := (State.inv_iff s).mp hinv
  obtain ⟨t, sent, arrived, d, hrun, ht, hclear, hheld, p⟩ := exec_neEgress_spec hs hw hl hslot hpend
  refine ⟨t.rx, sent, arrived, d, ?_, hheld, p.contents, p.arrivals.sub, p.arrivals.total, p.arrivals.full⟩
  rw [hrun]
  exact congrArg _ (p.result ht hclear hs)

end Sys2Proof.Machine
end

section
/-! SUPPORT. The client's state machine (spec/44_client_link.md R160 to R168): which events do nothing (D18), the two
parts of a tick, and the obligations they settle. -/

namespace Sys2Proof.Machine

/-! ## Events -/

/-- Of its body, a background operation sees only what it does on the state with a fresh output. -/
theorem inBackground_congr {s : State} {body body' : State → Answer} (h : body s.fresh = body' s.fresh) :
    inBackground s body = inBackground s body' := by
  unfold inBackground
  rw [h]

/-- The states of the record in which an event of the client's transport has a behaviour (R162 to R167); `none` for
operations that are no such event. -/
def clientEventStates : Instr → Option (List ClientState)
  | .clConnected => some [.connecting]
  | .clConnfail => some [.connecting]
  | .clRecv _ => some [.connected]
  | .clEos => some [.connecting, .connected, .closing]
  | .clError => some [.connecting, .connected, .closing]
  | _ => none

/-- An event without a record, or in a state without a behaviour for it, changes nothing (R169, D18). -/
theorem exec_clientEvent_ignored {i : Instr} {states : List ClientState} {s : State}
    (hi : clientEventStates i = some states) (h : ∀ r, s.clRec = some r → r.state ∉ states) :
    exec i s = inBackground s .next := by
  cases i with
  | clConnected | clConnfail | clRecv | clEos | clError =>
    cases hi
    simp only [exec, execClConnected, execClConnfail, execClRecv, execClEos, execClError]
    apply inBackground_congr
    cases hc : s.clRec with
    | none => simp only [State.fresh_clRec, hc]
    | some r =>
      have hstate := h r hc
      cases hr : r.state <;> simp_all
  | _ => cases hi

theorem exec_clientEvent_ignored_of_ready {i : Instr} {states : List ClientState} {s : State} (hs : s.ready = true)
    (hi : clientEventStates i = some states) (h : ∀ r, s.clRec = some r → r.state ∉ states) :
    exec i s = .next { s with out := {} } := by
  rw [exec_clientEvent_ignored hi h, inBackground_of_ready hs]
  rfl

/-- Without a record there is no state for an event to act in. -/
theorem state_not_mem_of_no_record {s : State} (h : s.clRec = none) (states : List ClientState) :
    ∀ r, s.clRec = some r → r.state ∉ states := by
  intro r hr
  rw [h] at hr
  cases hr

/-! ## The attempt: allocation and start (R160) -/

/-- What a new attempt with handle `h`, started at `now`, makes of `s`; `e` are the environment's answers left. -/
def State.attempting (s : State) (h : Handle) (now : Time) (e : Env) : State :=
  { s with
    clRec := some { state := .connecting, handle := h, attemptStart := now, rxTail := [] }
    clRetryRef := some now
    env := e
    out := { s.out with cmds := s.out.cmds ++ [.connect h s.cfg.destAddr s.cfg.destPort] } }

/-- The answer of `env.alloc()` depends on nothing but the environment. -/
theorem drawAlloc_of_env_eq {s u : State} (h : u.env = s.env) :
    (drawAlloc u).1 = (drawAlloc s).1 ∧ (drawAlloc u).2.env = (drawAlloc s).2.env := by
  unfold drawAlloc
  rw [h]
  split <;> exact ⟨rfl, rfl⟩

theorem initiate_of_alloc {now : Time} {s s' u : State} {h : Handle} (hnone : u.clRec = none) (henv : u.env = s.env)
    (hdraw : drawAlloc s = (some h, s')) : initiate now u = .next (u.attempting h now s'.env) := by
  obtain ⟨ha, he⟩ := drawAlloc_of_env_eq henv
  rw [hdraw] at ha he
  rcases initiate_cases now u with ⟨⟨r, hr⟩, -⟩ | ⟨-, hfail, -⟩ | ⟨g, -, hg, e⟩
  · simp [hnone] at hr
  · simp [ha] at hfail
  · obtain rfl : h = g := Option.some.inj (ha.symm.trans hg)
    rw [e, he]
    rfl

theorem initiate_of_allocFailed {now : Time} {s s' u : State} (hnone : u.clRec = none) (henv : u.env = s.env)
    (hdraw : drawAlloc s = (none, s')) : initiate now u = .refused .allocFailed := by
  obtain ⟨ha, -⟩ := drawAlloc_of_env_eq henv
  rw [hdraw] at ha
  rcases initiate_cases now u with ⟨⟨r, hr⟩, -⟩ | ⟨-, -, e⟩ | ⟨g, -, hg, -⟩
  · simp [hnone] at hr
  · exact e
  · simp [ha] at hg

theorem exec_clInitiate_eq {s : State} (now : Time) (hs : s.ready = true) :
    exec (.clInitiate now) s = initiate now s.fresh := inBackground_of_ready hs _

/-! ## The poll (R168) -/

/-- A poll looks at the handle of the record alone: no record and another handle are one case (D18). -/
theorem exec_clPoll_eq {s : State} (h : Handle) (hs : s.ready = true) : exec (.clPoll h) s =
    .next (if s.clRec.map ClientRec.handle = some h then s.fresh else s.fresh.emit (.abort h)) := by
  rw [exec, execClPoll, inBackground_of_ready hs]
  cases hr : s.clRec with
  | none => simp only [State.fresh_clRec, hr, Option.map_none, reduceCtorEq, if_false]
  | some r =>
    simp only [State.fresh_clRec, hr, Option.map_some, Option.some.injEq]
    split <;> rfl

/-! ## The tick (R161) -/

theorem exec_clTick_eq {s : State} (now : Time) (hs : s.ready = true) :
    exec (.clTick now) s = tickReconnect now (tickTimeout now s.fresh) := by
  rw [exec, execClTick, inBackground_of_ready hs]

theorem exceeds_elapsed_iff (now t limit : Time) :
    exceeds (elapsed now t) limit = true ↔ limit.toNat < (now.toNat + 2 ^ 32 - t.toNat) % 2 ^ 32 := by
  rw [exceeds, elapsed_toNat, decide_eq_true_iff]

/-- The backoff is over when it has elapsed since the retry reference, if there is one (D13, D14). -/
theorem backoffOver_iff (now : Time) (s : State) : backoffOver now s = true ↔
    ∀ t, s.clRetryRef = some t → s.cfg.reconnectBackoff.toNat ≤ (now.toNat + 2 ^ 32 - t.toNat) % 2 ^ 32 := by
  unfold backoffOver
  cases s.clRetryRef with
  | none => simp
  | some t => simp only [hasElapsed, elapsed_toNat, decide_eq_true_iff, Option.some.injEq, forall_eq']

/-- Right after an abort the backoff is over only if there is none. -/
theorem backoffOver_at_reference {now : Time} {s : State} (h : s.clRetryRef = some now) :
    backoffOver now s = true ↔ s.cfg.reconnectBackoff = 0 := by
  have hzero : (now.toNat + 2 ^ 32 - now.toNat) % 2 ^ 32 = 0 := by omega
  simp only [backoffOver_iff, h, Option.some.injEq, forall_eq', hzero, Nat.le_zero_eq]
  exact BitVec.toNat_inj (y := 0)

theorem tickReconnect_of_record {s : State} {r : ClientRec} (now : Time) (h : s.clRec = some r) :
    tickReconnect now s = .next s := by
  rw [tickReconnect, h]
  rfl

theorem tickReconnect_of_over {now : Time} {s : State} (hnone : s.clRec = none) (h : backoffOver now s = true) :
    tickReconnect now s = initiate now s := by
  rw [tickReconnect, hnone, h]
  rfl

theorem tickReconnect_of_not_over {now : Time} {s : State} (h : backoffOver now s = false) :
    tickReconnect now s = .next s := by
  rw [tickReconnect, h, Bool.and_false]
  rfl

/-- What the aborted attempt of the record `r` makes of `s`: the backoff runs from now (D14). -/
def State.timedOut (s : State) (r : ClientRec) (now : Time) : State :=
  { s with
    clRec := none
    clRetryRef := some now
    out := { s.out with cmds := s.out.cmds ++ [.abort r.handle], errors := s.out.errors ++ [.handshakeTimeout] } }

theorem tickTimeout_of_exceeded {now : Time} {s : State} {r : ClientRec} (hr : s.clRec = some r)
    (hstate : r.state = .connecting)
    (h : s.cfg.synTimeout.toNat < (now.toNat + 2 ^ 32 - r.attemptStart.toNat) % 2 ^ 32) :
    tickTimeout now s = s.timedOut r now := by
  rcases tickTimeout_cases now s with ⟨r', hr', -, -, e⟩ | ⟨hno, -⟩
  · obtain rfl : r = r' := Option.some.inj (hr.symm.trans hr')
    exact e
  · have := hno r hr hstate
    rw [(exceeds_elapsed_iff _ _ _).mpr h] at this
    cases this

theorem tickTimeout_of_not_exceeded {now : Time} {s : State}
    (h : ∀ r, s.clRec = some r → r.state = .connecting →
      (now.toNat + 2 ^ 32 - r.attemptStart.toNat) % 2 ^ 32 ≤ s.cfg.synTimeout.toNat) :
    tickTimeout now s = s := by
  rcases tickTimeout_cases now s with ⟨r, hr, hstate, hex, -⟩ | ⟨-, e⟩
  · have := (exceeds_elapsed_iff _ _ _).mp hex
    have := h r hr hstate
    omega
  · exact e

/-! ## The obligations about single operations -/

/-- Settles O29: `initiate` on the state with a fresh output, in its three cases. -/
theorem initiateStartsOneAttempt : Obligations.InitiateStartsOneAttempt := by
  intro now s hs
  rw [exec_clInitiate_eq now hs]
  refine ⟨fun r hr => ?_, fun h s' hnone hdraw => ?_, fun s' hnone hdraw => ?_⟩
  · rcases initiate_cases now s.fresh with ⟨-, e⟩ | ⟨hnone, -⟩ | ⟨_, hnone, -⟩
    · exact e
    all_goals cases hr.symm.trans hnone
  · exact initiate_of_alloc (s := s) hnone rfl hdraw
  · exact initiate_of_allocFailed (s := s) hnone rfl hdraw

/-- Settles O30: the time-out drops the record, so the second part of the tick is decided by the backoff alone. -/
theorem tickAbortsOnlyAfterSynTimeout : Obligations.TickAbortsOnlyAfterSynTimeout := by
  intro now s r hs hr
  rw [exec_clTick_eq now hs]
  have hinitiates (hback : s.cfg.reconnectBackoff = 0) :
      tickReconnect now (s.fresh.timedOut r now) = initiate now (s.fresh.timedOut r now) :=
    tickReconnect_of_over rfl ((backoffOver_at_reference rfl).mpr hback)
  refine ⟨fun hstate hex hback => ?_, fun h s' hstate hex hback hdraw => ?_, fun s' hstate hex hback hdraw => ?_,
    fun hkeep => ?_⟩
  · rw [tickTimeout_of_exceeded (s := s.fresh) hr hstate hex]
    have hwait : backoffOver now (s.fresh.timedOut r now) = false :=
      Bool.eq_false_iff.mpr (mt (backoffOver_at_reference rfl).mp hback)
    exact tickReconnect_of_not_over hwait
  · rw [tickTimeout_of_exceeded (s := s.fresh) hr hstate hex, hinitiates hback]
    exact initiate_of_alloc (s := s) rfl rfl hdraw
  · rw [tickTimeout_of_exceeded (s := s.fresh) hr hstate hex, hinitiates hback]
    exact initiate_of_allocFailed (s := s) rfl rfl hdraw
  · have hstays : tickTimeout now s.fresh = s.fresh := by
      refine tickTimeout_of_not_exceeded fun r' hr' hstate => ?_
      obtain rfl : r = r' := Option.some.inj (hr.symm.trans hr')
      exact hkeep.resolve_left (not_not_intro hstate)
    rw [hstays]
    exact tickReconnect_of_record now hr

/-- Settles O31: without a record only the second part of the tick can act. -/
theorem tickReconnectsAfterBackoff : Obligations.TickReconnectsAfterBackoff := by
  intro now s hs hnone
  have hstays : tickTimeout now s.fresh = s.fresh :=
    tickTimeout_of_not_exceeded fun r hr => by cases hr.symm.trans hnone
  rw [exec_clTick_eq now hs, hstays]
  have hinitiates (hback : ∀ t, s.clRetryRef = some t →
      s.cfg.reconnectBackoff.toNat ≤ (now.toNat + 2 ^ 32 - t.toNat) % 2 ^ 32) :
      tickReconnect now s.fresh = initiate now s.fresh :=
    tickReconnect_of_over hnone ((backoffOver_iff now s.fresh).mpr hback)
  refine ⟨fun h s' hdraw hback => ?_, fun s' hdraw hback => ?_, fun t ht hlt => ?_⟩
  · rw [hinitiates hback]
    exact initiate_of_alloc (s := s) hnone rfl hdraw
  · rw [hinitiates hback]
    exact initiate_of_allocFailed (s := s) hnone rfl hdraw
  · have hwait : backoffOver now s.fresh = false :=
      Bool.eq_false_iff.mpr fun hover => by
        have hle : s.cfg.reconnectBackoff.toNat ≤ _ := (backoffOver_iff now s.fresh).mp hover t ht
        omega
    exact tickReconnect_of_not_over hwait

/-- Settles O33: the one state with a behaviour, and every other case by `exec_clientEvent_ignored`. -/
theorem connectedTakesTheLink : Obligations.ConnectedTakesTheLink := by
  intro s hs
  refine ⟨fun r hr hstate => ?_, fun hno => ?_⟩
  · rw [exec, execClConnected, inBackground_of_ready hs]
    simp only [State.fresh_clRec, hr, if_pos hstate]
    rfl
  · exact exec_clientEvent_ignored_of_ready hs rfl fun r hr => by simpa using hno r hr

/-- Settles O34: the one state with a behaviour, and every other case by `exec_clientEvent_ignored`. -/
theorem connectFailureDiscardsTheAttempt : Obligations.ConnectFailureDiscardsTheAttempt := by
  intro s hs
  refine ⟨fun r hr hstate => ?_, fun hno => ?_⟩
  · rw [exec, execClConnfail, inBackground_of_ready hs]
    simp only [State.fresh_clRec, hr, if_pos hstate]
    rfl
  · exact exec_clientEvent_ignored_of_ready hs rfl fun r hr => by simpa using hno r hr

/-- Settles O35: the receive path of R129 (`ingest_spec`) on the old tail followed by the bytes, and the scan the decoder
runs. -/
theorem clientReceiveDecodesIntoTheQueue : Obligations.ClientReceiveDecodesIntoTheQueue := by
  intro bytes s hs _ hw
  refine ⟨fun r hr hstate => ?_, fun hno => ?_⟩
  · obtain ⟨-, hinv, -⟩ := decodeBuffer_spec (r.rxTail ++ bytes)
    obtain ⟨Q, hin, hQ, htail, hcontents⟩ := ingest_spec (r.rxTail ++ bytes) s.fresh hw hinv
    refine ⟨Q, _, _, decodeBuffer_scan (r.rxTail ++ bytes), ?_, hQ, htail, hcontents⟩
    rw [exec, execClRecv, inBackground_of_ready hs]
    simp only [State.fresh_clRec, hr, if_pos hstate, hin]
    rfl
  · exact exec_clientEvent_ignored_of_ready hs rfl fun r hr => by simpa using hno r hr

/-- Settles O36: `cl_finalize` (R164) on the record. -/
theorem clientEndOfStreamFinalizes : Obligations.ClientEndOfStreamFinalizes := by
  intro s hs
  refine ⟨fun r hr => ?_, fun hnone => exec_clientEvent_ignored_of_ready hs rfl (state_not_mem_of_no_record hnone _)⟩
  rw [exec, execClEos, inBackground_of_ready hs]
  simp only [State.fresh_clRec, hr, clFinalize_eq]
  rfl

/-- Settles O37: the record goes and `AL.CLEARIF` (R201) looks at its handle. -/
theorem clientErrorReleasesTheRecord : Obligations.ClientErrorReleasesTheRecord := by
  intro s hs
  refine ⟨fun r hr => ?_, fun hnone => exec_clientEvent_ignored_of_ready hs rfl (state_not_mem_of_no_record hnone _)⟩
  rw [exec, execClError, inBackground_of_ready hs]
  simp only [State.fresh_clRec, hr, clearLinkIf_eq]
  rfl

/-- Settles O38: the state with a fresh output, with or without the one command. -/
theorem clientPollAbortsUnownedTransport : Obligations.ClientPollAbortsUnownedTransport := by
  intro h s hs
  rw [exec_clPoll_eq h hs]
  split <;> rfl

end Sys2Proof.Machine
end

section
/-! SUPPORT. The client's attempt, its record and the retry reference, is moved by the client's operations alone, and
without a record only a connection start moves it (spec/44_client_link.md R160, R161, R171, R173); the obligation about
the backoff between two ticks. -/

namespace Sys2Proof.Machine

/-! ## What moves frames or bytes leaves the attempt alone -/

/-- The client's record and the time the backoff is measured from (R30). -/
def State.attempt (s : State) : Option ClientRec × Option Time := (s.clRec, s.clRetryRef)

theorem setQueue_attempt (q : QSel) (Q : FrameQueue) (s : State) : (s.setQueue q Q).attempt = s.attempt := by
  cases q <;> rfl

theorem clearLinkIf_attempt (s : State) (h : Handle) : (s.clearLinkIf h).attempt = s.attempt := by
  rw [clearLinkIf_eq]
  rfl

theorem pushFrame_attempt (q : QSel) (f : BusFrame) (s : State) : (pushFrame q f s).2.attempt = s.attempt := by
  rcases pushFrame_cases q f s with ⟨-, e⟩ | ⟨-, e⟩ <;> rw [e]
  · rfl
  · exact setQueue_attempt q _ s

theorem popFrame_attempt (q : QSel) (s : State) : (popFrame q s).2.attempt = s.attempt := by
  rcases popFrame_cases q s with ⟨-, e⟩ | ⟨-, e⟩ <;> rw [e]
  exact setQueue_attempt q _ s

theorem pushAll_attempt (q : QSel) (fs : List BusFrame) (s : State) : (pushAll q fs s).attempt = s.attempt := by
  induction fs generalizing s with
  | nil => rfl
  | cons f fs ih => exact (ih _).trans (pushFrame_attempt q f s)

theorem ingest_attempt (buf : List Byte) (s : State) : (ingest buf s).attempt = s.attempt :=
  pushAll_attempt .tx _ (s.noteIncomplete _)

theorem submitOrDrop_attempt (f : BusFrame) (s : State) : (submitOrDrop f s).attempt = s.attempt := by
  unfold submitOrDrop
  rw [drawTxSlot_state]
  split <;> rfl

theorem drainTx_attempt {k : Nat} {s t : State} (h : drainTx k s = .next t) : t.attempt = s.attempt := by
  induction k generalizing s with
  | zero => cases h
  | succ k ih =>
    have hpop := popFrame_attempt .tx s
    unfold drainTx at h
    generalize popFrame .tx s = x at h hpop
    obtain ⟨_ | f, s'⟩ := x
    · cases h; exact hpop
    · exact ((ih h).trans (submitOrDrop_attempt f s')).trans hpop

theorem takeInterrupt_attempt {p : PFrame} {s t : State} (h : takeInterrupt p s = .next t) : t.attempt = s.attempt := by
  obtain ⟨u, hu, h⟩ := (andThen_eq_next _ _ _).mp h
  cases h
  unfold ingress at hu
  split at hu <;> cases hu
  exact pushFrame_attempt .rx _ (interruptEntry s)

theorem takeInterrupts_attempt {ps : List PFrame} {s t : State} (h : takeInterrupts ps s = .next t) :
    t.attempt = s.attempt := by
  induction ps generalizing s with
  | nil => cases h; rfl
  | cons p ps ih =>
    obtain ⟨u, hu, h⟩ := (andThen_eq_next _ _ _).mp h
    exact (ih h).trans (takeInterrupt_attempt hu)

theorem preempt_attempt {s t : State} (h : preempt s = .next t) : t.attempt = s.attempt := by
  cases hi : s.env.irq with
  | nil => rw [preempt_none hi] at h; cases h; rfl
  | cons ps rest =>
    rw [preempt_some hi] at h
    exact (takeInterrupts_attempt h).trans rfl

theorem popBoundary_attempt {q : QSel} {s t : State} (h : popBoundary q s = .next t) : t.attempt = s.attempt := by
  cases q with
  | rx => exact preempt_attempt h
  | tx => cases h; rfl

theorem pushMicro_attempt (q : QSel) (f : BusFrame) (s : State) : (pushMicro q f s).2.attempt = s.attempt := by
  unfold pushMicro
  split
  · rfl
  · exact (setQueue_attempt q _ (pushP3 q f (pushP1 q s))).trans (setQueue_attempt q _ (pushP1 q s))

theorem popMicro_attempt {q : QSel} {s t : State} {r : Option BusFrame} (h : popMicro q s = .next (r, t)) :
    t.attempt = s.attempt := by
  obtain ⟨s1, h1, h⟩ := (andThen_eq_next _ _ _).mp h
  have b1 : s1.attempt = s.attempt := (popBoundary_attempt h1).trans rfl
  split at h
  · cases h; exact b1
  · obtain ⟨s2, h2, h⟩ := (andThen_eq_next _ _ _).mp h
    obtain ⟨s3, h3, h⟩ := (andThen_eq_next _ _ _).mp h
    have b3 : s3.attempt = s2.attempt := (popBoundary_attempt h3).trans rfl
    cases h
    exact (((setQueue_attempt q _ s3).trans b3).trans (popBoundary_attempt h2)).trans b1

theorem egressN2_attempt {h : Handle} {s t : State} (hn : egressN2 h s = .next t) : t.attempt = s.attempt := by
  obtain ⟨⟨r, u⟩, hu, hn⟩ := (andThen_eq_next _ _ _).mp hn
  have hpop := popMicro_attempt hu
  cases hn
  exact hpop

theorem egressN3_attempt {h : Handle} {f : BusFrame} {s t : State} (hn : egressN3 h f s = .next t) :
    t.attempt = s.attempt := by
  obtain ⟨u, hu, hn⟩ := (andThen_eq_next _ _ _).mp hn
  cases hn
  unfold sendFrame at hu
  split at hu <;> cases hu
  rfl

theorem egressRun_attempt {k : Nat} {s t : State} (h : egressRun k s = .next t) : t.attempt = s.attempt := by
  induction k generalizing s with
  | zero => cases h
  | succ k ih =>
    obtain ⟨s1, h1, h⟩ := (andThen_eq_next _ _ _).mp h
    rw [← preempt_attempt h1]
    split at h
    · cases h; rfl
    · split at h
      · obtain ⟨s2, h2, h⟩ := (andThen_eq_next _ _ _).mp h
        exact (ih h).trans (egressN2_attempt h2)
      · obtain ⟨s2, h2, h⟩ := (andThen_eq_next _ _ _).mp h
        exact (ih h).trans (egressN3_attempt h2)
      · cases h; rfl

theorem sendPending_attempt (s : State) : (sendPending s).attempt = s.attempt := by
  rw [sendPending_frame]
  rfl

theorem slFinalize_attempt (v : ServerRec) (s : State) : (slFinalize v s).attempt = s.attempt := by
  rw [slFinalize_eq]
  rfl

/-! ## The operations without a record -/

section
variable {s t : State}

/-- A background operation leaves the attempt alone if its body does. -/
theorem inBackground_attempt {body : State → Answer} (h : inBackground s body = .next t)
    (hbody : body s.fresh = .next t → t.attempt = s.fresh.attempt) : t.attempt = s.attempt :=
  hbody (inBackground_eq_next h).2.2

theorem execFqPush_attempt {q : QSel} {f : BusFrame} (h : execFqPush q f s = .next t) : t.attempt = s.attempt := by
  obtain ⟨-, -, -, h⟩ := atProducerPort_eq_next h
  split at h <;> cases h
  exact pushMicro_attempt q f s.fresh

theorem execFqPop_attempt {q : QSel} (h : execFqPop q s = .next t) : t.attempt = s.attempt := by
  obtain ⟨-, -, h⟩ := atConsumerPort_eq_next h
  obtain ⟨⟨r, u⟩, hu, h⟩ := (andThen_eq_next _ _ _).mp h
  have hpop := popMicro_attempt hu
  cases h
  exact hpop

theorem execFcEncode_attempt {f : BusFrame} (h : execFcEncode f s = .next t) : t.attempt = s.attempt := by
  refine inBackground_attempt h fun h => ?_
  split at h <;> cases h
  rfl

theorem execFcDecode_attempt {buf : List Byte} (h : execFcDecode buf s = .next t) : t.attempt = s.attempt :=
  inBackground_attempt h fun h => by cases h; rfl

theorem execWireFrame_attempt {buf : List Byte} (h : execWireFrame buf s = .next t) : t.attempt = s.attempt :=
  inBackground_attempt h fun h => by cases h; rfl

theorem execBiIngress_attempt {p : PFrame} (h : execBiIngress p s = .next t) : t.attempt = s.attempt := by
  obtain ⟨-, -, h⟩ := inInterrupt_eq_next h
  unfold ingress at h
  split at h <;> cases h
  exact pushFrame_attempt .rx _ s.fresh

theorem execBeEgress_attempt (h : execBeEgress s = .next t) : t.attempt = s.attempt :=
  inBackground_attempt h drainTx_attempt

theorem execNeEgress_attempt (h : execNeEgress s = .next t) : t.attempt = s.attempt := by
  refine inBackground_attempt h fun h => ?_
  split at h
  · cases h; rfl
  · split at h
    · exact (egressRun_attempt h).trans rfl
    · cases h; rfl

theorem execSlSetup_attempt (h : execSlSetup s = .next t) : t.attempt = s.attempt := by
  refine inBackground_attempt h fun h => ?_
  split at h <;> cases h
  rfl

theorem execSlAccept_attempt {a : Handle} (h : execSlAccept a s = .next t) : t.attempt = s.attempt := by
  refine inBackground_attempt h fun h => ?_
  split at h
  · cases h
  · split at h <;> cases h
    rfl

theorem execSlRecv_attempt {bytes : List Byte} (h : execSlRecv bytes s = .next t) : t.attempt = s.attempt := by
  refine inBackground_attempt h fun h => ?_
  split at h
  · cases h; rfl
  · split at h <;> cases h
    · rfl
    · exact ingest_attempt _ s.fresh

theorem execSlEos_attempt (h : execSlEos s = .next t) : t.attempt = s.attempt := by
  refine inBackground_attempt h fun h => ?_
  split at h
  · cases h; rfl
  · split at h <;> cases h
    · exact slFinalize_attempt _ _
    · exact sendPending_attempt _

theorem execSlError_attempt (h : execSlError s = .next t) : t.attempt = s.attempt := by
  refine inBackground_attempt h fun h => ?_
  split at h <;> cases h
  · rfl
  · exact clearLinkIf_attempt _ _

theorem execSlEnqueue_attempt {bytes : List Byte} (h : execSlEnqueue bytes s = .next t) : t.attempt = s.attempt := by
  refine inBackground_attempt h fun h => ?_
  split at h <;> cases h <;> rfl

theorem execSlSend_attempt (h : execSlSend s = .next t) : t.attempt = s.attempt :=
  inBackground_attempt h fun h => by cases h; exact sendPending_attempt _

theorem execSlSent_attempt (h : execSlSent s = .next t) : t.attempt = s.attempt := by
  refine inBackground_attempt h fun h => ?_
  split at h
  · cases h; rfl
  · split at h
    · cases h; exact sendPending_attempt _
    · split at h <;> cases h
      · exact slFinalize_attempt _ _
      · rfl

theorem execSlPoll_attempt {a : Handle} (h : execSlPoll a s = .next t) : t.attempt = s.attempt := by
  refine inBackground_attempt h fun h => ?_
  split at h
  · cases h; rfl
  · split at h
    · cases h; rfl
    · split at h
      · cases h; exact sendPending_attempt _
      · split at h <;> cases h
        · exact slFinalize_attempt _ _
        · rfl

theorem execAlSet_attempt {a : Handle} (h : execAlSet a s = .next t) : t.attempt = s.attempt :=
  inBackground_attempt h fun h => by cases h; rfl

theorem execAlClearif_attempt {a : Handle} (h : execAlClearif a s = .next t) : t.attempt = s.attempt :=
  inBackground_attempt h fun h => by cases h; exact clearLinkIf_attempt _ _

theorem execAlGet_attempt (h : execAlGet s = .next t) : t.attempt = s.attempt :=
  inBackground_attempt h fun h => by cases h; rfl

theorem execClPoll_attempt {a : Handle} (h : execClPoll a s = .next t) : t.attempt = s.attempt := by
  refine inBackground_attempt h fun h => ?_
  split at h
  · cases h; rfl
  · split at h <;> cases h <;> rfl

end

/-- Without a record an event of the client's transport leaves the attempt alone (D18). -/
theorem exec_clientEvent_attempt {i : Instr} {states : List ClientState} {s t : State}
    (hi : clientEventStates i = some states) (hnone : s.clRec = none) (h : exec i s = .next t) :
    t.attempt = s.attempt := by
  rw [exec_clientEvent_ignored hi (state_not_mem_of_no_record hnone states)] at h
  exact inBackground_attempt h fun h => by cases h; rfl

/-- The second part of a tick without a record: it does nothing, or it starts a connection because the backoff is over. -/
theorem tickReconnect_eq_next {now : Time} {s t : State} (hnone : s.clRec = none) (h : tickReconnect now s = .next t) :
    (backoffOver now s = false ∧ t = s) ∨
    (backoffOver now s = true ∧ t.connects = true ∧ t.out.errors = s.out.errors) := by
  cases hover : backoffOver now s with
  | false =>
    rw [tickReconnect_of_not_over hover] at h
    cases h
    exact .inl ⟨rfl, rfl⟩
  | true =>
    rw [tickReconnect_of_over hnone hover] at h
    rcases initiate_cases now s with ⟨⟨r, hr⟩, -⟩ | ⟨-, -, e⟩ | ⟨a, -, -, e⟩
    · cases hr.symm.trans hnone
    · cases h.symm.trans e
    · obtain rfl := Host.Outcome.next.inj (h.symm.trans e)
      exact .inr ⟨rfl, by simp [State.connects], rfl⟩

/-- Without a record a tick does nothing, or it starts a connection because the backoff is over (R161 part 2). -/
theorem execClTick_of_no_record {now : Time} {s t : State} (hnone : s.clRec = none) (h : execClTick now s = .next t) :
    t = s.fresh ∨ (backoffOver now s = true ∧ t.connects = true) := by
  obtain ⟨-, -, h⟩ := inBackground_eq_next h
  rw [tickTimeout_of_not_exceeded fun r hr => by cases hr.symm.trans hnone] at h
  rcases tickReconnect_eq_next (s := s.fresh) hnone h with ⟨-, ht⟩ | ⟨hover, hconn, -⟩
  · exact .inl ht
  · exact .inr ⟨hover, hconn⟩

/-- Without a record, what starts no connection leaves the attempt alone; only a direct CL.INITIATE is left out. -/
theorem exec_quiet_attempt {i : Instr} {s t : State} (hi : ∀ now, i ≠ .clInitiate now) (hnone : s.clRec = none)
    (h : exec i s = .next t) (hquiet : t.connects = false) : t.attempt = s.attempt := by
  cases i with
  | fqPush => exact execFqPush_attempt h
  | fqPop => exact execFqPop_attempt h
  | fcEncode => exact execFcEncode_attempt h
  | fcDecode => exact execFcDecode_attempt h
  | biIngress => exact execBiIngress_attempt h
  | beEgress => exact execBeEgress_attempt h
  | neEgress => exact execNeEgress_attempt h
  | clInitiate now => exact absurd rfl (hi now)
  | clTick now =>
    rcases execClTick_of_no_record hnone h with rfl | ⟨-, hconn⟩
    · rfl
    · cases hconn.symm.trans hquiet
  | clConnected | clConnfail | clRecv | clEos | clError => exact exec_clientEvent_attempt rfl hnone h
  | clPoll => exact execClPoll_attempt h
  | slSetup => exact execSlSetup_attempt h
  | slAccept => exact execSlAccept_attempt h
  | slRecv => exact execSlRecv_attempt h
  | slEos => exact execSlEos_attempt h
  | slError => exact execSlError_attempt h
  | slEnqueue => exact execSlEnqueue_attempt h
  | slSend => exact execSlSend_attempt h
  | slSent => exact execSlSent_attempt h
  | slPoll => exact execSlPoll_attempt h
  | alSet => exact execAlSet_attempt h
  | alClearif => exact execAlClearif_attempt h
  | alGet => exact execAlGet_attempt h
  | wireFrame => exact execWireFrame_attempt h

/-! ## From the abort to the next connect (R171, R173) -/

/-- The client has no transport and waits for the backoff since `since`. -/
def State.waitsSince (s : State) (since : Time) : Prop := s.attempt = (none, some since)

theorem State.waitsSince_iff (s : State) (since : Time) :
    s.waitsSince since ↔ s.clRec = none ∧ s.clRetryRef = some since := Prod.mk_inj

/-- A tick that times out and starts nothing leaves the client waiting from then on (D14). -/
theorem waitsSince_of_timeout {now : Time} {s t : State} (h : execClTick now s = .next t)
    (herr : .handshakeTimeout ∈ t.out.errors) (hquiet : t.connects = false) : t.waitsSince now := by
  obtain ⟨-, -, h⟩ := inBackground_eq_next h
  rcases tickTimeout_cases now s.fresh with ⟨r, -, -, -, e⟩ | ⟨-, e⟩ <;> rw [e] at h
  · rcases tickReconnect_eq_next rfl h with ⟨-, rfl⟩ | ⟨-, hconn, -⟩
    · rfl
    · cases hconn.symm.trans hquiet
  · have hnoerr : t.out.errors = [] := by
      cases hc : s.clRec with
      | some r => rw [tickReconnect_of_record now (s := s.fresh) hc] at h; cases h; rfl
      | none =>
        rcases tickReconnect_eq_next (s := s.fresh) hc h with ⟨-, rfl⟩ | ⟨-, -, herrs⟩
        · rfl
        · exact herrs
    rw [hnoerr] at herr
    cases herr

/-- A quiet run keeps the client waiting. -/
theorem QuietRun.waitsSince {t u : State} {since : Time} (h : QuietRun t u) (ht : t.waitsSince since) :
    u.waitsSince since := by
  induction h with
  | done => exact ht
  | op s t u i hi hexec hquiet _ ih =>
    obtain ⟨hnone, -⟩ := (s.waitsSince_iff since).mp ht
    exact ih ((exec_quiet_attempt hi (s := s.setAgent (agentOf i)) hnone hexec hquiet).trans ht)

theorem execAs_clTick (now : Time) (s : State) :
    execAs (.clTick now) s = execClTick now (s.setAgent .background) := rfl

/-- Settles O32: the run from the abort keeps the client waiting since `now1`, and a tick of a waiting client connects only
with the backoff over. -/
theorem backoffRunsFromTheAbort : Obligations.BackoffRunsFromTheAbort := by
  intro now1 now2 s t u v hfirst herr hquiet hrun hsecond hconn
  rw [execAs_clTick] at hfirst hsecond
  have hwaits : u.waitsSince now1 := hrun.waitsSince (waitsSince_of_timeout hfirst herr hquiet)
  obtain ⟨hnone, href⟩ := (u.waitsSince_iff now1).mp hwaits
  rcases execClTick_of_no_record (s := u.setAgent .background) hnone hsecond with rfl | ⟨hover, -⟩
  · cases hconn
  · exact (backoffOver_iff now2 _).mp hover now1 href

end Sys2Proof.Machine
end

section
/-! SUPPORT. The server's state machine (spec/45_server_link.md R180 to R189): each operation on its record, what it does
without one (D18), and the four operations that run the loop of SL.SEND; the obligations about single operations. -/

namespace Sys2Proof.Machine

/-! ## Without a record -/

/-- The operations that act on the server's record alone; a poll names a transport and aborts it where there is no record. -/
def needsServerRec : Instr → Bool
  | .slRecv _ | .slEos | .slError | .slEnqueue _ | .slSend | .slSent => true
  | _ => false

/-- Without a record such an operation changes nothing (R190, D18). -/
theorem exec_of_no_serverRec {i : Instr} {s : State} (hi : needsServerRec i = true) (hs : s.ready = true)
    (hnone : s.slRec = none) : exec i s = .next { s with out := {} } := by
  have hrec : s.fresh.slRec = none := hnone
  cases i with
  | slRecv | slEos | slError | slEnqueue | slSend | slSent =>
    simp only [exec, execSlRecv, execSlEos, execSlError, execSlEnqueue, execSlSend, execSlSent, sendPending,
      inBackground_of_ready hs, hrec]
    rfl
  | _ => cases hi

/-! ## With a record -/

section
variable {s : State} {r : ServerRec}

theorem exec_slRecv_eq (bytes : List Byte) (hs : s.ready = true) (hr : s.slRec = some r) :
    exec (.slRecv bytes) s =
      if r.state = .closing then .next s.fresh
      else
        .next (((ingest (r.rxPending ++ bytes) s.fresh).setSlRec
          (some { r with state := .received, rxPending := undecodedTail (r.rxPending ++ bytes) })).emit
            (.recved r.handle (decodeBuffer (r.rxPending ++ bytes)).2)) := by
  rw [exec, execSlRecv, inBackground_of_ready hs]
  simp only [State.fresh_slRec, hr]

theorem exec_slEos_eq (hs : s.ready = true) (hr : s.slRec = some r) :
    exec .slEos s =
      if r.txPending = [] then .next (slFinalize r (s.fresh.raise .peerClosed))
      else .next (sendPending ((s.fresh.raise .peerClosed).setSlRec (some { r with state := .closing }))) := by
  rw [exec, execSlEos, inBackground_of_ready hs]
  simp only [State.fresh_slRec, hr]

theorem exec_slSend_eq (hs : s.ready = true) : exec .slSend s = .next (sendPending s.fresh) := by
  rw [exec, execSlSend, inBackground_of_ready hs]

theorem exec_slSent_eq (hs : s.ready = true) (hr : s.slRec = some r) :
    exec .slSent s =
      if r.txPending ≠ [] then .next (sendPending s.fresh)
      else if s.cfg.slCloseOnSent = true ∧ r.state = .closing then .next (slFinalize r s.fresh)
      else .next s.fresh := by
  rw [exec, execSlSent, inBackground_of_ready hs]
  simp only [State.fresh_slRec, hr]
  rfl

theorem exec_slPoll_eq (h : Handle) (hs : s.ready = true) (hr : s.slRec = some r) :
    exec (.slPoll h) s =
      if r.handle ≠ h then .next (s.fresh.emit (.abort h))
      else if r.txPending ≠ [] then .next (sendPending s.fresh)
      else if r.state = .closing then .next (slFinalize r s.fresh)
      else .next s.fresh := by
  rw [exec, execSlPoll, inBackground_of_ready hs]
  simp only [State.fresh_slRec, hr]

end

theorem exec_slPoll_of_no_record {s : State} (h : Handle) (hs : s.ready = true) (hnone : s.slRec = none) :
    exec (.slPoll h) s = .next (s.fresh.emit (.abort h)) := by
  rw [exec, execSlPoll, inBackground_of_ready hs]
  simp only [State.fresh_slRec, hnone]

/-- An operation that comes down to a flow-controlled send from `u` runs the rule's loop from there, with the outcome of
R191. -/
theorem exec_runs_send {i : Instr} {s u : State} {r : ServerRec} (h : exec i s = .next (sendPending u))
    (hr : u.slRec = some r) : ∃ t, exec i s = .next t ∧ Sends u t ∧ SendOutcome u r t :=
  ⟨sendPending u, h, sendPending_spec hr⟩

/-! ## The obligations about setup, accept and the record -/

/-- Settles O39: the listener bit decides. -/
theorem setupListensOnce : Obligations.SetupListensOnce := by
  intro s hs
  rw [exec, execSlSetup, inBackground_of_ready hs]
  exact ⟨fun hoff => if_neg (Bool.eq_false_iff.mp hoff), fun hon => if_pos hon⟩

/-- Settles O40: the two refusals come first, in the rule's order. -/
theorem acceptCreatesRecordAndTakesTheLink : Obligations.AcceptCreatesRecordAndTakesTheLink := by
  intro h s hs
  rw [exec, execSlAccept, inBackground_of_ready hs]
  refine ⟨fun hon hnone => ?_, fun hoff => if_pos hoff, fun hon hrec => ?_⟩
  · have hfree : ¬ s.slRec.isSome = true := by simp [hnone]
    exact (if_neg (Bool.not_eq_false _ ▸ hon)).trans (if_neg hfree)
  · have htaken : s.slRec.isSome = true := Option.isSome_iff_ne_none.mpr hrec
    exact (if_neg (Bool.not_eq_false _ ▸ hon)).trans (if_pos htaken)

/-- Settles O43: the record goes and `AL.CLEARIF` (R201) looks at its handle. -/
theorem serverErrorReleasesTheRecord : Obligations.ServerErrorReleasesTheRecord := by
  intro s hs
  refine ⟨fun r hr => ?_, exec_of_no_serverRec rfl hs⟩
  rw [exec, execSlError, inBackground_of_ready hs]
  simp only [State.fresh_slRec, hr, clearLinkIf_eq]
  rfl

/-- Settles O44: the record with its pending output grown, and no loop. -/
theorem enqueueAppendsPendingOutput : Obligations.EnqueueAppendsPendingOutput := by
  intro bytes s hs
  refine ⟨fun r hr => ?_, exec_of_no_serverRec rfl hs⟩
  rw [exec, execSlEnqueue, inBackground_of_ready hs]
  simp only [State.fresh_slRec, hr]
  rfl

/-- Settles O41: the receive path of R129 (`ingest_spec`) on the pending bytes followed by the new ones, and the scan the
decoder runs. -/
theorem serverReceiveDecodesIntoTheQueue : Obligations.ServerReceiveDecodesIntoTheQueue := by
  intro bytes s hs _ hw
  refine ⟨fun r hr hstate => ?_, fun hclosing => ?_⟩
  · obtain ⟨-, hinv, -⟩ := decodeBuffer_spec (r.rxPending ++ bytes)
    obtain ⟨Q, hin, hQ, htail, hcontents⟩ := ingest_spec (r.rxPending ++ bytes) s.fresh hw hinv
    refine ⟨Q, _, _, decodeBuffer_scan (r.rxPending ++ bytes), ?_, hQ, htail, hcontents⟩
    rw [exec_slRecv_eq bytes hs hr, if_neg hstate, hin]
    rfl
  · cases hr : s.slRec with
    | none => rw [exec_of_no_serverRec rfl hs hr, hr]
    | some r =>
      rw [exec_slRecv_eq bytes hs hr, if_pos (hclosing r hr), ← hr]
      rfl

/-! ## The obligations about the pending output -/

/-- Settles O45: `sendPending_spec` on the state with a fresh output. -/
theorem sendRunsTheLoop : Obligations.SendRunsTheLoop := by
  intro s hs
  refine ⟨fun r hr => ?_, exec_of_no_serverRec rfl hs⟩
  obtain ⟨t, hexec, hloop, -⟩ := exec_runs_send (u := s.fresh) (exec_slSend_eq hs) hr
  exact ⟨t, hexec, hloop⟩

/-- Settles O42: what is pending decides between `sl_finalize` (R182) and a send from the record in `Closing`. -/
theorem serverEndOfStreamFlushesThenCloses : Obligations.ServerEndOfStreamFlushesThenCloses := by
  intro s hs
  refine ⟨fun r hr hdone => ?_, fun r hr hpending => ?_, exec_of_no_serverRec rfl hs⟩
  · rw [exec_slEos_eq hs hr, if_pos hdone, slFinalize_eq]
    rfl
  · have hexec := (exec_slEos_eq hs hr).trans (if_neg hpending)
    exact exec_runs_send hexec rfl

/-- Settles O47: what is pending decides, then the parameter and the state (D23). -/
theorem sentRetriesPendingOutput : Obligations.SentRetriesPendingOutput := by
  intro s hs
  refine ⟨fun r hr hpending => ?_, fun r hr hdone hparam hstate => ?_, fun r hr hdone hkeep => ?_,
    exec_of_no_serverRec rfl hs⟩
  · exact exec_runs_send (u := s.fresh) ((exec_slSent_eq hs hr).trans (if_pos hpending)) hr
  · rw [exec_slSent_eq hs hr, if_neg (not_not_intro hdone), if_pos ⟨hparam, hstate⟩, slFinalize_eq]
    rfl
  · have hstays : ¬ (s.cfg.slCloseOnSent = true ∧ r.state = .closing) := fun ⟨hparam, hstate⟩ =>
      hkeep.elim (fun hoff => Bool.eq_false_iff.mp hoff hparam) fun hne => hne hstate
    rw [exec_slSent_eq hs hr, if_neg (not_not_intro hdone), if_neg hstays]
    rfl

/-- Settles O48: the handle decides, then what is pending, then the state. -/
theorem serverPollAbortsSendsOrCloses : Obligations.ServerPollAbortsSendsOrCloses := by
  intro h s hs
  refine ⟨fun hother => ?_, fun r hr hown hpending => ?_, fun r hr hown hdone hstate => ?_,
    fun r hr hown hdone hstate => ?_⟩
  · cases hr : s.slRec with
    | none => rw [exec_slPoll_of_no_record h hs hr, ← hr]; rfl
    | some r => rw [exec_slPoll_eq h hs hr, if_pos (hother r hr), ← hr]; rfl
  all_goals have hpoll := (exec_slPoll_eq h hs hr).trans (if_neg (not_not_intro hown))
  · exact exec_runs_send (u := s.fresh) (hpoll.trans (if_pos hpending)) hr
  · rw [hpoll, if_neg (not_not_intro hdone), if_pos hstate, slFinalize_eq, hown]
    rfl
  · rw [hpoll, if_neg (not_not_intro hdone), if_neg hstate]
    rfl

end Sys2Proof.Machine
end

section
/-! SUPPORT. No operation loses a byte of the server's output (spec/45_server_link.md R186, R187, R191): what an operation
has written to the record's transport, followed by what is pending, is what was pending when it began, followed by what
it enqueued; and the obligation about a run. -/

namespace Sys2Proof.Machine

/-! ## The output stream of the record -/

theorem writtenTo_append (h : Handle) (cs ds : List Command) :
    writtenTo h (cs ++ ds) = writtenTo h cs ++ writtenTo h ds := by
  induction cs with
  | nil => rfl
  | cons c cs ih => cases c <;> simp [writtenTo, ih]

theorem writtenTo_writes (h : Handle) (chunks : List (List Byte)) :
    writtenTo h (chunks.map fun c => .write h c) = chunks.flatten := by
  induction chunks with
  | nil => rfl
  | cons c chunks ih => simp [writtenTo, ih]

/-- The record's handle with its output stream: the bytes written to its transport in this operation, then those pending. -/
def State.stream (s : State) : Option (Handle × List Byte) :=
  s.slRec.map fun r => (r.handle, writtenTo r.handle s.out.cmds ++ r.txPending)

theorem fresh_stream {s : State} {r : ServerRec} (hr : s.slRec = some r) :
    s.fresh.stream = some (r.handle, r.txPending) := by
  rw [State.stream, State.fresh_slRec, hr]
  rfl

/-! ## What moves no byte of the stream -/

/-- A command that writes nothing, such as `close` or `submit`. -/
theorem emit_stream {c : Command} (hc : ∀ h, writtenTo h [c] = []) (s : State) : (s.emit c).stream = s.stream := by
  simp [State.stream, State.emit, State.setOut, writtenTo_append, hc]

theorem setQueue_stream (q : QSel) (Q : FrameQueue) (s : State) : (s.setQueue q Q).stream = s.stream := by
  cases q <;> rfl

theorem clearLinkIf_stream (s : State) (h : Handle) : (s.clearLinkIf h).stream = s.stream := by
  rw [clearLinkIf_eq]
  rfl

theorem pushFrame_stream (q : QSel) (f : BusFrame) (s : State) : (pushFrame q f s).2.stream = s.stream := by
  rcases pushFrame_cases q f s with ⟨-, e⟩ | ⟨-, e⟩ <;> rw [e]
  · rfl
  · exact setQueue_stream q _ s

theorem popFrame_stream (q : QSel) (s : State) : (popFrame q s).2.stream = s.stream := by
  rcases popFrame_cases q s with ⟨-, e⟩ | ⟨-, e⟩ <;> rw [e]
  exact setQueue_stream q _ s

theorem pushAll_stream (q : QSel) (fs : List BusFrame) (s : State) : (pushAll q fs s).stream = s.stream := by
  induction fs generalizing s with
  | nil => rfl
  | cons f fs ih => exact (ih _).trans (pushFrame_stream q f s)

theorem ingest_stream (buf : List Byte) (s : State) : (ingest buf s).stream = s.stream :=
  pushAll_stream .tx _ (s.noteIncomplete _)

theorem submitOrDrop_stream (f : BusFrame) (s : State) : (submitOrDrop f s).stream = s.stream := by
  unfold submitOrDrop
  rw [drawTxSlot_state]
  split
  · exact emit_stream (fun _ => rfl) _
  · rfl

theorem drainTx_stream {k : Nat} {s t : State} (h : drainTx k s = .next t) : t.stream = s.stream := by
  induction k generalizing s with
  | zero => cases h
  | succ k ih =>
    have hpop := popFrame_stream .tx s
    unfold drainTx at h
    generalize popFrame .tx s = x at h hpop
    obtain ⟨_ | f, s'⟩ := x
    · cases h; exact hpop
    · exact ((ih h).trans (submitOrDrop_stream f s')).trans hpop

theorem ingress_stream {p : PFrame} {s t : State} (h : ingress p s = .next t) : t.stream = s.stream := by
  rcases ingress_cases p s with ⟨-, e⟩ | ⟨-, -, e⟩ | ⟨-, -, e⟩ <;> rw [e] at h <;> cases h <;> rfl

theorem takeInterrupts_stream {ps : List PFrame} {s t : State} (h : takeInterrupts ps s = .next t) :
    t.stream = s.stream := by
  induction ps generalizing s with
  | nil => cases h; rfl
  | cons p ps ih =>
    obtain ⟨u, hu, h⟩ := (andThen_eq_next _ _ _).mp h
    obtain ⟨v, hv, hu⟩ := (andThen_eq_next _ _ _).mp hu
    cases hu
    exact (ih h).trans ((ingress_stream hv).trans rfl)

theorem popBoundary_stream {q : QSel} {s t : State} (h : popBoundary q s = .next t) : t.stream = s.stream := by
  cases q with
  | tx => cases h; rfl
  | rx =>
    rw [popBoundary, preempt_eq_interruptsOf] at h
    exact (takeInterrupts_stream h).trans rfl

theorem pushMicro_stream (q : QSel) (f : BusFrame) (s : State) : (pushMicro q f s).2.stream = s.stream := by
  unfold pushMicro
  split
  · rfl
  · exact (setQueue_stream q _ (pushP3 q f (pushP1 q s))).trans (setQueue_stream q _ (pushP1 q s))

theorem popMicro_stream {q : QSel} {s t : State} {f : Option BusFrame} (h : popMicro q s = .next (f, t)) :
    t.stream = s.stream := by
  obtain ⟨s1, h1, h⟩ := (andThen_eq_next _ _ _).mp h
  have b1 : s1.stream = s.stream := (popBoundary_stream h1).trans rfl
  split at h
  · cases h; exact b1
  · obtain ⟨s2, h2, h⟩ := (andThen_eq_next _ _ _).mp h
    obtain ⟨s3, h3, h⟩ := (andThen_eq_next _ _ _).mp h
    cases h
    calc (popC4 q s3).stream
      _ = s3.stream := setQueue_stream q _ s3
      _ = s2.stream := (popBoundary_stream h3).trans rfl
      _ = s1.stream := popBoundary_stream h2
      _ = s.stream := b1

theorem tickTimeout_stream (now : Time) (s : State) : (tickTimeout now s).stream = s.stream := by
  rcases tickTimeout_cases now s with ⟨r, -, -, -, e⟩ | ⟨-, e⟩ <;> rw [e]
  exact emit_stream (c := .abort r.handle) (fun _ => rfl) s

theorem initiate_stream {now : Time} {s t : State} (h : initiate now s = .next t) : t.stream = s.stream := by
  rcases initiate_cases now s with ⟨-, e⟩ | ⟨-, -, e⟩ | ⟨a, -, -, e⟩ <;> rw [e] at h <;> cases h
  · rfl
  · exact emit_stream (c := .connect a s.cfg.destAddr s.cfg.destPort) (fun _ => rfl) s

theorem clFinalize_stream (r : ClientRec) (s : State) : (clFinalize r s).stream = s.stream := by
  rw [clFinalize_eq]
  exact emit_stream (c := if s.cfg.clCleanup = .close then .close r.handle else .abort r.handle)
    (fun _ => by split <;> rfl) s

/-- A flow-controlled send moves bytes from what is pending to what is written, and loses none (R191). -/
theorem sendPending_stream {s : State} {r : ServerRec} (hr : s.slRec = some r) :
    (sendPending s).stream = s.stream := by
  obtain ⟨-, used, chunks, rest, drawn, oks, k, e, -, hflat, -⟩ := sendPending_spec hr
  rw [e]
  simp only [State.stream, hr, Option.map_some, writtenTo_append, writtenTo_writes, List.append_assoc, hflat]

/-! ## The operations -/

section
variable {s t : State}

theorem execFqPush_stream {q : QSel} {f : BusFrame} (h : execFqPush q f s = .next t) : t.stream = s.fresh.stream := by
  obtain ⟨-, -, -, h⟩ := atProducerPort_eq_next h
  split at h <;> cases h
  exact pushMicro_stream q f s.fresh

theorem execFqPop_stream {q : QSel} (h : execFqPop q s = .next t) : t.stream = s.fresh.stream := by
  obtain ⟨-, -, h⟩ := atConsumerPort_eq_next h
  obtain ⟨⟨f, u⟩, hu, h⟩ := (andThen_eq_next _ _ _).mp h
  have hpop := popMicro_stream hu
  cases h
  exact hpop

/-- NE.EGRESS writes past the pending output (R153) and leaves the record alone. -/
theorem execNeEgress_slRec (h : execNeEgress s = .next t) : t.slRec = s.slRec := by
  obtain ⟨-, -, h⟩ := inBackground_eq_next h
  split at h
  · cases h; rfl
  · split at h
    · obtain ⟨htraffic, -⟩ := egressRun_traffic h
      exact congrArg Links.server htraffic.links
    · cases h; rfl

theorem execClTick_stream {now : Time} (h : execClTick now s = .next t) : t.stream = s.fresh.stream := by
  obtain ⟨-, -, h⟩ := inBackground_eq_next h
  refine Eq.trans ?_ (tickTimeout_stream now s.fresh)
  unfold tickReconnect at h
  split at h
  · exact initiate_stream h
  · cases h; rfl

theorem execClRecv_stream {bytes : List Byte} (h : execClRecv bytes s = .next t) : t.stream = s.fresh.stream := by
  obtain ⟨-, -, h⟩ := inBackground_eq_next h
  split at h
  · cases h; rfl
  · split at h <;> cases h
    · exact (emit_stream (fun _ => rfl) _).trans (ingest_stream _ s.fresh)
    · rfl

theorem execClEos_stream (h : execClEos s = .next t) : t.stream = s.fresh.stream := by
  obtain ⟨-, -, h⟩ := inBackground_eq_next h
  split at h <;> cases h
  · rfl
  · exact (clFinalize_stream _ _).trans rfl

theorem execClError_stream (h : execClError s = .next t) : t.stream = s.fresh.stream := by
  obtain ⟨-, -, h⟩ := inBackground_eq_next h
  split at h <;> cases h
  · rfl
  · exact (clearLinkIf_stream _ _).trans rfl

end

/-! ### The operations on the server's record -/

section
variable {s t : State} {r : ServerRec}

/-- A record present is a refusal (D19), so an accept takes no record's place. -/
theorem execSlAccept_ne_next {a : Handle} (hr : s.slRec = some r) : execSlAccept a s ≠ .next t := by
  intro h
  obtain ⟨-, -, h⟩ := inBackground_eq_next h
  split at h
  · cases h
  · simp only [State.fresh_slRec, hr] at h
    cases h

theorem execSlRecv_stream {bytes : List Byte} (hr : s.slRec = some r) (h : execSlRecv bytes s = .next t) :
    t.stream = s.fresh.stream := by
  obtain ⟨-, -, h⟩ := inBackground_eq_next h
  simp only [State.fresh_slRec, hr] at h
  split at h <;> cases h
  · rfl
  · refine (emit_stream (fun _ => rfl) _).trans ?_
    have hin := ingest_calm (r.rxPending ++ bytes) s.fresh
    have hrec : (ingest (r.rxPending ++ bytes) s.fresh).slRec = some r := (congrArg Links.server hin.links).trans hr
    rw [← ingest_stream (r.rxPending ++ bytes) s.fresh, State.stream, State.stream, hrec]
    rfl

theorem execSlEos_stream (hr : s.slRec = some r) (h : execSlEos s = .next t) (ht : t.slRec ≠ none) :
    t.stream = s.fresh.stream := by
  obtain ⟨-, -, h⟩ := inBackground_eq_next h
  simp only [State.fresh_slRec, hr] at h
  split at h <;> cases h
  · exact absurd rfl ht
  · rw [sendPending_stream (r := { r with state := .closing }) rfl, fresh_stream hr]
    rfl

theorem execSlError_released (hr : s.slRec = some r) (h : execSlError s = .next t) : t.slRec = none := by
  obtain ⟨-, -, h⟩ := inBackground_eq_next h
  simp only [State.fresh_slRec, hr] at h
  cases h
  rw [clearLinkIf_eq]
  rfl

/-- An enqueue adds its bytes at the end of the stream (R186). -/
theorem execSlEnqueue_stream {bytes : List Byte} (hr : s.slRec = some r) (h : execSlEnqueue bytes s = .next t) :
    t.stream = some (r.handle, r.txPending ++ bytes) := by
  obtain ⟨-, -, h⟩ := inBackground_eq_next h
  simp only [State.fresh_slRec, hr] at h
  cases h
  rfl

theorem execSlSent_stream (hr : s.slRec = some r) (h : execSlSent s = .next t) (ht : t.slRec ≠ none) :
    t.stream = s.fresh.stream := by
  obtain ⟨-, -, h⟩ := inBackground_eq_next h
  simp only [State.fresh_slRec, hr] at h
  split at h
  · cases h; exact sendPending_stream (s := s.fresh) hr
  · split at h <;> cases h
    · exact absurd rfl ht
    · rfl

theorem execSlPoll_stream {a : Handle} (hr : s.slRec = some r) (h : execSlPoll a s = .next t) (ht : t.slRec ≠ none) :
    t.stream = s.fresh.stream := by
  obtain ⟨-, -, h⟩ := inBackground_eq_next h
  simp only [State.fresh_slRec, hr] at h
  split at h
  · cases h; rfl
  · split at h
    · cases h; exact sendPending_stream (s := s.fresh) hr
    · split at h <;> cases h
      · exact absurd rfl ht
      · rfl

/-- Every operation that keeps the record keeps the stream, but for SL.ENQUEUE, which adds to it, and NE.EGRESS, which
writes past it. -/
theorem exec_stream {i : Instr} (hne : i ≠ .neEgress) (henq : ∀ bytes, i ≠ .slEnqueue bytes) (hr : s.slRec = some r)
    (h : exec i s = .next t) (ht : t.slRec ≠ none) : t.stream = s.fresh.stream := by
  unfold exec at h
  cases i with
  | fqPush => exact execFqPush_stream h
  | fqPop => exact execFqPop_stream h
  | biIngress => exact ingress_stream (inInterrupt_eq_next h).2.2
  | beEgress => exact drainTx_stream (inBackground_eq_next h).2.2
  | neEgress => exact absurd rfl hne
  | fcDecode | wireFrame | alSet | alGet =>
    obtain ⟨-, -, h⟩ := inBackground_eq_next h
    cases h
    rfl
  | fcEncode | slSetup =>
    obtain ⟨-, -, h⟩ := inBackground_eq_next h
    split at h <;> cases h
    rfl
  | alClearif =>
    obtain ⟨-, -, h⟩ := inBackground_eq_next h
    cases h
    exact clearLinkIf_stream _ _
  | clConnected | clConnfail | clPoll =>
    obtain ⟨-, -, h⟩ := inBackground_eq_next h
    split at h
    · cases h; rfl
    · split at h <;> cases h <;> rfl
  | clInitiate => exact initiate_stream (inBackground_eq_next h).2.2
  | clTick => exact execClTick_stream h
  | clRecv => exact execClRecv_stream h
  | clEos => exact execClEos_stream h
  | clError => exact execClError_stream h
  | slAccept => exact absurd h (execSlAccept_ne_next hr)
  | slRecv => exact execSlRecv_stream hr h
  | slEos => exact execSlEos_stream hr h ht
  | slError => exact absurd (execSlError_released hr h) ht
  | slEnqueue bytes => exact absurd rfl (henq bytes)
  | slSend =>
    obtain ⟨-, -, h⟩ := inBackground_eq_next h
    cases h
    exact sendPending_stream (s := s.fresh) hr
  | slSent => exact execSlSent_stream hr h ht
  | slPoll => exact execSlPoll_stream hr h ht

/-! ## No byte is lost (R191) -/

theorem enqueuedBy_eq_nil {i : Instr} (h : ∀ bytes, i ≠ .slEnqueue bytes) : enqueuedBy i = [] := by
  cases i with
  | slEnqueue bytes => exact absurd rfl (h bytes)
  | _ => rfl

/-- In one operation: what was pending, then what is appended, is what the sends write, then what is pending. -/
theorem exec_loses_no_byte {i : Instr} (hr : s.slRec = some r) (h : exec i s = .next t) (ht : t.slRec ≠ none) :
    ∃ q, t.slRec = some q ∧ q.handle = r.handle ∧ r.txPending ++ enqueuedBy i = sentBy r.handle i t ++ q.txPending := by
  by_cases hne : i = .neEgress
  · subst hne
    exact ⟨r, (execNeEgress_slRec h).trans hr, rfl, by simp [enqueuedBy, sentBy]⟩
  · have hstream : t.stream = some (r.handle, r.txPending ++ enqueuedBy i) := by
      by_cases henq : ∃ bytes, i = .slEnqueue bytes
      · obtain ⟨bytes, rfl⟩ := henq
        exact execSlEnqueue_stream hr h
      · have hother : ∀ bytes, i ≠ .slEnqueue bytes := not_exists.mp henq
        rw [exec_stream hne hother hr h ht, fresh_stream hr, enqueuedBy_eq_nil hother, List.append_nil]
    obtain ⟨q, hq, hpair⟩ := Option.map_eq_some_iff.mp hstream
    obtain ⟨hhandle, hbytes⟩ := Prod.mk.inj hpair
    exact ⟨q, hq, hhandle, by rw [sentBy, if_neg hne, ← hhandle, hbytes]⟩

end

/-- Over a run: the operations' accounts put one after another. -/
theorem ServerRun.loses_no_byte {h : Handle} {s u : State} {r : ServerRec} {enq sent : List Byte}
    (hrun : ServerRun h s enq sent u) (hr : s.slRec = some r) (hh : r.handle = h) :
    ∃ q, u.slRec = some q ∧ q.handle = h ∧ r.txPending ++ enq = sent ++ q.txPending := by
  induction hrun generalizing r with
  | done s => exact ⟨r, hr, hh, List.append_nil _⟩
  | op s t u i enq sent hexec hkept _ ih =>
    obtain ⟨p, hp, hph, hfirst⟩ := exec_loses_no_byte (s := s.setAgent (agentOf i)) hr hexec hkept
    obtain ⟨q, hq, hqh, hrest⟩ := ih hp (hph.trans hh)
    refine ⟨q, hq, hqh, ?_⟩
    rw [hh] at hfirst
    rw [← List.append_assoc, hfirst, List.append_assoc, hrest, List.append_assoc]

/-- Settles O46: one send by `sendPending_spec`, a run by induction on its operations. -/
theorem sendLosesNoByte : Obligations.SendLosesNoByte := by
  refine ⟨fun s r hs hr => ?_, fun s u r enq sent hr hrun => hrun.loses_no_byte hr rfl⟩
  obtain ⟨t, hexec, -, houtcome⟩ := exec_runs_send (u := s.fresh) (exec_slSend_eq hs) hr
  exact ⟨t, hexec, houtcome⟩

end Sys2Proof.Machine
end

section
/-! SUPPORT. The active link slot (spec/46_active_link.md R200 to R205): what each operation does to it, and the obligations
about the three slot operations, the operations outside the table of R205, and the ends of transports. -/

namespace Sys2Proof.Machine

/-! ## The three slot operations -/

/-- Settles O49: the body is `State.setLink`, on the state with a fresh output. -/
theorem setOverwritesTheSlot : Obligations.SetOverwritesTheSlot := by
  intro h s hs
  rw [exec, execAlSet, inBackground_of_ready hs]
  rfl

/-- Settles O50: the body is `State.clearLinkIf`, which `clearLinkIf_eq` describes. -/
theorem clearifClearsOnlyItsOwnHandle : Obligations.ClearifClearsOnlyItsOwnHandle := by
  intro h s hs
  rw [exec, execAlClearif, inBackground_of_ready hs, clearLinkIf_eq]
  rfl

/-- Settles O51: the body writes the answer alone. -/
theorem getReadsTheSlot : Obligations.GetReadsTheSlot := by
  intro s hs
  rw [exec, execAlGet, inBackground_of_ready hs]
  rfl

/-! ## What leaves the slot alone -/

theorem Traffic.alSlot {s t : State} (h : Traffic s t) : t.alSlot = s.alSlot := congrArg Links.slot h.links

theorem ingest_alSlot (buf : List Byte) (s : State) : (ingest buf s).alSlot = s.alSlot := (ingest_calm buf s).alSlot

theorem initiate_alSlot {now : Time} {s t : State} (h : initiate now s = .next t) : t.alSlot = s.alSlot := by
  rcases initiate_cases now s with ⟨-, e⟩ | ⟨-, -, e⟩ | ⟨a, -, -, e⟩ <;> rw [e] at h <;> cases h <;> rfl

theorem tickTimeout_alSlot (now : Time) (s : State) : (tickTimeout now s).alSlot = s.alSlot := by
  rcases tickTimeout_cases now s with ⟨r, -, -, -, e⟩ | ⟨-, e⟩ <;> rw [e]

theorem sendPending_alSlot (s : State) : (sendPending s).alSlot = s.alSlot := by
  rw [sendPending_frame]

section
variable {s t : State}

theorem execFqPush_alSlot {q : QSel} {f : BusFrame} (h : execFqPush q f s = .next t) : t.alSlot = s.alSlot := by
  obtain ⟨-, -, -, h⟩ := atProducerPort_eq_next h
  split at h
  · rename_i hf
    cases h
    exact (pushMicro_traffic q s.fresh hf).1.alSlot
  · cases h

theorem execFqPop_alSlot {q : QSel} (h : execFqPop q s = .next t) : t.alSlot = s.alSlot := by
  obtain ⟨-, -, h⟩ := atConsumerPort_eq_next h
  obtain ⟨⟨r, u⟩, hu, h⟩ := (andThen_eq_next _ _ _).mp h
  cases h
  exact (popMicro_traffic hu).1.alSlot

theorem execBiIngress_alSlot {p : PFrame} (h : execBiIngress p s = .next t) : t.alSlot = s.alSlot := by
  obtain ⟨-, -, h⟩ := inInterrupt_eq_next h
  exact (ingress_calm h).alSlot

theorem execBeEgress_alSlot (h : execBeEgress s = .next t) : t.alSlot = s.alSlot := by
  obtain ⟨-, -, h⟩ := inBackground_eq_next h
  exact (drainTx_calm h).alSlot

/-- NE.EGRESS reads the slot; neither it nor the interrupts it admits write it. -/
theorem execNeEgress_alSlot (h : execNeEgress s = .next t) : t.alSlot = s.alSlot := by
  obtain ⟨-, -, h⟩ := inBackground_eq_next h
  split at h
  · cases h; rfl
  · split at h
    · exact (egressRun_traffic h).1.alSlot
    · cases h; rfl

theorem execClTick_alSlot {now : Time} (h : execClTick now s = .next t) : t.alSlot = s.alSlot := by
  obtain ⟨-, -, h⟩ := inBackground_eq_next h
  refine Eq.trans ?_ (tickTimeout_alSlot now s.fresh)
  unfold tickReconnect at h
  split at h
  · exact initiate_alSlot h
  · cases h; rfl

/-- A failed attempt never held the slot, so CL.CONNFAIL does not look at it (R163). -/
theorem execClConnfail_alSlot (h : execClConnfail s = .next t) : t.alSlot = s.alSlot := by
  obtain ⟨-, -, h⟩ := inBackground_eq_next h
  split at h
  · cases h; rfl
  · split at h <;> cases h <;> rfl

theorem execClRecv_alSlot {bytes : List Byte} (h : execClRecv bytes s = .next t) : t.alSlot = s.alSlot := by
  obtain ⟨-, -, h⟩ := inBackground_eq_next h
  split at h
  · cases h; rfl
  · split at h <;> cases h
    · exact ingest_alSlot _ s.fresh
    · rfl

theorem execClPoll_alSlot {a : Handle} (h : execClPoll a s = .next t) : t.alSlot = s.alSlot := by
  obtain ⟨-, -, h⟩ := inBackground_eq_next h
  split at h
  · cases h; rfl
  · split at h <;> cases h <;> rfl

theorem execSlRecv_alSlot {bytes : List Byte} (h : execSlRecv bytes s = .next t) : t.alSlot = s.alSlot := by
  obtain ⟨-, -, h⟩ := inBackground_eq_next h
  split at h
  · cases h; rfl
  · split at h <;> cases h
    · rfl
    · exact ingest_alSlot _ s.fresh

theorem execSlEnqueue_alSlot {bytes : List Byte} (h : execSlEnqueue bytes s = .next t) : t.alSlot = s.alSlot := by
  obtain ⟨-, -, h⟩ := inBackground_eq_next h
  split at h <;> cases h <;> rfl

theorem execSlSend_alSlot (h : execSlSend s = .next t) : t.alSlot = s.alSlot := by
  obtain ⟨-, -, h⟩ := inBackground_eq_next h
  cases h
  exact sendPending_alSlot s.fresh

end

/-- Settles O52: outside the table of R205 an operation is traffic, or touches records, answers and output only. -/
theorem onlyListedOperationsWriteTheSlot : Obligations.OnlyListedOperationsWriteTheSlot := by
  intro i s t hset hclear haccept hpoll hlisted h
  unfold exec at h
  cases i with
  | alSet a => exact absurd rfl (hset a)
  | alClearif a => exact absurd rfl (hclear a)
  | slAccept a => exact absurd rfl (haccept a)
  | slPoll a => exact absurd rfl (hpoll a)
  | clConnected | clEos | clError | slEos | slSent | slError => simp at hlisted
  | fqPush => exact execFqPush_alSlot h
  | fqPop => exact execFqPop_alSlot h
  | biIngress => exact execBiIngress_alSlot h
  | beEgress => exact execBeEgress_alSlot h
  | neEgress => exact execNeEgress_alSlot h
  | clInitiate => exact initiate_alSlot (s := s.fresh) (inBackground_eq_next h).2.2
  | clTick => exact execClTick_alSlot h
  | clConnfail => exact execClConnfail_alSlot h
  | clRecv => exact execClRecv_alSlot h
  | clPoll => exact execClPoll_alSlot h
  | slRecv => exact execSlRecv_alSlot h
  | slEnqueue => exact execSlEnqueue_alSlot h
  | slSend => exact execSlSend_alSlot h
  | fcEncode | slSetup =>
    obtain ⟨-, -, h⟩ := inBackground_eq_next h
    split at h <;> cases h
    rfl
  | fcDecode | wireFrame | alGet =>
    obtain ⟨-, -, h⟩ := inBackground_eq_next h
    cases h
    rfl

/-! ## The end of a transport (R204) -/

section
variable {s t : State} {r : ClientRec}

theorem execClEos_alSlot (hr : s.clRec = some r) (h : execClEos s = .next t) :
    t.alSlot = if s.alSlot = some r.handle then none else s.alSlot := by
  obtain ⟨-, -, h⟩ := inBackground_eq_next h
  simp only [State.fresh_clRec, hr] at h
  cases h
  rw [clFinalize_eq]
  rfl

theorem execClError_alSlot (hr : s.clRec = some r) (h : execClError s = .next t) :
    t.alSlot = if s.alSlot = some r.handle then none else s.alSlot := by
  obtain ⟨-, -, h⟩ := inBackground_eq_next h
  simp only [State.fresh_clRec, hr] at h
  cases h
  exact State.clearLinkIf_alSlot _ _

end

/-- From `s` to `t` the slot is cleared for the server record `r` if the record is gone, and is as it was otherwise. -/
def SlotFollowsRecord (r : ServerRec) (s t : State) : Prop :=
  t.alSlot = if s.alSlot = some r.handle ∧ t.slRec = none then none else s.alSlot

section
variable {s t : State} {r : ServerRec}

theorem SlotFollowsRecord.of_kept (hrec : t.slRec ≠ none) (hslot : t.alSlot = s.alSlot) : SlotFollowsRecord r s t :=
  hslot.trans (if_neg fun hgone => hrec hgone.2).symm

theorem SlotFollowsRecord.of_released (hrec : t.slRec = none)
    (hslot : t.alSlot = if s.alSlot = some r.handle then none else s.alSlot) : SlotFollowsRecord r s t := by
  simp only [SlotFollowsRecord, hslot, hrec, and_true]

theorem SlotFollowsRecord.refl (hr : s.slRec = some r) : SlotFollowsRecord r s s := .of_kept (by simp [hr]) rfl

theorem slFinalize_slotFollowsRecord (r : ServerRec) (s : State) : SlotFollowsRecord r s (slFinalize r s) := by
  rw [slFinalize_eq]
  exact .of_released rfl rfl

/-- A send keeps the record, so it keeps the link (R187). -/
theorem sendPending_slotFollowsRecord {v : ServerRec} (hv : s.slRec = some v) :
    SlotFollowsRecord r s (sendPending s) := by
  obtain ⟨rest, n, hrec, -⟩ := sendPending_slRec hv
  exact .of_kept (by simp [hrec]) (sendPending_alSlot s)

theorem execSlEos_slotFollowsRecord (hr : s.slRec = some r) (h : execSlEos s = .next t) : SlotFollowsRecord r s t := by
  obtain ⟨-, -, h⟩ := inBackground_eq_next h
  simp only [State.fresh_slRec, hr] at h
  split at h <;> cases h
  · exact slFinalize_slotFollowsRecord r (s.fresh.raise .peerClosed)
  · exact sendPending_slotFollowsRecord
      (s := (s.fresh.raise .peerClosed).setSlRec (some { r with state := .closing })) rfl

theorem execSlError_slotFollowsRecord (hr : s.slRec = some r) (h : execSlError s = .next t) :
    SlotFollowsRecord r s t := by
  obtain ⟨-, -, h⟩ := inBackground_eq_next h
  simp only [State.fresh_slRec, hr] at h
  cases h
  rw [clearLinkIf_eq]
  exact .of_released rfl rfl

theorem execSlSent_slotFollowsRecord (hr : s.slRec = some r) (h : execSlSent s = .next t) :
    SlotFollowsRecord r s t := by
  obtain ⟨-, -, h⟩ := inBackground_eq_next h
  simp only [State.fresh_slRec, hr] at h
  split at h
  · cases h; exact sendPending_slotFollowsRecord (s := s.fresh) hr
  · split at h <;> cases h
    · exact slFinalize_slotFollowsRecord r s.fresh
    · exact .refl (s := s.fresh) hr

/-- A poll of another handle aborts that transport and leaves the record and the slot alone (D18). -/
theorem execSlPoll_slotFollowsRecord {a : Handle} (hr : s.slRec = some r) (h : execSlPoll a s = .next t) :
    SlotFollowsRecord r s t := by
  obtain ⟨-, -, h⟩ := inBackground_eq_next h
  simp only [State.fresh_slRec, hr] at h
  split at h
  · cases h; exact .refl (s := s.fresh) hr
  · split at h
    · cases h; exact sendPending_slotFollowsRecord (s := s.fresh) hr
    · split at h <;> cases h
      · exact slFinalize_slotFollowsRecord r s.fresh
      · exact .refl (s := s.fresh) hr

end

/-- The four operations of the server that can end its transport. -/
theorem exec_slotFollowsRecord {i : Instr} {s t : State} {r : ServerRec}
    (hi : i ∈ [.slEos, .slSent, .slPoll r.handle, .slError]) (hr : s.slRec = some r) (h : exec i s = .next t) :
    SlotFollowsRecord r s t := by
  simp only [List.mem_cons, List.not_mem_nil, or_false] at hi
  obtain rfl | rfl | rfl | rfl := hi
  · exact execSlEos_slotFollowsRecord hr h
  · exact execSlSent_slotFollowsRecord hr h
  · exact execSlPoll_slotFollowsRecord hr h
  · exact execSlError_slotFollowsRecord hr h

/-- The two operations that end the client's transport (R166, R167). -/
theorem exec_clEnd_alSlot {i : Instr} {s t : State} {r : ClientRec} (hi : i ∈ [.clEos, .clError])
    (hr : s.clRec = some r) (h : exec i s = .next t) :
    t.alSlot = if s.alSlot = some r.handle then none else s.alSlot := by
  simp only [List.mem_cons, List.not_mem_nil, or_false] at hi
  obtain rfl | rfl := hi
  · exact execClEos_alSlot hr h
  · exact execClError_alSlot hr h

/-- Settles O53: the client's record always goes with its hold on the slot; the server's slot follows its record. -/
theorem staleEventsKeepTheLink : Obligations.StaleEventsKeepTheLink := by
  refine ⟨fun i s t r g hi hr hslot h => ?_, fun i s t r g hi hr hslot h => ?_⟩
  · have hclear := exec_clEnd_alSlot hi hr h
    simpa only [hslot, Option.some.injEq] using hclear
  · have hfollows : SlotFollowsRecord r s t := exec_slotFollowsRecord hi hr h
    simpa only [SlotFollowsRecord, hslot, Option.some.injEq] using hfollows

end Sys2Proof.Machine
end

section
/-! SUPPORT. The bus receive interrupt (spec/60_exceptions.md R214, R217, R219, R220): what one `BI.INGRESS` leaves is
written once, for the operation and for the interrupt that runs it inside another one. -/

namespace Sys2Proof.Machine

/-- FQ(rx) after the push of `f`: a full queue stays as it is (R100). -/
def State.rxOffered (s : State) (f : BusFrame) : FrameQueue :=
  if s.rx.isFull s.cfg.nRx then s.rx else s.rx.pushed s.cfg.nRx f

/-- The note of that push: QueueFull if the queue was full (R210, log 6). -/
def State.rxDrop (s : State) : List ErrorNote := if s.rx.isFull s.cfg.nRx then [.queueFull .rx] else []

theorem State.rxOffered_tail (s : State) (f : BusFrame) : (s.rxOffered f).tail = s.rx.tail := by
  unfold State.rxOffered; split <;> rfl

theorem State.rxDrop_eq (s : State) :
    s.rxDrop = if (s.rx.head + 1) % s.cfg.nRx = s.rx.tail then [.queueFull .rx] else [] := by
  simp only [State.rxDrop, FrameQueue.isFull, nextIndex, beq_iff_eq]

/-- A legal peripheral frame is offered to FQ(rx), and PEND is set in both cases of the push (R140). -/
theorem ingress_of_legal {p : PFrame} (hl : p.legal = true) (s : State) :
    ingress p s = .next { s with
      rx := s.rxOffered (frameOfPFrame p), pend := true,
      out := { s.out with errors := s.out.errors ++ s.rxDrop } } := by
  rcases ingress_cases p s with ⟨hillegal, -⟩ | ⟨-, hfull, e⟩ | ⟨-, hroom, e⟩
  · rw [hl] at hillegal; cases hillegal
  · rw [e, State.rxOffered, State.rxDrop, if_pos hfull, if_pos hfull]; rfl
  · rw [e, State.rxOffered, State.rxDrop, hroom, if_neg Bool.false_ne_true, if_neg Bool.false_ne_true, List.append_nil]
    rfl

/-- Entry and return cancel out, whoever was pre-empted (R219, R220). -/
theorem takeInterrupt_of_legal {p : PFrame} (hl : p.legal = true) (s : State) :
    takeInterrupt p s = .next { s with
      rx := s.rxOffered (frameOfPFrame p), pend := true,
      out := { s.out with errors := s.out.errors ++ s.rxDrop } } := by
  rw [takeInterrupt, ingress_of_legal hl]; rfl

/-- Settles O23: the interrupt and the operation run the same body, once behind the output there is and once behind an
empty one. -/
theorem interruptRunsOneIngressAndReturns : Obligations.InterruptRunsOneIngressAndReturns := by
  intro p s drop hpush hdlc hdrop
  have hl : p.legal = true := (PFrame_legal_iff p).mpr hdlc
  obtain rfl : drop = s.rxDrop := hdrop.trans s.rxDrop_eq.symm
  have hexec : exec (.biIngress p) (interruptEntry s) = ingress p (interruptEntry s).fresh :=
    exec_biIngress_eq rfl hpush
  exact ⟨_, takeInterrupt_of_legal hl s, hexec.trans (ingress_of_legal hl _), rfl, s.rxOffered_tail _⟩

end Sys2Proof.Machine
end

section
/-! SUPPORT. No operation faults (spec/60_exceptions.md R221). Two loops alone have a bound to run out of, the drains of
`BE.EGRESS` and `NE.EGRESS`; the bounds suffice also where an interrupt brings a frame that is refused. -/

namespace Sys2Proof.Machine

section
variable {s t : State} {r : Fault}

/-! ## What has no bound to run out of -/

theorem atProducerPort_eq_fault {q : QSel} {body : State → Answer} (h : atProducerPort q s body = .fault r) :
    body s.fresh = .fault r := by
  unfold atProducerPort at h
  split at h
  · split at h
    · exact (inInterrupt_eq_fault h).2.2
    · exact (inBackground_eq_fault h).2.2
  · cases h

theorem atConsumerPort_eq_fault {q : QSel} {body : State → Answer} (h : atConsumerPort q s body = .fault r) :
    body s.fresh = .fault r := by
  unfold atConsumerPort at h
  split at h
  · exact (inBackground_eq_fault h).2.2
  · cases h

theorem ingress_ne_fault (p : PFrame) (s : State) : ingress p s ≠ .fault r := by
  rcases ingress_cases p s with ⟨-, e⟩ | ⟨-, -, e⟩ | ⟨-, -, e⟩ <;> rw [e] <;> nofun

theorem takeInterrupt_ne_fault (p : PFrame) (s : State) : takeInterrupt p s ≠ .fault r := fun h => by
  rcases (andThen_eq_fault _ _ _).mp h with h | ⟨u, -, h⟩
  · exact ingress_ne_fault p _ h
  · cases h

theorem takeInterrupts_ne_fault (ps : List PFrame) (s : State) : takeInterrupts ps s ≠ .fault r := by
  induction ps generalizing s with
  | nil => nofun
  | cons p ps ih =>
    intro h
    rcases (andThen_eq_fault _ _ _).mp h with h | ⟨u, -, h⟩
    · exact takeInterrupt_ne_fault p s h
    · exact ih u h

theorem preempt_ne_fault (s : State) : preempt s ≠ .fault r := by
  rw [preempt_eq_interruptsOf]
  exact takeInterrupts_ne_fault _ _

theorem popBoundary_ne_fault (q : QSel) (s : State) : popBoundary q s ≠ .fault r := by
  cases q with
  | rx => exact preempt_ne_fault s
  | tx => nofun

theorem popMicro_ne_fault (q : QSel) (s : State) : popMicro q s ≠ .fault r := fun h => by
  rcases (andThen_eq_fault _ _ _).mp h with h | ⟨s1, -, h⟩
  · exact popBoundary_ne_fault q _ h
  split at h
  · cases h
  rcases (andThen_eq_fault _ _ _).mp h with h | ⟨s2, -, h⟩
  · exact popBoundary_ne_fault q _ h
  rcases (andThen_eq_fault _ _ _).mp h with h | ⟨s3, -, h⟩
  · exact popBoundary_ne_fault q _ h
  · cases h

theorem egressN2_ne_fault (h : Handle) (s : State) : egressN2 h s ≠ .fault r := fun hn => by
  rcases (andThen_eq_fault _ _ _).mp hn with hn | ⟨u, -, hn⟩
  · exact popMicro_ne_fault .rx s hn
  · cases hn

theorem egressN3_ne_fault (h : Handle) (f : BusFrame) (s : State) : egressN3 h f s ≠ .fault r := fun hn => by
  rcases (andThen_eq_fault _ _ _).mp hn with hn | ⟨u, -, hn⟩
  · unfold sendFrame at hn
    split at hn <;> cases hn
  · cases hn

theorem initiate_ne_fault (now : Time) (s : State) : initiate now s ≠ .fault r := fun h => by
  unfold initiate at h
  split at h
  · cases h
  · split at h <;> cases h

theorem tickReconnect_ne_fault (now : Time) (s : State) : tickReconnect now s ≠ .fault r := fun h => by
  unfold tickReconnect at h
  split at h
  · exact initiate_ne_fault now s h
  · cases h

/-! ## The load of FQ(rx) along a run that goes on

A script may hold frames that are refused (D26). A boundary that goes on has taken none of them. -/

theorem takeInterrupts_legal {ps : List PFrame} (h : takeInterrupts ps s = .next t) : ps.all PFrame.legal = true := by
  induction ps generalizing s with
  | nil => rfl
  | cons p ps ih =>
    obtain ⟨u, hu, h⟩ := (andThen_eq_next _ _ _).mp h
    obtain ⟨v, hv, -⟩ := (andThen_eq_next _ _ _).mp hu
    rw [List.all_cons, ih h, Bool.and_true]
    unfold ingress at hv
    split at hv
    · assumption
    · cases hv

theorem KeepsHeld.rx_kept (h : KeepsHeld s t) : t.rx.wf t.cfg.nRx = true := h.cfg ▸ h.wf

theorem KeepsHeld.trans {u : State} (h : KeepsHeld s t) (h' : KeepsHeld t u) : KeepsHeld s u where
  cfg := h'.cfg.trans h.cfg
  inflight := h'.inflight.trans h.inflight
  wf := h.cfg ▸ h'.wf
  tail := h'.tail.trans h.tail
  held := h.held.trans (h.cfg ▸ h'.held)

theorem Traffic.rx_kept (h : Traffic s t) (hw : s.rx.wf s.cfg.nRx = true) : t.rx.wf t.cfg.nRx = true :=
  h.cfg ▸ h.rx hw

/-- A boundary takes nothing out of FQ(rx), and it queues no more than its script entry offered. -/
theorem preempt_load (hw : s.rx.wf s.cfg.nRx = true) (h : preempt s = .next t) :
    KeepsHeld s t ∧ t.rxLoad ≤ s.rxLoad := by
  cases hi : s.env.irq with
  | nil =>
    rw [preempt_none hi] at h
    cases h
    exact ⟨⟨rfl, rfl, hw, rfl, List.prefix_rfl⟩, Nat.le_refl _⟩
  | cons ps rest =>
    rw [preempt_some hi] at h
    obtain ⟨Q, fs, d, hrun, hwf, htail, hcontents, harrivals⟩ := 
      takeInterrupts_spec ps (s.setEnv { s.env with irq := rest }) (takeInterrupts_legal h) hw
    rw [hrun] at h
    cases h
    refine ⟨⟨rfl, rfl, hwf, htail, fs, hcontents.symm⟩, ?_⟩
    have hcount := congrArg List.length hcontents
    have htotal := harrivals.total
    rw [List.length_append, FrameQueue.contents_length, FrameQueue.contents_length] at hcount
    simp only [State.setEnv_rx, State.setEnv_cfg] at hcount
    simp only [State.rxLoad, hi, State.setEnv_env, State.setEnv_cfg, List.map_cons, List.sum_cons]
    omega

theorem preempt_setPop_eq_next {c : PopRegs} (h : preempt (s.setPop c) = .next t) :
    ∃ u, preempt s = .next u ∧ t = u.setPop c := by
  rw [preempt_setPop] at h
  obtain ⟨u, hu, h⟩ := (andThen_eq_next _ _ _).mp h
  cases h
  exact ⟨u, hu, rfl⟩

/-- A pop that answers a frame found the queue not empty in C1, went on at all three boundaries, and published the
successor of the tail that C1 read (R105). -/
theorem popMicro_rx_eq_some {f : BusFrame} (h : popMicro .rx s = .next (some f, t)) :
    s.rx.isEmpty = false ∧ ∃ s1 s2 s3, preempt s = .next s1 ∧ preempt s1 = .next s2 ∧ preempt s2 = .next s3 ∧
      t = popEnd (s3.setQueue .rx { s3.rx with tail := nextIndex s3.cfg.nRx s.rx.tail }) := by
  obtain ⟨_, h1, h⟩ := (andThen_eq_next _ _ _).mp h
  obtain ⟨s1, p1, rfl⟩ := preempt_setPop_eq_next (s := s) h1
  split at h
  · cases h
  rename_i hsees
  obtain ⟨_, h2, h⟩ := (andThen_eq_next _ _ _).mp h
  obtain ⟨s2, p2, rfl⟩ := preempt_setPop_eq_next (s := s1) h2
  obtain ⟨_, h3, h⟩ := (andThen_eq_next _ _ _).mp h
  obtain ⟨s3, p3, rfl⟩ := preempt_setPop_eq_next (s := s2) h3
  cases h
  exact ⟨Bool.eq_false_iff.mpr hsees, s1, s2, s3, p1, p2, p3, rfl⟩

/-- A pop that answers a frame lessens the load: interrupts only add behind the frame that C1 saw (R106). -/
theorem popMicro_rx_load {f : BusFrame} (hw : s.rx.wf s.cfg.nRx = true) (h : popMicro .rx s = .next (some f, t)) :
    t.rxLoad + 1 ≤ s.rxLoad := by
  obtain ⟨hne, s1, s2, s3, h1, h2, h3, rfl⟩ := popMicro_rx_eq_some h
  obtain ⟨k1, l1⟩ := preempt_load hw h1
  obtain ⟨k2, l2⟩ := preempt_load k1.rx_kept h2
  obtain ⟨k3, l3⟩ := preempt_load k2.rx_kept h3
  have kept : KeepsHeld s s3 := (k1.trans k2).trans k3
  have hload : s3.rxLoad ≤ s.rxLoad := (l3.trans l2).trans l1
  obtain ⟨-, hh, ht⟩ := (FrameQueue.wf_iff _ _).mp kept.rx_kept
  have hcount := FrameQueue.count_popped hh ht (kept.oldest hw hne).1
  rw [← kept.tail]
  show (s3.rx.popped s3.cfg.nRx).count s3.cfg.nRx + (s3.env.irq.map List.length).sum + 1 ≤ s.rxLoad
  rw [State.rxLoad] at hload
  omega

/-! ## The bound of `NE.EGRESS` -/

/-- The passes that suffice at a position for what is still to be sent: N2 and N3 for each frame, the last N2, and N4. -/
def passesAt (load : Nat) : Option EgressPos → Nat
  | none => 1
  | some .n2 => 2 * load + 2
  | some (.n3 _) => 2 * load + 3
  | some .n4 => 1

/-- The passes that suffice from `s` on. -/
def State.egressPasses (s : State) : Nat := passesAt s.rxLoad (s.inflight.egress.map EgressRegs.pos)

theorem passesAt_pos (load : Nat) (p : Option EgressPos) : 1 ≤ passesAt load p := by
  rcases p with _ | _ | _ | _ <;> simp only [passesAt] <;> omega

theorem passesAt_mono {load load' : Nat} (h : load ≤ load') (p : Option EgressPos) :
    passesAt load p ≤ passesAt load' p := by
  rcases p with _ | _ | _ | _ <;> simp only [passesAt] <;> omega

theorem preempt_passes (hw : s.rx.wf s.cfg.nRx = true) (h : preempt s = .next t) : t.egressPasses ≤ s.egressPasses := by
  obtain ⟨hkeeps, hload⟩ := preempt_load hw h
  rw [State.egressPasses, State.egressPasses, hkeeps.inflight]
  exact passesAt_mono hload _

/-- N2 goes on to N4, or to N3 with one frame less to send. -/
theorem egressN2_passes {h : Handle} (hw : s.rx.wf s.cfg.nRx = true) (hn : egressN2 h s = .next t) :
    t.egressPasses < passesAt s.rxLoad (some .n2) := by
  obtain ⟨⟨f, u⟩, hpop, hn⟩ := (andThen_eq_next _ _ _).mp hn
  cases hn
  cases f with
  | none => show 1 < 2 * s.rxLoad + 2; omega
  | some f =>
    have hload := popMicro_rx_load hw hpop
    show 2 * u.rxLoad + 3 < 2 * s.rxLoad + 2
    omega

/-- N3 sends its frame and goes back to N2; what is still to be sent is not touched. -/
theorem egressN3_passes {h : Handle} {f : BusFrame} (hn : egressN3 h f s = .next t) :
    t.egressPasses < passesAt s.rxLoad (some (.n3 f)) := by
  obtain ⟨u, hsend, hn⟩ := (andThen_eq_next _ _ _).mp hn
  cases hn
  unfold sendFrame at hsend
  split at hsend <;> cases hsend
  exact Nat.lt_succ_self (2 * s.rxLoad + 2)

/-- With the passes its position needs, a run does not run out of them: each pass leaves fewer to come. -/
theorem egressRun_ne_fault {k : Nat} (hw : s.rx.wf s.cfg.nRx = true) (hk : s.egressPasses ≤ k) :
    egressRun k s ≠ .fault r := by
  induction k generalizing s with
  | zero => exact absurd ((passesAt_pos _ _).trans hk) (Nat.not_succ_le_zero 0)
  | succ k ih =>
    intro h
    rcases (andThen_eq_fault _ _ _).mp h with h | ⟨s1, h1, h⟩
    · exact preempt_ne_fault s h
    have w1 : s1.rx.wf s1.cfg.nRx = true := (preempt_calm h1).rx_kept hw
    have hk1 : s1.egressPasses ≤ k + 1 := (preempt_passes hw h1).trans hk
    split at h
    · cases h
    rename_i e he
    rw [State.egressPasses, he, Option.map_some] at hk1
    split at h
    · rename_i hpos
      rw [hpos] at hk1
      rcases (andThen_eq_fault _ _ _).mp h with h | ⟨s2, h2, h⟩
      · exact egressN2_ne_fault _ s1 h
      · have hless := egressN2_passes w1 h2
        exact ih ((egressN2_traffic h2).1.rx_kept w1) (by omega) h
    · rename_i f hpos
      rw [hpos] at hk1
      rcases (andThen_eq_fault _ _ _).mp h with h | ⟨s2, h2, h⟩
      · exact egressN3_ne_fault _ f s1 h
      · have hless := egressN3_passes h2
        exact ih ((egressN3_traffic h2).1.rx_kept w1) (by omega) h
    · cases h

theorem execNeEgress_ne_fault (hw : s.rx.wf s.cfg.nRx = true) : execNeEgress s ≠ .fault r := fun h => by
  obtain ⟨-, -, h⟩ := inBackground_eq_fault h
  split at h
  · cases h
  rename_i a _
  split at h
  · exact egressRun_ne_fault (s := egressN1 a s.fresh) hw (Nat.le_refl _) h
  · cases h

/-! ## The bound of `BE.EGRESS` -/

theorem execBeEgress_ne_fault (hw : s.tx.wf s.cfg.nTx = true) : execBeEgress s ≠ .fault r := fun h => by
  obtain ⟨-, -, h⟩ := inBackground_eq_fault h
  obtain ⟨answers, c, -, -, hdrain⟩ := drainTx_spec (s := s.fresh) hw (Nat.lt_succ_self _)
  rw [hdrain] at h
  cases h

/-! ## The operations and the step -/

theorem execFqPush_ne_fault {q : QSel} {f : BusFrame} : execFqPush q f s ≠ .fault r := fun h => by
  have h := atProducerPort_eq_fault h
  split at h <;> cases h

theorem execFqPop_ne_fault {q : QSel} : execFqPop q s ≠ .fault r := fun h => by
  rcases (andThen_eq_fault _ _ _).mp (atConsumerPort_eq_fault h) with h | ⟨u, -, h⟩
  · exact popMicro_ne_fault q _ h
  · cases h

/-- With both queues in order no operation faults, whoever invokes it and whatever is in flight. -/
theorem exec_ne_fault (i : Instr) (hrx : s.rx.wf s.cfg.nRx = true) (htx : s.tx.wf s.cfg.nTx = true) :
    exec i s ≠ .fault r := fun h => by
  unfold exec at h
  cases i with
  | fqPush => exact execFqPush_ne_fault h
  | fqPop => exact execFqPop_ne_fault h
  | biIngress p => exact ingress_ne_fault p _ (inInterrupt_eq_fault h).2.2
  | beEgress => exact execBeEgress_ne_fault htx h
  | neEgress => exact execNeEgress_ne_fault hrx h
  | clInitiate now => exact initiate_ne_fault now _ (inBackground_eq_fault h).2.2
  | clTick now => exact tickReconnect_ne_fault now _ (inBackground_eq_fault h).2.2
  | fcDecode | wireFrame | slSend | alSet | alClearif | alGet =>
    obtain ⟨-, -, h⟩ := inBackground_eq_fault h
    cases h
  | fcEncode | clEos | clError | slSetup | slError | slEnqueue =>
    obtain ⟨-, -, h⟩ := inBackground_eq_fault h
    split at h <;> cases h
  | clConnected | clConnfail | clRecv | clPoll | slAccept | slRecv | slEos | slSent | slPoll =>
    obtain ⟨-, -, h⟩ := inBackground_eq_fault h
    repeat' split at h
    all_goals cases h

/-- A step faults only in the operation it runs. -/
theorem step_eq_fault (h : step s = .fault r) :
    ∃ a later i, exec i (enterContext a (s.setInbox later)) = .fault r := by
  cases hin : s.inbox with
  | nil => rw [step_of_inbox_nil hin] at h; cases h
  | cons inv later =>
    simp only [step, fetchInvocation_cons hin] at h
    split at h
    · cases h
    · rename_i i _
      rcases (andThen_eq_fault _ _ _).mp h with hexec | ⟨u, -, hleave⟩
      · exact ⟨inv.agent, later, i, hexec⟩
      · cases hleave

end

/-! ## The obligation -/

/-- Settles O59: the invariant keeps both queues in order, and then `exec_ne_fault` speaks of the operation the step
runs. -/
theorem noStepFaults : Obligations.NoStepFaults := by
  intro s r hinv hstep
  obtain ⟨-, hrx, htx, -⟩ := (State.inv_iff s).mp hinv
  obtain ⟨a, later, i, hexec⟩ := step_eq_fault hstep
  exact exec_ne_fault (s := enterContext a (s.setInbox later)) i hrx htx hexec

end Sys2Proof.Machine
end

section
/-! SUPPORT. What reset leaves, what no step changes, and the lost wake-up (spec/70_reset_and_hazards.md R240, R241,
R243, R250): an NE.EGRESS whose one pop reads the queue as empty ends with PEND clear, whatever interrupts queue after
C1. -/

namespace Sys2Proof.Machine

/-! ## An NE.EGRESS over an empty queue -/

/-- N2 over an empty queue is the interrupts of C1|C2, and N4 is next: the pop does not look at `head` again (R105). -/
theorem egressN2_of_empty {s t : State} (h : Handle) (hpop : s.inflight.pop = {}) (hempty : s.rx.isEmpty = true)
    (hpre : preempt s = .next t) (ht : t.inflight = s.inflight) :
    egressN2 h s = .next (t.setEgress (some { h := h, pos := .n4 })) := by
  rw [preempt_eq_interruptsOf] at hpre
  rw [egressN2, popMicro_rx_of_empty hpop hempty hpre ht, andThen_next]
  rfl

/-- The position is no part of what a stretch did. -/
theorem EgressProgress.setEgress {s t : State} {xs fs : List BusFrame} {cs : List Command} {d k : Nat}
    (p : EgressProgress s t xs cs fs d k) (e : Option EgressRegs) : EgressProgress s (t.setEgress e) xs cs fs d k := by
  refine ⟨?_, p.contents, p.arrivals, p.calm⟩
  conv_lhs => rw [p.frame]
  rfl

/-- A boundary without an interrupt brings no frame. -/
theorem EgressProgress.quiet {s t : State} {xs fs : List BusFrame} {cs : List Command} {d k : Nat}
    (p : EgressProgress s t xs cs fs d k) (hquiet : (s.env.irq.take k).flatten = []) : fs = [] ∧ d = 0 := by
  have htotal := p.arrivals.total
  rw [hquiet, List.length_nil] at htotal
  exact ⟨List.length_eq_zero_iff.mp (by omega), by omega⟩

/-- From N2 over an empty queue, with no interrupt before C1, the run ends after one failed pop: nothing is taken out,
nothing is sent, and PEND is clear, whatever the interrupts of the two boundaries that follow queue (R152, R250). -/
theorem egressRun_of_empty {s : State} {h : Handle} (k : Nat) (hs : s.EgressAt (some { h := h, pos := .n2 }))
    (hempty : s.rx.contents s.cfg.nRx = []) (hquiet : (s.env.irq.take 1).flatten = []) :
    ∃ t fs d, egressRun (k + 2) s = .next t ∧ t.EgressAt none ∧ t.pend = false ∧ EgressProgress s t [] [] fs d 3 := by
  obtain ⟨s1, f1, d1, hpre1, at1, p1⟩ := preempt_progress hs
  obtain ⟨s2, f2, d2, hpre2, at2, p2⟩ := preempt_progress at1
  obtain ⟨rfl, rfl⟩ := p1.quiet hquiet
  have hstill : s1.rx.contents s1.cfg.nRx = [] := by
    have hcontents := p1.contents
    rwa [hempty, ← p1.cfg] at hcontents
  have hseen : s1.rx.isEmpty = true := beq_iff_eq.mpr (FrameQueue.tail_eq_head_of_contents at1.wf hstill).symm
  have hpop : egressN2 h s1 = .next (s2.setEgress (some { h := h, pos := .n4 })) :=
    egressN2_of_empty h (congrArg InFlight.pop at1.inflight) hseen hpre2 (at2.inflight.trans at1.inflight.symm)
  have atN4 : (s2.setEgress (some { h := h, pos := .n4 })).EgressAt (some { h := h, pos := .n4 }) :=
    ⟨at2.legal, at2.wf, by rw [State.setEgress_inflight, at2.inflight]⟩
  obtain ⟨t, f3, d3, hend, at3, hclear, p3⟩ := egressRun_ends k atN4
  refine ⟨t, _, _, ?_, at3, hclear, (p1.trans (p2.setEgress _)).trans p3⟩
  rw [egressRun_n2 hpre1 (congrArg InFlight.egress at1.inflight), hpop, andThen_next]
  exact hend

/-- One frame offered to a queue that holds none is queued: a legal queue has room for it (R8, R100). -/
theorem Arrivals.single_of_empty {n d : Nat} {p : PFrame} {fs : List BusFrame} (a : Arrivals n 0 [p] fs d)
    (hn : 2 ≤ n) : fs = [frameOfPFrame p] := by
  have hkept : d = 0 := by
    by_contra hd
    have : n ≤ 0 + 1 := a.full hd
    omega
  have hlength : fs.length + d = 1 := a.total
  exact a.sub.eq_of_length (by rw [List.length_map, List.length_singleton]; omega)

/-! ## The obligations -/

/-- Settles O54: both queues are `FrameQueue.empty`, and the rest is the table of R49 as `State.reset` writes it. -/
theorem resetStateIsEmptyAndIdle : Obligations.ResetStateIsEmptyAndIdle :=
  have hqueues : ∀ n, (FrameQueue.empty n).head = 0 ∧ (FrameQueue.empty n).tail = 0 := fun _ => ⟨rfl, rfl⟩
  have ⟨hrxHead, hrxTail⟩ := hqueues Config.reference.nRx
  have ⟨htxHead, htxTail⟩ := hqueues Config.reference.nTx
  ⟨hrxHead, hrxTail, htxHead, htxTail, rfl, rfl, rfl, rfl, rfl, rfl, rfl, rfl⟩

/-- Settles O60: entering and leaving a context do not touch the configuration, and no operation's `Effect` does. -/
theorem configurationNeverChanges : Obligations.ConfigurationNeverChanges := by
  intro s t hstep
  obtain rfl | ⟨a, later, i, u, hexec, rfl⟩ := step_eq_next hstep
  · rfl
  · calc (leaveContext u).cfg = u.cfg := rfl
      _ = (enterContext a (s.setInbox later)).cfg := (exec_effect hexec).cfg
      _ = s.cfg := rfl

/-- Settles O28: the frame of the interrupt at C1|C2 arrives after the pop has read `head`, so it stays in FQ(rx) while
N4 clears PEND, and the next NE.EGRESS waits for PEND. -/
theorem lateInterruptLeavesFrameWithoutPend : Obligations.LateInterruptLeavesFrameWithoutPend := by
  intro s h p hinv hs hslot hpend hindices hdlc hirq
  obtain ⟨⟨hcap, -⟩, hw, -, hidle, -⟩ := (State.inv_iff s).mp hinv
  obtain ⟨hcontext, -⟩ := (ready_iff s).mp hs
  obtain ⟨-, hh, ht⟩ := (FrameQueue.wf_iff _ _).mp hw
  have hempty : s.rx.contents s.cfg.nRx = [] := FrameQueue.contents_empty hh ht (beq_iff_eq.mpr hindices)
  have hl : s.irqLegal = true := by simp [State.irqLegal, hirq, (PFrame_legal_iff p).mpr hdlc]
  have hstart : (egressN1 h s.fresh).EgressAt (some { h := h, pos := .n2 }) := ⟨hl, hw, by simp [egressN1, hidle]⟩
  have hquiet : ((egressN1 h s.fresh).env.irq.take 1).flatten = [] := by
    rw [show (egressN1 h s.fresh).env.irq = [[], [p]] from hirq]; rfl
  obtain ⟨t, fs, d, hrun, hend, hclear, progress⟩ := egressRun_of_empty (2 * s.fresh.rxLoad) hstart hempty hquiet
  have hexec : exec .neEgress s = .next t := (exec_neEgress_runs hs hslot hpend).trans hrun
  have harrivals : Arrivals s.cfg.nRx 0 [p] fs d := by
    have := progress.arrivals
    rwa [show (egressN1 h s.fresh).rx.contents (egressN1 h s.fresh).cfg.nRx = [] from hempty,
      show (egressN1 h s.fresh).env.irq = [[], [p]] from hirq] at this
  have hheld : t.rx.contents s.cfg.nRx = s.rx.contents s.cfg.nRx ++ fs := progress.contents
  have hsent : t.out.cmds = [] := by rw [progress.frame]; rfl
  have hready : t.ready = true := (ready_iff t).mpr ⟨by rw [progress.frame]; exact hcontext, hend.inflight⟩
  refine ⟨t, hexec, hclear, ?_, hsent, exec_neEgress_waits hready (.inr hclear)⟩
  rw [hheld, hempty, harrivals.single_of_empty hcap, List.nil_append]

end Sys2Proof.Machine
end
